-- ==== Sys2Proof/Word.lean ====
section
/-! DEFINITION. The word types of the engine (spec/00_scope.md R5, R7, R8): registers, counts and weights are 32-bit
unsigned numbers, bit counts are 64-bit, data moves one byte at a time, node indices are 9-bit links. -/

namespace Sys2Proof

/-- One byte of data memory (R64), or one byte lane of the register port (R62). -/
abbrev Byte := BitVec 8

/-- A register, a count or a node weight (R5, R8): 32 bits, unsigned. -/
abbrev Word := BitVec 32

/-- A bit count (R5): 64 bits, unsigned. -/
abbrev Quad := BitVec 64

/-- A node index of the node table, or `Config.noNode` (R41): 9 bits. -/
abbrev Link := BitVec 9

end Sys2Proof
end

