-- ==== Sys2Proof/Syntax.lean ====
section
/-! DEFINITION. The instructions: the six commands of spec/30_encoding.md R91, one constructor per row of
spec/opcode_table.json. No command has an operand field (R90, R92): its operands are the parameter registers latched at
acceptance and the engine's arrays. -/

namespace Sys2Proof

inductive Instr where
  /-- R120: no operation. -/
  | nop
  /-- R130: count the byte frequencies of a buffer. -/
  | fcount
  /-- R140: build the Huffman tree from the frequency table. -/
  | build
  /-- R160: derive the code table from the resident tree. -/
  | gencode
  /-- R170: pack the codes of a buffer into a bitstream. -/
  | encode
  /-- R190: decode a bitstream by walking the resident tree. -/
  | decode
  deriving DecidableEq, Repr

end Sys2Proof
end

