-- ==== Sys2Proof/WellFormed.lean ====
section
/-! DEFINITION. Well-formedness. An instruction has no operand (spec/30_encoding.md R90, R92), so every term of `Instr`
is well formed. What can be ill formed is a command as the host writes it: the bytes of a register write are a command
word only when there are exactly four of them (R94, R61), with the reserved bits 31:8 zero (R90) and the opcode one of
the six of R91. -/

namespace Sys2Proof

/-- R92: no command has a register, immediate, mode or size field that could be out of range. -/
def Instr.wellFormed : Instr → Bool
  | .nop => true
  | .fcount => true
  | .build => true
  | .gencode => true
  | .encode => true
  | .decode => true

/-- R94: every command word is exactly 32 bits, four byte lanes of the register port. -/
def lanesWellFormed (lanes : List Byte) : Bool := lanes.length == 4

/-- R90: bits 31:8 of a command word are reserved and must be 0. -/
def reservedClear (w : Word) : Bool := w.extractLsb' 8 24 == 0#24

/-- R91, R93: the opcodes `0x06` to `0xFF` are reserved. -/
def opcodeDefined (w : Word) : Bool := decide ((w.extractLsb' 0 8).toNat ≤ 5)

/-- R91: the words that select a command. -/
def wordWellFormed (w : Word) : Bool := reservedClear w && opcodeDefined w

end Sys2Proof
end

