-- ==== Sys2Proof/Decode.lean ====
section
/-! DEFINITION. The decoder and the encoder of command words (spec/30_encoding.md R90, R91, R93, R94), and the byte
lanes of the register port (spec/20_memory.md R62). Decoding is total: any bytes give an instruction or a rejection
by name. -/

namespace Sys2Proof

/-- Why bytes written to CMD select no command (R93, R94). An illegal word that is accepted still runs, as a command
that raises ILLEGAL_CMD (R116); these names say which field was wrong. DESIGN CHOICE (assumption 24, safe). -/
inductive Reject where
  /-- R94: not exactly four byte lanes. -/
  | wrongWidth
  /-- R93: a bit of RSVD (31:8) is set. -/
  | reservedBits
  /-- R93: OP is `0x06` to `0xFF`. -/
  | reservedOpcode
  deriving DecidableEq, Repr

/-- R62: byte lane `k` carries bits `8k+7:8k` of the register. -/
def lanesOfWord (w : Word) : List Byte :=
  [w.extractLsb' 0 8, w.extractLsb' 8 8, w.extractLsb' 16 8, w.extractLsb' 24 8]

/-- R62: the register value four byte lanes carry, lane 0 least significant. -/
def wordOfLanes (b0 b1 b2 b3 : Byte) : Word := b3 ++ b2 ++ b1 ++ b0

/-- R90: the opcode field, bits 7:0. -/
def opField (w : Word) : BitVec 8 := w.extractLsb' 0 8

/-- R90: the reserved field, bits 31:8. -/
def rsvdField (w : Word) : BitVec 24 := w.extractLsb' 8 24

/-- R91: the opcode map. -/
def opcodeMap (op : BitVec 8) : Option Instr :=
  if op = 0x00#8 then some .nop
  else if op = 0x01#8 then some .fcount
  else if op = 0x02#8 then some .build
  else if op = 0x03#8 then some .gencode
  else if op = 0x04#8 then some .encode
  else if op = 0x05#8 then some .decode
  else none

/-- R90, R91, R93: the command a 32-bit word selects. -/
def decode (w : Word) : Except Reject Instr :=
  if rsvdField w = 0#24 then
    match opcodeMap (opField w) with
    | some i => .ok i
    | none => .error .reservedOpcode
  else .error .reservedBits

/-- R94, R61: the command the byte lanes of a register write select. -/
def decodeLanes (lanes : List Byte) : Except Reject Instr :=
  match lanes with
  | [b0, b1, b2, b3] => decode (wordOfLanes b0 b1 b2 b3)
  | _ => .error .wrongWidth

/-- R91: the command word of an instruction. -/
def encode : Instr → Word
  | .nop => 0x00000000#32
  | .fcount => 0x00000001#32
  | .build => 0x00000002#32
  | .gencode => 0x00000003#32
  | .encode => 0x00000004#32
  | .decode => 0x00000005#32

/-- The opcode table's numbering laid out as the host writes it: the low `nbits` bits of `w`, the bits above them zero,
on four byte lanes. -/
def tableLanes (nbits w : Nat) : List Byte := lanesOfWord (BitVec.ofNat 32 (w % 2 ^ nbits))

/-- The instruction the decoder reads from a row of spec/opcode_table.json. A row of more than 32 bits has no lanes to
stand on (R94). -/
def decodeTableWord (nbits w : Nat) : Option Instr :=
  if nbits ≤ 32 then
    match decodeLanes (tableLanes nbits w) with
    | .ok i => some i
    | .error _ => none
  else none

end Sys2Proof
end

