-- ==== Sys2Proof/Config.lean ====
section
/-! DEFINITION. The fixed parameters of the hardware (spec/00_scope.md R5) and the free values: values the spec leaves
open and says a model draws (spec/93_implementation_defined.md V1 to V7). A free value is an opaque constant applied to
the draw counter of State, so no proof can learn it. The open parameters of R6 (HUFE_BASE, DataMap, COHERENT_MASTER)
are plain data in State (`Machine.Platform`), so that every statement about a state takes them as arguments. -/

namespace Sys2Proof.Config

/-- R5 `NSYM`: the alphabet has 256 symbols. -/
abbrev nsym : Nat := 256

/-- R5 `NNODE`: 256 leaves and 255 internal nodes. -/
abbrev nnode : Nat := 511

/-- R5 `ROOT`: the node index of the root. -/
abbrev root : Nat := 510

/-- R5 `NONE`: the null node index. -/
def noNode : Link := 0x1FF#9

/-- R64: the data space has `2^32` bytes. -/
abbrev dataSpace : Nat := 2 ^ 32

/-- R5: the register block has 32 KiB. -/
abbrev blockSize : Nat := 0x8000

/-- What a byte of data memory that nothing has written reads as. DESIGN CHOICE (assumption 2, unsafe): the spec gives
the data memory no contents before the host writes it. -/
abbrev unwritten : Byte := 0#8

/-- The 32-bit value of draw `n`: a register read the spec calls unspecified (R46, R47, R240; V1 to V3). -/
opaque freeWord : Nat → Word

/-- The byte of draw `n`: a raced or unsynchronised byte (R74, R77), a byte whose write failed (R65), what a device
answers (R66). -/
opaque freeByte : Nat → Byte

/-- The choice of draw `n`: whether a write in flight at a reset was performed (R242, V6). -/
opaque freeBit : Nat → Bool

end Sys2Proof.Config
end

