-- ==== Sys2Proof/Machine/State.lean ====
section
/-! DEFINITION. The state of the machine, as plain data (spec/10_state.md, R20 to R50): the registers, the arrays, the
hidden state of the running command, the data memory, what the platform fixes (spec/00_scope.md R6), and the actions of
the host that are still to arrive. -/

namespace Sys2Proof.Machine

/-- Reasons the machine stops with a fault: none. Every error of the engine is reported in STATUS and the machine goes
on (R210, R214); a data access that never gets a response leaves a next state that stays BUSY (R121). Nothing raises a
fault; safe. -/
inductive Fault where
  deriving DecidableEq, Repr

/-- Reasons the machine gives an instruction no meaning. -/
inductive Refusal where
  /-- Raised by an arm of `exec` that has no meaning yet; no arm has one left. Safe: the machine stops. -/
  | notModelled (mnemonic : String)
  deriving DecidableEq, Repr

/-- R66, V9: what the platform puts at a data address. -/
inductive Kind where
  /-- Memory that answers without error. -/
  | memory
  /-- Memory whose reads by the engine get an error response. -/
  | readError
  /-- Memory whose writes by the engine get an error response. -/
  | writeError
  /-- No memory: every access by the engine gets an error response. -/
  | hole
  /-- An address with side effects on access: a device of the platform. -/
  | device
  /-- An access by the engine never gets a response (R121, V8). -/
  | silent
  deriving DecidableEq, Repr

/-- One range of the data space and what it holds. DESIGN CHOICE (assumption 20, unsafe): the map is fixed per address. -/
structure Region where
  base : Nat
  len : Nat
  kind : Kind
  deriving DecidableEq, Repr

/-- The open parameters of R6, fixed for a machine. The first region that covers an address says what it holds; an
address no region covers is memory. -/
structure Platform where
  /-- `HUFE_BASE`, the base address of the register block in the host's space (R60). -/
  hufeBase : Nat
  /-- `DataMap` (R66). -/
  dataMap : List Region
  /-- `COHERENT_MASTER` (R77). -/
  coherent : Bool
  deriving DecidableEq, Repr

/-- R30: the parameter registers. -/
structure Params where
  srcAddr : Word
  srcLen : Word
  dstAddr : Word
  dstCap : Word
  symCount : Word
  inBitsLo : Word
  inBitsHi : Word
  deriving DecidableEq, Repr

/-- R112: the copies of the parameter registers a running command reads. -/
structure Latched where
  srcAddr : Word
  srcLen : Word
  dstAddr : Word
  dstCap : Word
  symCount : Word
  inBits : Quad
  deriving DecidableEq, Repr

/-- R41: one entry of the node table. -/
structure Node where
  /-- `W[n]`. -/
  weight : Word
  /-- `L[n]`. -/
  left : Link
  /-- `R[n]`. -/
  right : Link
  /-- `P[n]`. -/
  parent : Link
  deriving DecidableEq, Repr

/-- R141: a member of the active set with its key `(W[m], m)`. -/
structure Key where
  weight : Word
  node : Nat
  deriving DecidableEq, Repr

/-- R36, R48: the phase, and the hidden progress of the running command. The bit cursor `pos` of ENCODE and DECODE is
OUT_BITS, and FCOUNT's index `k` is OUT_COUNT, as their pseudocode keeps them equal; they are stored once, there. -/
inductive Run where
  /-- No command runs: `BUSY = 0`. -/
  | idle
  /-- Accepted; the checks of R119 come next. -/
  | start (i : Instr)
  /-- Accepted, and the word is not one of R91's six (R116). -/
  | illegal (w : Word)
  /-- FCOUNT's counting loop. -/
  | fcount
  /-- BUILD after `k` merges, with the active set. -/
  | build (active : List Key) (k : Nat)
  /-- GENCODE about to derive the code of this leaf. -/
  | gencode (leaf : Nat)
  /-- ENCODE after `k` source bytes were read, with the partial output byte and the bits of the last byte's code that are
  still to be appended. -/
  | encode (k : Nat) (acc : Byte) (code : List Bool)
  /-- DECODE at a node of the walk, or between two symbols, with the current input byte. -/
  | decode (walk : Option Nat) (cur : Byte)
  deriving DecidableEq, Repr

/-- One access of the engine on its master port (R65). -/
inductive Access where
  | read (a : Nat)
  | write (a : Nat) (v : Byte)
  deriving DecidableEq, Repr

/-- What the host does to the engine, to its pins, or to data memory. -/
inductive HostAct where
  /-- A write on the register port at a host address, by byte lanes (R61, R62). -/
  | write (addr : Nat) (lanes : List Byte)
  /-- A read of this many bytes on the register port at a host address (R61). -/
  | read (addr : Nat) (width : Nat)
  /-- The host's write of a byte of data memory (R71, R74). -/
  | store (a : Nat) (v : Byte)
  /-- The host's read of a byte of data memory (R72, R74). -/
  | load (a : Nat)
  /-- The host writes a range of data memory back from its caches (R77). -/
  | clean (a len : Nat)
  /-- The host invalidates a range of data memory in its caches (R77). -/
  | invalidate (a len : Nat)
  /-- `rst_n` goes low (R240). -/
  | resetLow
  /-- `rst_n` goes high (R240). -/
  | resetHigh
  deriving DecidableEq, Repr

/-- When an action of the host arrives. -/
inductive Due where
  /-- After the engine has taken this many steps since the host's last action, or has none left to take. A store to a
  byte of the running command's source range is then one that comes once the command has ended, or, where a byte of its
  ranges never answers and it may never end, while it runs. DESIGN CHOICE (assumption 8, safe). -/
  | after (n : Nat)
  /-- As `after`, and known to come while the command that is running then still runs (R74). DESIGN CHOICE (assumption
  8, safe). -/
  | during (n : Nat)
  /-- R97 WAIT: after the host has read `DONE = 1`. -/
  | wait
  /-- R97 WAITOK: as WAIT, and the host's program stops if it then reads `ERR = 1`. -/
  | waitOk
  deriving DecidableEq, Repr

/-- An action of the host that is still to arrive. DESIGN CHOICE (assumption 1, safe): they are placed from outside. -/
structure Input where
  due : Due
  act : HostAct
  deriving DecidableEq, Repr

/-- What the host's last access got back. -/
inductive Response where
  /-- Nothing yet, or nothing from this engine. -/
  | none
  /-- A write was taken. -/
  | written
  /-- R63: a register read's word. -/
  | word (v : Word)
  /-- The byte of a read of data memory. -/
  | byte (v : Byte)
  /-- R61: an error response on the host's bus. -/
  | busError
  deriving DecidableEq, Repr

/-- The content of a node entry at reset. DESIGN CHOICE (assumption 3): R50 leaves it unspecified, and `TREE_VALID = 0`
hides it. -/
def Node.blank : Node := { weight := 0, left := 0, right := 0, parent := 0 }

structure State where
  /-- CTRL.IE (R22). -/
  ie : Bool
  /-- STATUS.DONE (R25). -/
  done : Bool
  /-- STATUS.ERR (R26). -/
  err : Bool
  /-- STATUS.TREE_VALID (R27). -/
  treeValid : Bool
  /-- STATUS.CODES_VALID (R27). -/
  codesValid : Bool
  /-- STATUS.CMDOVR (R28). -/
  cmdovr : Bool
  /-- STATUS.ERRCODE (R26). -/
  errcode : BitVec 4
  /-- STATUS.LASTCMD (R29). -/
  lastcmd : BitVec 8
  /-- The parameter registers (R30). -/
  params : Params
  /-- OUT_COUNT (R32). -/
  outCount : Word
  /-- OUT_BITS (R33). -/
  outBits : Quad
  /-- ERR_INFO (R34). -/
  errInfo : Word
  /-- `FREQ[0..255]` (R40). -/
  freq : Vector Word 256
  /-- `W`, `L`, `R`, `P` of nodes 0 to 510 (R41). -/
  nodes : Vector Node 511
  /-- `CODE[0..255]`; `LEN[i]` is the length of `CODE[i]` (R44). -/
  codes : Vector (List Bool) 256
  /-- The latched parameters (R112). -/
  lat : Latched
  /-- The phase and the hidden progress (R36, R48); STATUS.BUSY is `run ≠ idle` (R24). -/
  run : Run
  /-- Data memory (R64): address and byte, in canonical form. -/
  mem : List Host.Cell
  /-- The open parameters (R6). -/
  platform : Platform
  /-- `rst_n` is low (R240). -/
  rstLow : Bool
  /-- Bytes of the running command's source range the host has written since its acceptance (R74). -/
  racedSrc : List Nat
  /-- Bytes of the running command's destination range the host has written, or written back from its caches, since its
  acceptance (R74, R77). -/
  racedDst : List Nat
  /-- Bytes of `hostDirty` when the running command was accepted: R71 promises the command nothing about them (R77). -/
  unclean : List Nat
  /-- Bytes the host wrote and has not cleaned from its caches since; kept only when the master port is not coherent
  (R77). -/
  hostDirty : List Nat
  /-- Bytes the engine wrote and the host has not invalidated in its caches since; kept only when the master port is not
  coherent (R77). -/
  hostStale : List Nat
  /-- Bytes the engine wrote since the host last read STATUS with DONE = 1: R72 promises the host nothing about them. -/
  unseen : List Nat
  /-- The host's actions that are still to arrive, in order (R63). -/
  inputs : List Input
  /-- What the host's last access got back (R61, R63). The model's own field: the answer on the host's bus. -/
  response : Response
  /-- The engine's data accesses, the latest first (R67). The model's own field: what the master port has shown. -/
  accesses : List Access
  /-- How many free values have been drawn. The model's own field. -/
  draws : Nat
  deriving DecidableEq, Repr

/-- The parameter registers after reset (R50). -/
def Params.reset : Params :=
  { srcAddr := 0, srcLen := 0, dstAddr := 0, dstCap := 0, symCount := 0, inBitsLo := 0, inBitsHi := 0 }

/-- The latched parameters while no command has run (R50: there is no hidden command state). -/
def Latched.reset : Latched :=
  { srcAddr := 0, srcLen := 0, dstAddr := 0, dstCap := 0, symCount := 0, inBits := 0 }

/-- The platform of the reset state. DESIGN CHOICE (assumption 4, unsafe): R6 leaves the three parameters open. -/
def Platform.reset : Platform := { hufeBase := 0, dataMap := [], coherent := true }

/-- R50: the machine right after reset, `rst_n` high, nothing stored in data memory and no host action to come. -/
def State.reset : State :=
  { ie := false, done := false, err := false, treeValid := false, codesValid := false, cmdovr := false
    errcode := 0, lastcmd := 0
    params := Params.reset
    outCount := 0, outBits := 0, errInfo := 0
    freq := Vector.replicate 256 0
    nodes := Vector.replicate 511 Node.blank
    codes := Vector.replicate 256 []
    lat := Latched.reset
    run := .idle
    mem := []
    platform := Platform.reset
    rstLow := false
    racedSrc := [], racedDst := [], unclean := [], hostDirty := [], hostStale := []
    unseen := []
    inputs := [], response := .none, accesses := [], draws := 0 }

end Sys2Proof.Machine
end

