-- ==== Sys2Proof/Machine/Flags.lean ====
section
/-! DEFINITION. The flags of the engine (spec/10_state.md R22 to R29, R37; spec/60_exceptions.md R210, R220): the phase
bit, the STATUS word, what acceptance does to the valid flags, what a host write to STATUS clears, the error codes and
the interrupt output. -/

namespace Sys2Proof.Machine

/-- R24, R36: STATUS.BUSY, a command is running. -/
def busy (s : State) : Bool :=
  match s.run with
  | .idle => false
  | _ => true

/-- R210: the errors a command can report. -/
inductive ErrorCode where
  | illegalCmd
  | noTree
  | noCodes
  | addrRange
  | overlap
  | dstOverflow
  | truncated
  | busError
  deriving DecidableEq, Repr

/-- R210: the value of STATUS.ERRCODE for an error. -/
def errorNumber : ErrorCode → BitVec 4
  | .illegalCmd => 1
  | .noTree => 2
  | .noCodes => 3
  | .addrRange => 4
  | .overlap => 5
  | .dstOverflow => 6
  | .truncated => 7
  | .busError => 8

/-- R23: the STATUS word; reserved bits read 0. -/
def statusWord (s : State) : Word :=
  0#8 ++ s.lastcmd ++ 0#4 ++ s.errcode ++ 0#2 ++ BitVec.ofBool s.cmdovr ++ BitVec.ofBool s.codesValid
    ++ BitVec.ofBool s.treeValid ++ BitVec.ofBool s.err ++ BitVec.ofBool s.done ++ BitVec.ofBool (busy s)

/-- R22: the CTRL word; SRST and the reserved bits read 0. -/
def ctrlWord (s : State) : Word := 0#31 ++ BitVec.ofBool s.ie

/-- R23: a host write to STATUS clears DONE with bit 1 and CMDOVR with bit 5, and nothing else. -/
def writeStatus (v : Word) (s : State) : State :=
  { s with done := s.done && !v.getLsbD 1, cmdovr := s.cmdovr && !v.getLsbD 5 }

/-- R27, R111: FCOUNT and BUILD clear both valid flags at acceptance. -/
def clearsTables (c : Word) : Bool := c == 0x00000001#32 || c == 0x00000002#32

/-- R111: TREE_VALID after the acceptance of word `c`. -/
def treeAfterAccept (c : Word) (tree : Bool) : Bool := tree && !clearsTables c

/-- R111: CODES_VALID after the acceptance of word `c`; GENCODE clears it when there is a tree. -/
def codesAfterAccept (c : Word) (tree codes : Bool) : Bool :=
  codes && !(clearsTables c || (c == 0x00000003#32 && tree))

/-- R220: the interrupt output, `CTRL.IE & STATUS.DONE`. -/
def irq (s : State) : Bool := s.ie && s.done

end Sys2Proof.Machine
end

