-- ==== Sys2Proof/Machine/Operands.lean ====
section
/-! DEFINITION. The operands of the commands (spec/30_encoding.md R92; spec/40_command.md R112, R117 to R119): latching,
the source and destination ranges, the checks on them, and the alphabet index of a byte (spec/00_scope.md R9). -/

namespace Sys2Proof.Machine

/-- R92, R112: the latched copy of the parameter registers. -/
def latch (p : Params) : Latched :=
  { srcAddr := p.srcAddr, srcLen := p.srcLen, dstAddr := p.dstAddr, dstCap := p.dstCap, symCount := p.symCount
    inBits := p.inBitsHi ++ p.inBitsLo }

/-- R190: the bytes a bit stream of `bits` bits occupies, `ceil(bits / 8)`. -/
def bytesOfBits (bits : Nat) : Nat := (bits + 7) / 8

/-- R119 `srclen`: the length of the source range of a command; a command that reads no buffer has none. -/
def sourceLen (i : Instr) (l : Latched) : Nat :=
  match i with
  | .nop => 0
  | .fcount => l.srcLen.toNat
  | .build => 0
  | .gencode => 0
  | .encode => l.srcLen.toNat
  | .decode => bytesOfBits l.inBits.toNat

/-- R118: the length of the destination capacity range of a command; a command that writes no buffer has none. -/
def destLen (i : Instr) (l : Latched) : Nat :=
  match i with
  | .nop => 0
  | .fcount => 0
  | .build => 0
  | .gencode => 0
  | .encode => l.dstCap.toNat
  | .decode => l.dstCap.toNat

/-- R117: a range ends at or below the top of the data space, computed without wrap-around. -/
def rangeOK (a len : Nat) : Bool := decide (a + len ≤ Config.dataSpace)

/-- R118: two non-empty ranges share a byte. -/
def overlap (a la b lb : Nat) : Bool := decide (0 < la ∧ 0 < lb ∧ a < b + lb ∧ b < a + la)

/-- `x` is one of the `len` addresses from `a`. -/
def inRange (x a len : Nat) : Bool := decide (a ≤ x ∧ x < a + len)

/-- R36: the command a phase belongs to; an illegal word is none of the six. -/
def runningInstr (r : Run) : Option Instr :=
  match r with
  | .idle => none
  | .start i => some i
  | .illegal _ => none
  | .fcount => some .fcount
  | .build _ _ => some .build
  | .gencode _ => some .gencode
  | .encode _ _ _ => some .encode
  | .decode _ _ => some .decode

/-- R74: `x` is in the source range of the running command. -/
def inSource (s : State) (x : Nat) : Bool :=
  match runningInstr s.run with
  | some i => inRange x s.lat.srcAddr.toNat (sourceLen i s.lat)
  | none => false

/-- R74: `x` is in the destination range of the running command. -/
def inDest (s : State) (x : Nat) : Bool :=
  match runningInstr s.run with
  | some i => inRange x s.lat.dstAddr.toNat (destLen i s.lat)
  | none => false

/-- R39: the offset of CTRL. -/
def offCTRL : Nat := 0x004

/-- R9, R131: the alphabet index of a data byte. -/
def symIndex (b : Byte) : Nat := (b ^^^ 0x80#8).toNat

/-- R9, R194: the data byte that stands for an alphabet index. -/
def symByte (i : Nat) : Byte := BitVec.ofNat 8 i ^^^ 0x80#8

end Sys2Proof.Machine
end

