-- ==== Sys2Proof/Machine/Ops.lean ====
section
/-! DEFINITION. The shared operations: data memory and the arrays, free values, the engine's data accesses
(spec/20_memory.md R64 to R67, R74, R77), acceptance, completion and raising an error (spec/40_command.md R111, R114;
spec/60_exceptions.md R214), and the reset state (spec/10_state.md R50). -/

namespace Sys2Proof.Machine

/-- The byte of data memory at an address. -/
def memRead : List Host.Cell → Nat → Byte
  | [], _ => Config.unwritten
  | (b, w) :: rest, a => if b = a then w else memRead rest a

/-- Writing a byte of data memory, in canonical form: addresses rising, no entry that reads as an unlisted address. -/
def memWrite : List Host.Cell → Nat → Byte → List Host.Cell
  | [], a, v => if v = Config.unwritten then [] else [(a, v)]
  | (b, w) :: rest, a, v =>
    if b < a then (b, w) :: memWrite rest a v
    else if b = a then (if v = Config.unwritten then rest else (a, v) :: rest)
    else if v = Config.unwritten then (b, w) :: rest else (a, v) :: (b, w) :: rest

/-- The canonical form of data memory, inside the data space of R64. -/
abbrev memWf (m : List Host.Cell) : Prop :=
  m.Pairwise (fun c d => c.1 < d.1) ∧ ∀ c ∈ m, c.2 ≠ Config.unwritten ∧ c.1 < Config.dataSpace

/-- R40: `FREQ[i]`. -/
def freqAt (s : State) (i : Nat) : Word := (s.freq[i]?).getD 0

/-- R41: node `n` of a node table. -/
def nodeAt (nodes : Vector Node 511) (n : Nat) : Node := (nodes[n]?).getD Node.blank

/-- R44: `CODE[i]`. -/
def codeAt (s : State) (i : Nat) : List Bool := (s.codes[i]?).getD []

/-- R66: what the data map puts at an address. -/
def kindAt (p : Platform) (a : Nat) : Kind :=
  match p.dataMap.find? (fun r => inRange a r.base r.len) with
  | some r => r.kind
  | none => .memory

/-- The kinds whose byte data memory holds. DESIGN CHOICE (assumption 25, safe): an address whose engine accesses never get
a response (`silent`) holds no byte, so a write in flight there at a reset lands nowhere, the host's stores there are
ignored and its loads are free bytes. -/
def holdsByte : Kind → Bool
  | .memory => true
  | .readError => true
  | .writeError => true
  | .hole => false
  | .device => false
  | .silent => false

/-- A set of addresses with `a` added. -/
def addAddr (a : Nat) (l : List Nat) : List Nat := if l.contains a then l else a :: l

/-- This action of the host writes the byte at `a`. -/
def storesTo (a : Nat) : HostAct → Bool
  | .store b _ => b == a
  | _ => false

/-- This action of the host need not wait for the engine. -/
def mayArriveBusy (i : Input) : Bool :=
  match i.due with
  | .after _ => true
  | .during _ => true
  | .wait => false
  | .waitOk => false

/-- The host's action stores to a byte of the running command's source range. -/
def storesToSource (s : State) : HostAct → Bool
  | .store a _ => inSource s a
  | _ => false

/-- R121: the running command may never end: its source or destination range meets one that never answers. -/
def mayStall (s : State) : Bool :=
  match runningInstr s.run with
  | some i =>
    s.platform.dataMap.any (fun r => r.kind == .silent &&
      (overlap r.base r.len s.lat.srcAddr.toNat (sourceLen i s.lat)
        || overlap r.base r.len s.lat.dstAddr.toNat (destLen i s.lat)))
  | none => false

/-- This action of the host comes while the running command still runs. A store to the source range of a command that may
never end is one: it could not come after it. DESIGN CHOICE (assumption 8, safe). -/
def comesDuring (s : State) (i : Input) : Bool :=
  match i.due with
  | .during _ => true
  | .after _ => storesToSource s i.act && mayStall s
  | .wait => false
  | .waitOk => false

/-- R240, R241: this action of the host resets the engine. -/
def resetsEngine (p : Platform) : HostAct → Bool
  | .resetLow => true
  | .write addr [b0, _, _, _] => addr == p.hufeBase + offCTRL && b0.getLsbD 1
  | _ => false

/-- One of the host's actions to come is due while the running command still runs: it stands before any that waits for
the command and before any that would follow a reset of the engine. -/
def duringAhead (s : State) : List Input → Bool
  | [] => false
  | i :: rest => mayArriveBusy i && (comesDuring s i || (!resetsEngine s.platform i.act && duringAhead s rest))

/-- R74: the host writes the byte at `a` while the command still runs: such a store is ahead, and it is due during the
command or stands before an action that is. DESIGN CHOICE (assumption 8, safe): each read of that byte, those before the
store included, is any byte, also where the command never ends. -/
def storeAhead (s : State) : List Input → Nat → Bool
  | [], _ => false
  | i :: rest, a =>
    duringAhead s (i :: rest) && (storesTo a i.act || (!resetsEngine s.platform i.act && storeAhead s rest a))

/-- R74, R77: an engine read of the byte at `a` is not promised the byte in memory. -/
def clouded (s : State) (a : Nat) : Bool :=
  s.racedSrc.contains a || storeAhead s s.inputs a || (!s.platform.coherent && s.unclean.contains a)

/-- R67: the engine issues a data access. -/
def logged (x : Access) (s : State) : State := { s with accesses := x :: s.accesses }

/-- A free value is drawn. -/
def drawn (s : State) : State := { s with draws := s.draws + 1 }

/-- The engine's write of a byte reaches data memory; until the host invalidates it, the host's caches may hold an older
byte when the master port is not coherent (R77). DESIGN CHOICE (assumption 10, safe). The host has not yet read DONE = 1
since (R72). -/
def stored (a : Nat) (v : Byte) (s : State) : State :=
  { s with
    mem := memWrite s.mem a v
    hostStale := if s.platform.coherent then s.hostStale else addAddr a s.hostStale
    unseen := addAddr a s.unseen }

/-- R74: bytes of the destination range the host wrote while the command ran become any byte. DESIGN CHOICE (assumption 9,
safe): this happens when the command ends. -/
def scrambled : List Nat → List Host.Cell → Nat → List Host.Cell
  | [], m, _ => m
  | a :: as, m, n => scrambled as (memWrite m a (Config.freeByte n)) (n + 1)

/-- R48: the end of a command discards its hidden state, and R74 settles the bytes that raced. -/
def endCommand (s : State) : State :=
  { s with
    run := .idle
    lat := Latched.reset
    racedSrc := []
    racedDst := []
    unclean := []
    mem := scrambled s.racedDst s.mem s.draws
    draws := s.draws + s.racedDst.length }

/-- R114: completion without error. -/
def complete (s : State) : State := { endCommand s with done := true }

/-- R214: raising an error, the only way an exception is taken: the error's number and value are saved, ERR and DONE are
set and the command ends. There is no mode, mask, stack or vector, and no return from it (R216). -/
def raiseError (e : ErrorCode) (info : Word) (s : State) : State :=
  { endCommand s with errInfo := info, errcode := errorNumber e, err := true, done := true }

/-- R111: acceptance of word `c`, whose first phase is `first`. What the host has not cleaned by now stays unpromised for
the whole command (R77). -/
def accept (c : Word) (first : Run) (s : State) : State :=
  { s with
    lastcmd := c.extractLsb' 0 8
    done := false
    err := false
    errcode := 0
    errInfo := 0
    outCount := 0
    outBits := 0
    lat := latch s.params
    treeValid := treeAfterAccept c s.treeValid
    codesValid := codesAfterAccept c s.treeValid s.codesValid
    racedSrc := []
    racedDst := []
    unclean := s.hostDirty
    run := first }

/-- R115: a CMD write while BUSY is dropped. -/
def dropCommand (s : State) : State := { s with cmdovr := true }

/-- R50, R241: every register, array and flag of the engine at its reset value, the running command ended; what is
outside the engine (data memory, the platform, the host) is kept. A host with a coherent port then sees what stayed
written (R242); without one it is promised nothing before its next read of DONE = 1 (R77). DEDUCED (assumption 26,
safe). -/
def resetRegisters (s : State) : State :=
  { endCommand s with
    ie := false
    done := false
    err := false
    treeValid := false
    codesValid := false
    cmdovr := false
    errcode := 0
    lastcmd := 0
    params := Params.reset
    outCount := 0
    outBits := 0
    errInfo := 0
    freq := Vector.replicate 256 0
    nodes := Vector.replicate 511 Node.blank
    codes := Vector.replicate 256 []
    unseen := if s.platform.coherent then [] else s.unseen }

/-- What the running command does in its next step. -/
inductive Move where
  /-- Nothing: no command runs, or the running one can never go on. -/
  | rest
  /-- A step without a data access. -/
  | advance (t : State)
  /-- Reads the byte at `a` in state `t` and goes on with it. -/
  | read (t : State) (a : Nat) (k : State → Byte → State)
  /-- Writes `v` at `a` in state `t` and goes on. -/
  | write (t : State) (a : Nat) (v : Byte) (k : State → State)

/-- R65: the response to `MemRead(a, 1)`: a byte, with which the command goes on, or BUS_ERROR; or none, ever (R121). A
raced or unsynchronised byte, and what a device answers, is any byte (R74, R77, R66). -/
def respondRead (t : State) (a : Nat) (k : State → Byte → State) : Option State :=
  let u := logged (.read a) t
  match kindAt t.platform a with
  | .silent => none
  | .hole => some (raiseError .busError (BitVec.ofNat 32 a) u)
  | .readError => some (raiseError .busError (BitVec.ofNat 32 a) u)
  | .device => some (k (drawn u) (Config.freeByte u.draws))
  | .memory =>
    if clouded t a then some (k (drawn u) (Config.freeByte u.draws)) else some (k u (memRead t.mem a))
  | .writeError =>
    if clouded t a then some (k (drawn u) (Config.freeByte u.draws)) else some (k u (memRead t.mem a))

/-- R65: the response to `MemWrite(a, 1, v)`: the command goes on, or BUS_ERROR; or none, ever (R121). A write that got
an error response leaves any byte. -/
def respondWrite (t : State) (a : Nat) (v : Byte) (k : State → State) : Option State :=
  let u := logged (.write a v) t
  match kindAt t.platform a with
  | .silent => none
  | .hole => some (raiseError .busError (BitVec.ofNat 32 a) u)
  | .writeError =>
    some (raiseError .busError (BitVec.ofNat 32 a) (drawn (stored a (Config.freeByte u.draws) u)))
  | .device => some (k u)
  | .memory => some (k (stored a v u))
  | .readError => some (k (stored a v u))

end Sys2Proof.Machine
end

