-- ==== Sys2Proof/Machine/Build.lean ====
section
/-! DEFINITION. BUILD, the priority structure and the tree builder (spec/42_tree_builder.md R140 to R150). -/

namespace Sys2Proof.Machine

/-- R141, R142: the order of the priority structure, by weight and then by node index. -/
def keyBefore (x y : Key) : Bool :=
  decide (x.weight.toNat < y.weight.toNat ∨ (x.weight.toNat = y.weight.toNat ∧ x.node < y.node))

/-- R141 `ExtractMin`: the member of least key, and the active set without it; an empty set gives none. -/
def extractMin : List Key → Option (Key × List Key)
  | [] => none
  | x :: rest =>
    match extractMin rest with
    | none => some (x, [])
    | some (m, others) => if keyBefore x m then some (x, rest) else some (m, x :: others)

/-- R140: leaf `n` before the merges, with the weight `FREQ[n]`. -/
def leafNode (w : Word) : Node :=
  { weight := w, left := Config.noNode, right := Config.noNode, parent := Config.noNode }

/-- R140: the node table with the 256 leaves written from the frequency table. -/
@[irreducible] def withLeaves (freq : Vector Word 256) (nodes : Vector Node 511) : Vector Node 511 :=
  Vector.ofFn (fun n => if n.val < 256 then leafNode ((freq[n.val]?).getD 0) else nodeAt nodes n.val)

/-- R140: the active set of the 256 leaves. -/
def leafKeys (freq : Vector Word 256) : List Key :=
  (List.range 256).map (fun n => { weight := (freq[n]?).getD 0, node := n })

/-- R140: node `n` with its parent index set. -/
def setParent (nodes : Vector Node 511) (n : Nat) (p : Link) : Vector Node 511 :=
  nodes.setIfInBounds n { nodeAt nodes n with parent := p }

/-- R140, R143, R144: the merge that makes node `n` from `a`, taken first and so on the left, and `b`. -/
def mergeInto (nodes : Vector Node 511) (n : Nat) (a b : Key) : Vector Node 511 :=
  let made : Node :=
    { weight := (nodeAt nodes a.node).weight + (nodeAt nodes b.node).weight
      left := BitVec.ofNat 9 a.node
      right := BitVec.ofNat 9 b.node
      parent := Config.noNode }
  setParent (setParent (nodes.setIfInBounds n made) a.node (BitVec.ofNat 9 n)) b.node (BitVec.ofNat 9 n)

/-- R140: merge `k` on a node table and its active set: the two least members are merged into node `256 + k`, which joins
the active set. An active set of fewer than two nodes gives none; R141 says it does not arise. -/
def mergeOnce (k : Nat) (nodes : Vector Node 511) (active : List Key) : Option (Vector Node 511 × List Key) :=
  match extractMin active with
  | none => none
  | some (a, rest) =>
    match extractMin rest with
    | none => none
    | some (b, others) =>
      let n := 256 + k
      let made := mergeInto nodes n a b
      some (made, { weight := (nodeAt made n).weight, node := n } :: others)

/-- R140: the leaves are written and every leaf is active. -/
def enterBuild (s : State) : State :=
  { s with nodes := withLeaves s.freq s.nodes, run := .build (leafKeys s.freq) 0 }

/-- R140: the 255 merges, then TREE_VALID. -/
def moveBuild (active : List Key) (k : Nat) (s : State) : Move :=
  if k < 255 then
    match mergeOnce k s.nodes active with
    | some (nodes, active') => .advance { s with nodes := nodes, run := .build active' (k + 1) }
    | none => .rest
  else .advance (complete { s with treeValid := true })

end Sys2Proof.Machine
end

