-- ==== Sys2Proof/Machine/Checks.lean ====
section
/-! DEFINITION. The checks a command runs after its acceptance, in the order of spec/40_command.md R119. -/

namespace Sys2Proof.Machine

/-- R119 step 2: the state precondition of the command. -/
def checkState (i : Instr) (s : State) : Option ErrorCode :=
  match i with
  | .nop => none
  | .fcount => none
  | .build => none
  | .gencode => if s.treeValid then none else some .noTree
  | .encode => if s.codesValid then none else some .noCodes
  | .decode => if s.treeValid then none else some .noTree

/-- R119 step 6: DECODE's destination holds one byte per symbol. -/
def capacityOK (i : Instr) (l : Latched) : Bool :=
  match i with
  | .nop => true
  | .fcount => true
  | .build => true
  | .gencode => true
  | .encode => true
  | .decode => decide (l.symCount.toNat ≤ l.dstCap.toNat)

/-- R119: the first check that fails, with its ERR_INFO (R210). A command without a source or a destination has an empty
range there, which passes. -/
def firstFailure (i : Instr) (s : State) : Option (ErrorCode × Word) :=
  match checkState i s with
  | some e => some (e, 0)
  | none =>
    if !rangeOK s.lat.srcAddr.toNat (sourceLen i s.lat) then some (.addrRange, 0)
    else if !rangeOK s.lat.dstAddr.toNat (destLen i s.lat) then some (.addrRange, 1)
    else if overlap s.lat.srcAddr.toNat (sourceLen i s.lat) s.lat.dstAddr.toNat (destLen i s.lat) then some (.overlap, 0)
    else if !capacityOK i s.lat then some (.dstOverflow, s.lat.dstCap)
    else none

end Sys2Proof.Machine
end

