-- ==== Sys2Proof/Machine/Decoder.lean ====
section
/-! DEFINITION. DECODE, the tree-walking bit decoder (spec/45_decoder.md R190 to R201). -/

namespace Sys2Proof.Machine

/-- R190: DECODE begins with no symbol, `pos = 0` and `cur = 0`. -/
def enterDecode (s : State) : State := { s with run := .decode none 0 }

/-- R192: bit `pos` of the stream is bit `7 - (pos mod 8)` of the current byte. -/
def streamBit (cur : Byte) (pos : Nat) : Bool := cur.getLsbD (7 - pos % 8)

/-- R191: the left child on bit 0, the right child on bit 1. -/
def childOf (nodes : Vector Node 511) (n : Nat) (b : Bool) : Nat :=
  if b then (nodeAt nodes n).right.toNat else (nodeAt nodes n).left.toNat

/-- R190: one bit of the current byte is consumed at node `n`. -/
def consumeBit (n : Nat) (s : State) (cur : Byte) : State :=
  { s with
    outBits := s.outBits + 1
    run := .decode (some (childOf s.nodes n (streamBit cur s.outBits.toNat))) cur }

/-- R190: a symbol has been written. -/
def symbolDone (cur : Byte) (s : State) : State :=
  { s with outCount := s.outCount + 1, run := .decode none cur }

/-- R190: the stop rule (R193) between symbols; at an internal node one bit, read with its byte when it is that byte's
first (R192), or TRUNCATED (R196); at a leaf its byte is written (R194). -/
def moveDecode (walk : Option Nat) (cur : Byte) (s : State) : Move :=
  match walk with
  | none =>
    if s.outCount.toNat < s.lat.symCount.toNat then .advance { s with run := .decode (some Config.root) cur }
    else .advance (complete s)
  | some n =>
    if 256 ≤ n then
      if s.outBits = s.lat.inBits then .advance (raiseError .truncated 0 s)
      else if s.outBits.toNat % 8 = 0 then
        .read s (s.lat.srcAddr.toNat + s.outBits.toNat / 8) (consumeBit n)
      else .advance (consumeBit n s cur)
    else .write s (s.lat.dstAddr.toNat + s.outCount.toNat) (symByte n) (symbolDone cur)

end Sys2Proof.Machine
end

