-- ==== Sys2Proof/Machine/Encode.lean ====
section
/-! DEFINITION. ENCODE, the bit encoder (spec/44_encoder.md R170 to R178). -/

namespace Sys2Proof.Machine

/-- R170, R171: `acc[7 - (pos mod 8)] <- b`. -/
def setStreamBit (acc : Byte) (pos : Nat) (b : Bool) : Byte :=
  let mask : Byte := 1#8 <<< (7 - pos % 8)
  if b then acc ||| mask else acc &&& ~~~mask

/-- R170: ENCODE begins with no byte read, `pos = 0` and `acc = 0`. -/
def enterEncode (s : State) : State := { s with run := .encode 0 0 [] }

/-- R170 `EmitByte`: the output byte is written at offset OUT_COUNT, unless DST_CAP bytes have been written (R174). -/
def emitByte (acc : Byte) (s : State) (k : State → State) : Move :=
  if s.lat.dstCap.toNat ≤ s.outCount.toNat then .advance (raiseError .dstOverflow s.lat.dstCap s)
  else
    .write s (s.lat.dstAddr.toNat + s.outCount.toNat) acc (fun t => k { t with outCount := t.outCount + 1 })

/-- R170: the code of source byte `r` is to be appended. -/
def takeSource (k : Nat) (acc : Byte) (s : State) (r : Byte) : State :=
  { s with run := .encode (k + 1) acc (codeAt s (symIndex r)) }

/-- R170: one bit is appended, or the next source byte is read, or the last byte is padded and written (R172). The bit
cursor `pos` is OUT_BITS. -/
def moveEncode (k : Nat) (acc : Byte) (code : List Bool) (s : State) : Move :=
  let pos := s.outBits.toNat
  match code with
  | b :: rest =>
    let acc' := setStreamBit acc pos b
    let s' := { s with outBits := s.outBits + 1 }
    if (pos + 1) % 8 = 0 then emitByte acc' s' (fun t => { t with run := .encode k 0 rest })
    else .advance { s' with run := .encode k acc' rest }
  | [] =>
    if k < s.lat.srcLen.toNat then .read s (s.lat.srcAddr.toNat + k) (takeSource k acc)
    else if pos % 8 ≠ 0 then emitByte acc s complete
    else .advance (complete s)

end Sys2Proof.Machine
end

