-- ==== Sys2Proof/Machine/Fcount.lean ====
section
/-! DEFINITION. FCOUNT, the frequency counter (spec/41_frequency.md R130 to R135). -/

namespace Sys2Proof.Machine

/-- R130: FCOUNT starts from a table of zeros (R135: there is no accumulate mode). -/
def enterFcount (s : State) : State := { s with freq := Vector.replicate 256 0, run := .fcount }

/-- R130, R131: byte `r` counts in `FREQ[r ^ 0x80]`, and OUT_COUNT counts the bytes. -/
def countByte (s : State) (r : Byte) : State :=
  { s with
    freq := s.freq.setIfInBounds (symIndex r) (freqAt s (symIndex r) + 1)
    outCount := s.outCount + 1 }

/-- R130: the counting loop, with `k` in OUT_COUNT. -/
def moveFcount (s : State) : Move :=
  if s.outCount.toNat < s.lat.srcLen.toNat then
    .read s (s.lat.srcAddr.toNat + s.outCount.toNat) countByte
  else .advance (complete s)

end Sys2Proof.Machine
end

