-- ==== Sys2Proof/Machine/Gencode.lean ====
section
/-! DEFINITION. GENCODE, the code-table generator (spec/43_code_table.md R160 to R167). -/

namespace Sys2Proof.Machine

/-- R160, R162: the walk along the parent links from node `n` to the root. `suffix` is the code read so far from `n`
down; each step puts its bit in front, which is the pseudocode's append and final reversal. A walk that has not ended
after `fuel` nodes gives none. -/
def codeUp (nodes : Vector Node 511) : Nat → Nat → List Bool → Option (List Bool)
  | 0, _, _ => none
  | fuel + 1, n, suffix =>
    let p := (nodeAt nodes n).parent
    if p = Config.noNode then some suffix
    else
      let b := !((nodeAt nodes p.toNat).left == BitVec.ofNat 9 n)
      codeUp nodes fuel p.toNat (b :: suffix)

/-- R160: the code of leaf `i`; 511 nodes are enough for every walk that ends. -/
def leafCode (nodes : Vector Node 511) (i : Nat) : Option (List Bool) := codeUp nodes 511 i []

/-- R160: GENCODE begins with leaf 0. -/
def enterGencode (s : State) : State := { s with run := .gencode 0 }

/-- R160: one leaf's code after another, then CODES_VALID. A walk that never ends is never left: the command stays
BUSY; R43 says it does not arise. DEDUCED (assumption 19, safe). -/
def moveGencode (leaf : Nat) (s : State) : Move :=
  if leaf < 256 then
    match leafCode s.nodes leaf with
    | some code => .advance { s with codes := s.codes.setIfInBounds leaf code, run := .gencode (leaf + 1) }
    | none => .rest
  else .advance (complete { s with codesValid := true })

end Sys2Proof.Machine
end

