-- ==== Sys2Proof/Machine/Engine.lean ====
section
/-! DEFINITION. The engine (spec/40_command.md R111 to R121): the steps of the running command, how many of them fall
before the host's next action, the issue of a command, and reset (spec/70_reset_and_hazards.md R240 to R242). -/

namespace Sys2Proof.Machine

/-- R119: the main pseudocode of a command that passed its checks. NOP has none (R120). -/
def enterMain (i : Instr) (s : State) : State :=
  match i with
  | .nop => complete s
  | .fcount => enterFcount s
  | .build => enterBuild s
  | .gencode => enterGencode s
  | .encode => enterEncode s
  | .decode => enterDecode s

/-- R113, R119: the checks, and then the command's own pseudocode. -/
def moveStart (i : Instr) (s : State) : Move :=
  match firstFailure i s with
  | some (e, info) => .advance (raiseError e info s)
  | none => .advance (enterMain i s)

/-- R113: what the running command does in its next step. -/
def move (s : State) : Move :=
  match s.run with
  | .idle => .rest
  | .start i => moveStart i s
  | .illegal w => .advance (raiseError .illegalCmd w s)
  | .fcount => moveFcount s
  | .build active k => moveBuild active k s
  | .gencode leaf => moveGencode leaf s
  | .encode k acc code => moveEncode k acc code s
  | .decode walk cur => moveDecode walk cur s

/-- One atomic step of the engine (R221), with at most one data access (R67). DESIGN CHOICE (assumption 6, safe): where the
steps fall. None where the engine takes no step: it is
idle, or a data access never gets its response (R121). -/
def engineStep (s : State) : Option State :=
  match move s with
  | .rest => none
  | .advance t => some t
  | .read t a k => respondRead t a k
  | .write t a v k => respondWrite t a v k

/-- At most `n` steps of the engine. -/
def runEngine : Nat → State → State
  | 0, s => s
  | n + 1, s =>
    match engineStep s with
    | none => s
    | some t => runEngine n t

/-- The length of the longest code in the code table. -/
def longestCode (s : State) : Nat := s.codes.toList.foldl (fun m c => max m c.length) 0

/-- R121: a bound on the steps of a command from its start. -/
def commandBound (i : Instr) (s : State) : Nat :=
  match i with
  | .nop => 1
  | .fcount => s.lat.srcLen.toNat + 2
  | .build => 257
  | .gencode => 258
  | .encode => s.lat.srcLen.toNat * (longestCode s + 1) + 2
  | .decode => s.lat.inBits.toNat + 2 * s.lat.symCount.toNat + 2

/-- R121: a bound on the steps the running command can still take. -/
def stepBound (s : State) : Nat :=
  match s.run with
  | .encode _ _ code => commandBound .encode s + code.length
  | .illegal _ => 1
  | _ =>
    match runningInstr s.run with
    | some i => commandBound i s
    | none => 0

/-- As `runEngine`, but short of the step that would end the command. -/
def runHeld : Nat → State → State
  | 0, s => s
  | n + 1, s =>
    match engineStep s with
    | none => s
    | some t => if busy t then runHeld n t else s

/-- How many steps the engine may take before the host's next action: as many as it has, unless that action is set to
arrive sooner. R256 fixes no duration. DESIGN CHOICE (assumption 5, safe). A store to the source range that is not due
while the command runs comes after it, which then has an end (assumption 8). -/
def engineWindow (s : State) : Nat :=
  match s.inputs with
  | [] => stepBound s
  | i :: _ =>
    match i.due with
    | .after n => if storesToSource s i.act && !duringAhead s s.inputs then stepBound s else n
    | .during n => n
    | .wait => stepBound s
    | .waitOk => stepBound s

/-- The engine's steps up to the host's next action; the running command does not end before an action that is due while
it runs. -/
def settle (s : State) : State :=
  if duringAhead s s.inputs then runHeld (engineWindow s) s else runEngine (engineWindow s) s

/-- A CMD write of word `c` (R31): accepted while idle (R111), and the command runs up to the host's next action; dropped
while BUSY (R115); without effect while `rst_n` is low (R240). -/
def issue (c : Word) (first : Run) (s : State) : State :=
  if s.rstLow then s
  else if busy s then settle (dropCommand s)
  else settle (accept c first s)

/-- R116: the acceptance of a word that is not one of R91's six. -/
def issueIllegal (w : Word) (s : State) : State := issue w (.illegal w) s

/-- R242: a write of the running command that was in flight when a reset came; it was performed, or not. DEDUCED
(assumption 11, safe): it is the write of the next step. -/
def flightLanded (s : State) : State :=
  match move s with
  | .write _ a v _ =>
    if holdsByte (kindAt s.platform a) then
      if Config.freeBit s.draws then drawn (stored a v (logged (.write a v) s)) else drawn s
    else s
  | _ => s

/-- R240, R241, R242: a reset, hardware or soft, while idle or BUSY. -/
def resetEngine (s : State) : State := resetRegisters (flightLanded s)

end Sys2Proof.Machine
end

