-- ==== Sys2Proof/Machine/Commands.lean ====
section
/-! DEFINITION. The meanings of the six commands: the host's write of the command's word to CMD (spec/40_command.md R111
to R119). While the engine is idle the command is accepted and runs, one atomic step after another, to its completion
or error, or up to the host's next action where that is set to arrive sooner. What each step does is in Fcount.lean,
Build.lean, Gencode.lean, Encode.lean and Decoder.lean. -/

namespace Sys2Proof.Machine

/-- R120: NOP. -/
def execNop (s : State) : Host.Outcome State Fault Refusal := .next (issue 0x00000000#32 (.start .nop) s)

/-- R130: FCOUNT. -/
def execFcount (s : State) : Host.Outcome State Fault Refusal := .next (issue 0x00000001#32 (.start .fcount) s)

/-- R140: BUILD. -/
def execBuild (s : State) : Host.Outcome State Fault Refusal := .next (issue 0x00000002#32 (.start .build) s)

/-- R160: GENCODE. -/
def execGencode (s : State) : Host.Outcome State Fault Refusal := .next (issue 0x00000003#32 (.start .gencode) s)

/-- R170: ENCODE. -/
def execEncode (s : State) : Host.Outcome State Fault Refusal := .next (issue 0x00000004#32 (.start .encode) s)

/-- R190: DECODE. -/
def execDecode (s : State) : Host.Outcome State Fault Refusal := .next (issue 0x00000005#32 (.start .decode) s)

end Sys2Proof.Machine
end

