-- ==== Sys2Proof/Machine/Registers.lean ====
section
/-! DEFINITION. The register map and the windows (spec/10_state.md R21 to R47): what a 32-bit read at an offset returns
and what a 32-bit write does. -/

namespace Sys2Proof.Machine

/-- R39: the offsets of the registers (that of CTRL is in Operands.lean). -/
def offID : Nat := 0x000
def offSTATUS : Nat := 0x008
def offCMD : Nat := 0x00C
def offSRC_ADDR : Nat := 0x010
def offSRC_LEN : Nat := 0x014
def offDST_ADDR : Nat := 0x018
def offDST_CAP : Nat := 0x01C
def offSYM_COUNT : Nat := 0x020
def offIN_BITS_LO : Nat := 0x024
def offIN_BITS_HI : Nat := 0x028
def offOUT_COUNT : Nat := 0x02C
def offOUT_BITS_LO : Nat := 0x030
def offOUT_BITS_HI : Nat := 0x034
def offERR_INFO : Nat := 0x038

/-- R39, R40: the FREQ window, `FREQ[i]` at `0x400 + 4*i`. -/
def inFreqWindow (off : Nat) : Bool := inRange off 0x400 0x400

/-- R39, R42: the NODE window, node `n` at `0x1000 + 8*n` for n up to 510. -/
def inNodeWindow (off : Nat) : Bool := inRange off 0x1000 0xFF8

/-- R39, R45: the CODE window, symbol `i` at `0x4000 + 64*i`. -/
def inCodeWindow (off : Nat) : Bool := inRange off 0x4000 0x4000

/-- R21: the value of ID. -/
def idWord : Word := 0x48554631#32

/-- R42: the LINK word of node `n`. -/
def linkWord (n : Nat) (e : Node) : Word :=
  BitVec.ofBool (decide (n < 256)) ++ 0#4 ++ e.parent ++ e.right ++ e.left

/-- R42: the NODE window's word at this distance from its start. -/
def nodeWord (s : State) (d : Nat) : Word :=
  let n := d / 8
  if d % 8 < 4 then (nodeAt s.nodes n).weight else linkWord n (nodeAt s.nodes n)

/-- Bits read as a number, the first one most significant. -/
def bitsToNat : List Bool → Nat → Nat
  | [], acc => acc
  | b :: rest, acc => bitsToNat rest (2 * acc + b.toNat)

/-- R45: CODEW[j], bit `31 - m` of which is bit `32*j + m` of the code, 0 past its end. -/
def codeWord (code : List Bool) (j : Nat) : Word :=
  let bits := (code.drop (32 * j)).take 32
  BitVec.ofNat 32 (bitsToNat bits 0 * 2 ^ (32 - bits.length))

/-- R45: the LEN word, the length in bits 7:0. -/
def lenWord (code : List Bool) : Word := 0#24 ++ BitVec.ofNat 8 code.length

/-- R45: the CODE window's word at this distance from its start. -/
def codeWindowWord (s : State) (d : Nat) : Word :=
  let code := codeAt s (d / 64)
  let r := d % 64
  if r < 4 then lenWord code else if r < 0x24 then codeWord code (r / 4 - 1) else 0

/-- R47: the offsets whose reads are unspecified while BUSY. -/
def resultOffset (off : Nat) : Bool :=
  off == offOUT_COUNT || off == offOUT_BITS_LO || off == offOUT_BITS_HI || off == offERR_INFO
    || inFreqWindow off || inNodeWindow off || inCodeWindow off

/-- R46, R47, R240: a read at this offset returns an unspecified value now. -/
def readUnspecified (s : State) (off : Nat) : Bool :=
  s.rstLow || (busy s && resultOffset off) || (!s.treeValid && inNodeWindow off)
    || (!s.codesValid && inCodeWindow off)

/-- R39: the word at an offset, where it is specified; a reserved offset and CMD read 0 (R31, R35). -/
def registerWord (s : State) (off : Nat) : Word :=
  if off = offID then idWord
  else if off = offCTRL then ctrlWord s
  else if off = offSTATUS then statusWord s
  else if off = offSRC_ADDR then s.params.srcAddr
  else if off = offSRC_LEN then s.params.srcLen
  else if off = offDST_ADDR then s.params.dstAddr
  else if off = offDST_CAP then s.params.dstCap
  else if off = offSYM_COUNT then s.params.symCount
  else if off = offIN_BITS_LO then s.params.inBitsLo
  else if off = offIN_BITS_HI then s.params.inBitsHi
  else if off = offOUT_COUNT then s.outCount
  else if off = offOUT_BITS_LO then s.outBits.extractLsb' 0 32
  else if off = offOUT_BITS_HI then s.outBits.extractLsb' 32 32
  else if off = offERR_INFO then s.errInfo
  else if inFreqWindow off then freqAt s ((off - 0x400) / 4)
  else if inNodeWindow off then nodeWord s (off - 0x1000)
  else if inCodeWindow off then codeWindowWord s (off - 0x4000)
  else 0

/-- A 32-bit read at an offset: the word, and the state after it, which differs only where a free value was drawn (R63:
no register read has a side effect). -/
def readRegister (s : State) (off : Nat) : Word × State :=
  if readUnspecified s off then (Config.freeWord s.draws, drawn s) else (registerWord s off, s)

/-- R22, R241: a write to CTRL: SRST with bit 1, and the IE bit only without it. -/
def writeCtrl (v : Word) (s : State) : State :=
  if v.getLsbD 1 then resetEngine s else { s with ie := v.getLsbD 0 }

/-- R39: a 32-bit write at an offset other than CMD; a read-only or reserved offset ignores it (R35), and while `rst_n`
is low no write has an effect (R240). -/
def writeRegister (off : Nat) (v : Word) (s : State) : State :=
  if s.rstLow then s
  else if off = offCTRL then writeCtrl v s
  else if off = offSTATUS then writeStatus v s
  else if off = offSRC_ADDR then { s with params := { s.params with srcAddr := v } }
  else if off = offSRC_LEN then { s with params := { s.params with srcLen := v } }
  else if off = offDST_ADDR then { s with params := { s.params with dstAddr := v } }
  else if off = offDST_CAP then { s with params := { s.params with dstCap := v } }
  else if off = offSYM_COUNT then { s with params := { s.params with symCount := v } }
  else if off = offIN_BITS_LO then { s with params := { s.params with inBitsLo := v } }
  else if off = offIN_BITS_HI then { s with params := { s.params with inBitsHi := v } }
  else s

end Sys2Proof.Machine
end

