-- ==== Sys2Proof/Machine/HostPort.lean ====
section
/-! DEFINITION. What the host's actions do (spec/20_memory.md R60 to R63, R70 to R77; spec/70_reset_and_hazards.md
R240): accesses on the register port, the host's own accesses to data memory and its cache maintenance, and the reset
pin. -/

namespace Sys2Proof.Machine

/-- The outcome of looking at the host's next action. -/
inductive Event where
  /-- No command word is issued; the state with the action done and the engine's steps up to the host's next one. -/
  | quiet (t : State)
  /-- The host writes these byte lanes to CMD. -/
  | command (lanes : List Byte) (t : State)

/-- R60: a host address falls in the register block. DESIGN CHOICE (assumption 15, safe): an access outside it changes
nothing here. -/
def claimed (p : Platform) (addr : Nat) : Bool := inRange addr p.hufeBase Config.blockSize

/-- R61: the register port takes only 32-bit accesses at offsets that are multiples of 4. -/
def portAccepts (off width : Nat) : Bool := width == 4 && off % 4 == 0

/-- R62: the value of four byte lanes. -/
def lanesValue (lanes : List Byte) : Word :=
  match lanes with
  | [b0, b1, b2, b3] => wordOfLanes b0 b1 b2 b3
  | _ => 0

/-- R39, R61, R63: a host write on the register port. A write to CMD is a command issue, not handled here. -/
def portWrite (addr : Nat) (lanes : List Byte) (s : State) : Event :=
  let off := addr - s.platform.hufeBase
  if !claimed s.platform addr then .quiet (settle { s with response := .none })
  else if !portAccepts off lanes.length then .quiet (settle { s with response := .busError })
  else if off = offCMD then .command lanes { s with response := .written }
  else .quiet (settle (writeRegister off (lanesValue lanes) { s with response := .written }))

/-- R72: the host has read STATUS; where that read returned DONE = 1 it may now count on what the engine has written. While
`rst_n` is low the word it reads is no DONE (R240). -/
def noteStatus (s : State) : State := { s with unseen := if !s.rstLow && s.done then [] else s.unseen }

/-- R72: the host has read the register at an offset. -/
def noteRead (off : Nat) (s : State) : State := if off = offSTATUS then noteStatus s else s

/-- R39, R61, R63: a host read on the register port. -/
def portRead (addr width : Nat) (s : State) : State :=
  let off := addr - s.platform.hufeBase
  if !claimed s.platform addr then { s with response := .none }
  else if !portAccepts off width then { s with response := .busError }
  else { noteRead off (readRegister s off).2 with response := .word (readRegister s off).1 }

/-- R71, R74, R77: the host writes a byte of data memory. While a command runs, a write in its source or destination
range races with it. DESIGN CHOICE (assumptions 13 and 14): what the host gets where no memory answers. -/
def hostStore (a : Nat) (v : Byte) (s : State) : State :=
  if Config.dataSpace ≤ a then { s with response := .busError }
  else if holdsByte (kindAt s.platform a) then
    { s with
      mem := memWrite s.mem a v
      racedSrc := if inSource s a then addAddr a s.racedSrc else s.racedSrc
      racedDst := if inDest s a then addAddr a s.racedDst else s.racedDst
      hostDirty := if s.platform.coherent then s.hostDirty else addAddr a s.hostDirty
      hostStale := s.hostStale.filter (fun b => b != a)
      unseen := s.unseen.filter (fun b => b != a)
      response := .written }
  else { s with response := .written }

/-- R72, R74, R77: a host read of the byte at `a` is not promised the byte in memory: it is in the destination range of a
running command, or the engine wrote it and the host has not read DONE = 1 since, or the host's caches were not
invalidated. -/
def loadClouded (s : State) (a : Nat) : Bool :=
  inDest s a || s.unseen.contains a || (!s.platform.coherent && s.hostStale.contains a) || !holdsByte (kindAt s.platform a)

/-- R72, R74: the host reads a byte of data memory. -/
def hostLoad (a : Nat) (s : State) : State :=
  if Config.dataSpace ≤ a then { s with response := .busError }
  else if loadClouded s a then { drawn s with response := .byte (Config.freeByte s.draws) }
  else { s with response := .byte (memRead s.mem a) }

/-- R77: the host cleans a range from its caches: R71 holds of these bytes for every later CMD write; a command that runs
already was promised nothing about them (`unclean`). Where the engine wrote a byte that the host's caches still held a
write of, the clean may put the host's byte over it. R74 does not say whether a write-back while BUSY is a host write:
DESIGN CHOICE (assumption 10, safe): one of a byte in the running command's destination range is, whether or not the
engine has written that byte yet, so the byte is free after the command's end. -/
def hostClean (a len : Nat) (s : State) : State :=
  let covered := s.hostDirty.filter (fun b => inRange b a len && s.hostStale.contains b)
  { s with
    mem := scrambled covered s.mem s.draws
    draws := s.draws + covered.length
    racedDst := s.hostDirty.filter (fun b => inRange b a len && inDest s b) ++ s.racedDst
    hostDirty := s.hostDirty.filter (fun b => !inRange b a len) }

/-- R77: the host invalidates a range in its caches. R72 needs this after the host's read of DONE = 1, so for the bytes the
engine has written since that read it does not count. A write of the host that its caches still held, and the engine has
not replaced, may be lost. -/
def hostInvalidate (a len : Nat) (s : State) : State :=
  let lost := s.hostDirty.filter (fun b => inRange b a len && !s.hostStale.contains b)
  { s with
    mem := scrambled lost s.mem s.draws
    draws := s.draws + lost.length
    hostDirty := s.hostDirty.filter (fun b => !inRange b a len)
    hostStale := s.hostStale.filter (fun b => !inRange b a len || s.unseen.contains b) }

/-- What an action of the host does. After it the engine takes its steps up to the host's next action. -/
def deliver (act : HostAct) (s : State) : Event :=
  match act with
  | .write addr lanes => portWrite addr lanes s
  | .read addr width => .quiet (settle (portRead addr width s))
  | .store a v => .quiet (settle (hostStore a v s))
  | .load a => .quiet (settle (hostLoad a s))
  | .clean a len => .quiet (settle (hostClean a len s))
  | .invalidate a len => .quiet (settle (hostInvalidate a len s))
  | .resetLow => .quiet { resetEngine s with rstLow := true }
  | .resetHigh => .quiet (settle { s with rstLow := false })

/-- R97: the host's own read of STATUS while it waits, and what it gets. DESIGN CHOICE (assumption 21, safe): one read a
step. -/
def pollStatus (s : State) : State :=
  { noteStatus (readRegister s offSTATUS).2 with response := .word (readRegister s offSTATUS).1 }

/-- The host's next action, when its time has come (R97): a host that waits reads STATUS and does nothing before DONE
reads 1; one that also checks ERR stops its program when that reads 1, with the STATUS word it then reports. With no
action to come the engine goes on alone. -/
def nextEvent (s : State) : Event :=
  let status := (readRegister s offSTATUS).1
  match s.inputs with
  | [] => .quiet (settle s)
  | i :: rest =>
    match i.due with
    | .after _ => deliver i.act { s with inputs := rest }
    | .during _ => deliver i.act { s with inputs := rest }
    | .wait =>
      if status.getLsbD 1 then deliver i.act { pollStatus s with inputs := rest } else .quiet (settle (pollStatus s))
    | .waitOk =>
      if status.getLsbD 1 then
        if status.getLsbD 2 then .quiet { pollStatus s with inputs := [] }
        else deliver i.act { pollStatus s with inputs := rest }
      else .quiet (settle (pollStatus s))

/-- The host address of CMD. -/
def cmdAddr (p : Platform) : Nat := p.hufeBase + offCMD

/-- R31, R240: the state in which the host's very next action writes these byte lanes to CMD, with `rst_n` high. -/
def withCmdWrite (lanes : List Byte) (s : State) : State :=
  { s with
    rstLow := false
    inputs := { due := .after 0, act := .write (cmdAddr s.platform) lanes } :: s.inputs }

/-- R31, R93: the command word as the register port received it. -/
def issuedWord (lanes : List Byte) : Word := lanesValue lanes

end Sys2Proof.Machine
end

