-- ==== Sys2Proof/Machine/Step.lean ====
section
/-! DEFINITION. One step of the machine: the host's next action arrives, and the engine then takes its atomic steps up
to the one after it (spec/20_memory.md R63; spec/60_exceptions.md R221). A command word the host writes to CMD is what
this machine fetches (R78). -/

namespace Sys2Proof.Machine

/-- R31, R111, R116: the word written to CMD is decoded and its command issued; an illegal word is issued as the command
that raises ILLEGAL_CMD. -/
def step (s : State) : Host.Outcome State Fault Refusal :=
  match nextEvent s with
  | .quiet t => .next t
  | .command lanes t =>
    match decodeLanes lanes with
    | .ok i => exec i t
    | .error _ => .next (issueIllegal (issuedWord lanes) t)

/-- The state in which the host's next action is the write to CMD of the instruction whose bits are `w`. -/
def State.withFetchWord (s : State) (nbits w : Nat) : State := withCmdWrite (tableLanes nbits w) s

end Sys2Proof.Machine
end

