-- ==== Sys2Proof/Machine/HostNotation.lean ====
section
/-! DEFINITION. The host notation of spec/30_encoding.md R95 to R98: lines of a host program, the pseudo-commands, and the
host actions they stand for. It describes the host; the engine executes none of it. -/

namespace Sys2Proof.Machine

/-- R95: the names a line can use. -/
inductive HostName where
  | ID
  | CTRL
  | STATUS
  | CMD
  | SRC_ADDR
  | SRC_LEN
  | DST_ADDR
  | DST_CAP
  | SYM_COUNT
  | IN_BITS_LO
  | IN_BITS_HI
  | OUT_COUNT
  | OUT_BITS_LO
  | OUT_BITS_HI
  | ERR_INFO
  /-- `FREQ[i]`. -/
  | FREQ (i : Nat)
  /-- `NODE[n].WEIGHT`. -/
  | WEIGHT (n : Nat)
  /-- `NODE[n].LINK`. -/
  | LINK (n : Nat)
  /-- `CODE[i].LEN`. -/
  | LEN (i : Nat)
  /-- `CODE[i].CODEW[j]`. -/
  | CODEW (i j : Nat)
  deriving DecidableEq, Repr

/-- R39, R42, R45, R95: `off(NAME)`. -/
def offsetOf : HostName → Nat
  | .ID => offID
  | .CTRL => offCTRL
  | .STATUS => offSTATUS
  | .CMD => offCMD
  | .SRC_ADDR => offSRC_ADDR
  | .SRC_LEN => offSRC_LEN
  | .DST_ADDR => offDST_ADDR
  | .DST_CAP => offDST_CAP
  | .SYM_COUNT => offSYM_COUNT
  | .IN_BITS_LO => offIN_BITS_LO
  | .IN_BITS_HI => offIN_BITS_HI
  | .OUT_COUNT => offOUT_COUNT
  | .OUT_BITS_LO => offOUT_BITS_LO
  | .OUT_BITS_HI => offOUT_BITS_HI
  | .ERR_INFO => offERR_INFO
  | .FREQ i => 0x400 + 4 * i
  | .WEIGHT n => 0x1000 + 8 * n
  | .LINK n => 0x1004 + 8 * n
  | .LEN i => 0x4000 + 64 * i
  | .CODEW i j => 0x4004 + 64 * i + 4 * j

/-- R95 to R97: one line of a host program. -/
inductive HostLine where
  | wr (name : HostName) (value : Word)
  | rd (name : HostName)
  | cmd (i : Instr)
  | cmdWord (w : Word)
  | wait
  | waitOk
  deriving DecidableEq, Repr

/-- R95, R96: the register access of a line; WAIT and WAITOK are no single access (R97). -/
def lineAct (base : Nat) : HostLine → Option HostAct
  | .wr name value => some (.write (base + offsetOf name) (lanesOfWord value))
  | .rd name => some (.read (base + offsetOf name) 4)
  | .cmd i => some (.write (base + offCMD) (lanesOfWord (encode i)))
  | .cmdWord w => some (.write (base + offCMD) (lanesOfWord w))
  | .wait => none
  | .waitOk => none

/-- R97: how the line after this one is held back. How many steps of the engine, `n`, fall between two lines is open (R256,
V12): DESIGN CHOICE (assumption 5, safe): it is given with the program, for every pair of lines. -/
def dueAfter (held : Due) (n : Nat) : HostLine → Due
  | .wr _ _ => .after n
  | .rd _ => .after n
  | .cmd _ => .after n
  | .cmdWord _ => .after n
  | .wait =>
    match held with
    | .waitOk => .waitOk
    | _ => .wait
  | .waitOk => .waitOk

/-- R97: a wait with no line after it: the host polls STATUS, and reads it once more when DONE is 1. -/
def lastWait (base : Nat) (held : Due) : List Input :=
  match held with
  | .after _ => []
  | .during _ => []
  | .wait => [{ due := held, act := .read (base + offSTATUS) 4 }]
  | .waitOk => [{ due := held, act := .read (base + offSTATUS) 4 }]

/-- The host actions of a host program, the first line held back as given; `gap k` engine steps fall before line `k`. -/
def hostActions (base : Nat) (gap : Nat → Nat) : Nat → Due → List HostLine → List Input
  | _, held, [] => lastWait base held
  | k, held, line :: rest =>
    let next := hostActions base gap (k + 1) (dueAfter held (gap (k + 1)) line) rest
    match lineAct base line with
    | some act => { due := held, act := act } :: next
    | none => next

/-- R98 COUNT. -/
def countLines (src len : Word) : List HostLine :=
  [.wr .SRC_ADDR src, .wr .SRC_LEN len, .cmd .fcount, .waitOk]

/-- R98 MKTREE. -/
def mktreeLines : List HostLine := [.cmd .build, .waitOk, .cmd .gencode, .waitOk]

/-- R98 PACK. -/
def packLines (src len dst cap : Word) : List HostLine :=
  [.wr .SRC_ADDR src, .wr .SRC_LEN len, .wr .DST_ADDR dst, .wr .DST_CAP cap, .cmd .encode, .waitOk]

/-- R98 COMPRESS. -/
def compressLines (src len dst cap : Word) : List HostLine :=
  countLines src len ++ mktreeLines ++ packLines src len dst cap

/-- R98 EXPAND. -/
def expandLines (src : Word) (bits : Quad) (dst cap count : Word) : List HostLine :=
  [.wr .SRC_ADDR src, .wr .IN_BITS_LO (bits.extractLsb' 0 32), .wr .IN_BITS_HI (bits.extractLsb' 32 32),
    .wr .DST_ADDR dst, .wr .DST_CAP cap, .wr .SYM_COUNT count, .cmd .decode, .waitOk]

/-- The state with a host program still to run, and how many engine steps fall before each of its lines. -/
def withProgram (gap : Nat → Nat) (lines : List HostLine) (s : State) : State :=
  { s with inputs := hostActions s.platform.hufeBase gap 0 (.after (gap 0)) lines }

end Sys2Proof.Machine
end

