-- ==== Sys2Proof/Safety.lean ====
section
/-! DEFINITION. The terms the statements use: when a command is issued without a disturbance, which bytes of data memory
answer plainly, the bit stream of a buffer, the tree of a frequency table (spec/42_tree_builder.md R140), the paths and
the shape of a tree (spec/10_state.md R43), and the invariant of the machine. -/

namespace Sys2Proof.Machine

/-- The host's next action waits for the command to complete, or there is none. -/
def undisturbed (s : State) : Bool :=
  match s.inputs with
  | [] => true
  | i :: _ => !mayArriveBusy i

/-- The engine is idle, `rst_n` is high, and the host leaves the next command alone. -/
def Ready (s : State) : Prop := s.rstLow = false ∧ s.run = .idle ∧ undisturbed s = true

/-- This action of the host writes a byte of data memory. -/
def isStore : HostAct → Bool
  | .store _ _ => true
  | _ => false

/-- The host's next action arrives before the engine's next step (one that is no store: where a store is not due while
the command runs, the command may have to end first). -/
def arrivesNow (s : State) : Bool :=
  match s.inputs with
  | [] => false
  | i :: _ => i.due == .during 0 || (i.due == .after 0 && !isStore i.act)

/-- The host's next action has come: nothing holds it back (R97). While `rst_n` is low a read of STATUS shows any value
(R240), so a wait is then not known to end. -/
def hasCome (due : Due) (s : State) : Bool :=
  match due with
  | .after _ => true
  | .during _ => true
  | .wait => !s.rstLow && s.done
  | .waitOk => !s.rstLow && s.done && !s.err

/-- R72, R97: a host whose action waited has read DONE = 1. -/
def awaited (due : Due) (s : State) : State :=
  { s with
    unseen :=
      match due with
      | .after _ => s.unseen
      | .during _ => s.unseen
      | .wait => []
      | .waitOk => [] }

/-- R65: an engine read at `a` gets the byte in memory, and the host's caches hold nothing newer (R77). -/
def plainRead (s : State) (a : Nat) : Prop :=
  (kindAt s.platform a = .memory ∨ kindAt s.platform a = .writeError) ∧ (s.platform.coherent = true ∨ a ∉ s.hostDirty)

/-- R65: an engine write at `a` is performed without error. -/
def plainWrite (s : State) (a : Nat) : Prop :=
  kindAt s.platform a = .memory ∨ kindAt s.platform a = .readError

/-- Every byte of the range is read plainly. -/
def PlainSource (s : State) (a len : Nat) : Prop := ∀ k < len, plainRead s (a + k)

/-- Every byte of the range is written plainly. -/
def PlainDest (s : State) (a len : Nat) : Prop := ∀ k < len, plainWrite s (a + k)

/-- R65: an engine read at `a` gets an error response. -/
def failsRead (s : State) (a : Nat) : Prop := kindAt s.platform a = .readError ∨ kindAt s.platform a = .hole

/-- R65: an engine write at `a` gets an error response. -/
def failsWrite (s : State) (a : Nat) : Prop := kindAt s.platform a = .writeError ∨ kindAt s.platform a = .hole

/-- The `len` bytes of data memory from `a`. -/
def bytesAt (m : List Host.Cell) (a len : Nat) : List Byte := (List.range len).map (fun k => memRead m (a + k))

/-- R171: the logical bit stream of a buffer, the codes of its bytes in order. -/
def codeStream (s : State) (bytes : List Byte) : List Bool := bytes.flatMap (fun b => codeAt s (symIndex b))

/-- R171, R192: bit `t` of the stream held in memory from `a`. -/
def memBit (m : List Host.Cell) (a t : Nat) : Bool := (memRead m (a + t / 8)).getLsbD (7 - t % 8)

/-- R131: how many bytes of a buffer count in entry `i`. -/
def occurrences (i : Nat) (bytes : List Byte) : Nat := (bytes.filter (fun b => symIndex b == i)).length

/-- The sum of the 256 counts, as a number. -/
def freqSum (freq : Vector Word 256) : Nat := (freq.toList.map BitVec.toNat).sum

/-- R140: the node table and the active set after `k` merges, from a frequency table and the table's old contents. -/
def treeAfter (freq : Vector Word 256) (old : Vector Node 511) : Nat → Option (Vector Node 511 × List Key)
  | 0 => some (withLeaves freq old, leafKeys freq)
  | k + 1 =>
    match treeAfter freq old k with
    | none => none
    | some (nodes, active) => mergeOnce k nodes active

/-- R140: this node table is what BUILD leaves for this frequency table. -/
def IsTreeOf (freq : Vector Word 256) (nodes : Vector Node 511) : Prop :=
  ∃ old active, treeAfter freq old 255 = some (nodes, active)

/-- R191: the node a sequence of bits leads to from node `n`. -/
def walkDown (nodes : Vector Node 511) (n : Nat) (bits : List Bool) : Nat := bits.foldl (childOf nodes) n

/-- R43: these bits lead from the root to node `n`, through internal nodes only. -/
def PathTo (nodes : Vector Node 511) (n : Nat) (bits : List Bool) : Prop :=
  walkDown nodes Config.root bits = n ∧ ∀ k < bits.length, 256 ≤ walkDown nodes Config.root (bits.take k)

/-- R43: the node invariants of a tree built from a frequency table. -/
structure TreeShape (freq : Vector Word 256) (nodes : Vector Node 511) : Prop where
  /-- A leaf has no children and the weight of its symbol. -/
  leaf : ∀ n < 256, (nodeAt nodes n).left = Config.noNode ∧ (nodeAt nodes n).right = Config.noNode ∧
    (nodeAt nodes n).weight = (freq[n]?).getD 0
  /-- An internal node has two distinct children, of smaller index, and the sum of their weights. -/
  internal : ∀ n, 256 ≤ n → n ≤ Config.root →
    (nodeAt nodes n).left ≠ (nodeAt nodes n).right ∧ (nodeAt nodes n).left.toNat < n ∧ (nodeAt nodes n).right.toNat < n ∧
    (nodeAt nodes n).weight =
      (nodeAt nodes (nodeAt nodes n).left.toNat).weight + (nodeAt nodes (nodeAt nodes n).right.toNat).weight
  /-- The root has no parent. -/
  rootParent : (nodeAt nodes Config.root).parent = Config.noNode
  /-- The parent of every other node is the one node that has it as a child. -/
  parent : ∀ n < Config.root, ∀ p, 256 ≤ p → p ≤ Config.root →
    ((nodeAt nodes n).parent.toNat = p ↔ (nodeAt nodes p).left.toNat = n ∨ (nodeAt nodes p).right.toNat = n)
  /-- Every other node has a parent, which is an internal node. -/
  hasParent : ∀ n < Config.root, 256 ≤ (nodeAt nodes n).parent.toNat ∧ (nodeAt nodes n).parent.toNat ≤ Config.root
  /-- Every node is reached from the root by exactly one path. -/
  path : ∀ n ≤ Config.root, ∃ bits, PathTo nodes n bits ∧ ∀ other, PathTo nodes n other → other = bits

/-- R44, R160: the code of leaf `i` is the one of this tree for the first `n` leaves. -/
def CodesOf (nodes : Vector Node 511) (codes : Vector (List Bool) 256) (n : Nat) : Prop :=
  ∀ i < n, leafCode nodes i = some ((codes[i]?).getD [])

/-- R191: a sequence of bits that spells these leaves, one path after another. -/
def Spells (nodes : Vector Node 511) (leaves : List Nat) (bits : List Bool) : Prop :=
  ∃ paths : List (List Bool), List.Forall₂ (fun x p => x < 256 ∧ PathTo nodes x p) leaves paths ∧ bits = paths.flatten

/-- R191, R196: these bits, from the root, reach no leaf. -/
def StaysInternal (nodes : Vector Node 511) (bits : List Bool) : Prop :=
  ∀ k ≤ bits.length, 256 ≤ walkDown nodes Config.root (bits.take k)

/-- R122: what no command writes: the host's own registers, CMDOVR, and what is outside the engine. -/
def SameHostSide (s t : State) : Prop :=
  t.ie = s.ie ∧ t.cmdovr = s.cmdovr ∧ t.params = s.params ∧ t.platform = s.platform ∧ t.rstLow = s.rstLow ∧
  t.inputs = s.inputs ∧ t.response = s.response ∧ t.hostDirty = s.hostDirty

/-- R114: a command has completed without error. -/
def EndedWell (t : State) : Prop :=
  t.run = .idle ∧ t.done = true ∧ t.err = false ∧ t.errcode = 0 ∧ t.errInfo = 0

/-- R214: a command has ended with this error. -/
def EndedBy (e : BitVec 4) (info : Word) (t : State) : Prop :=
  t.run = .idle ∧ t.done = true ∧ t.err = true ∧ t.errcode = e ∧ t.errInfo = info

/-- R119, R214: the state a command leaves that fails a check: only what its acceptance and the error write. -/
def failedCheck (i : Instr) (e : BitVec 4) (info : Word) (s : State) : State :=
  { s with
    lastcmd := (encode i).extractLsb' 0 8
    done := true
    err := true
    errcode := e
    errInfo := info
    outCount := 0
    outBits := 0
    treeValid := s.treeValid && decide (i ≠ .fcount ∧ i ≠ .build)
    codesValid := s.codesValid && decide (i ≠ .fcount ∧ i ≠ .build) && !(decide (i = .gencode) && s.treeValid)
    lat := Latched.reset
    racedSrc := []
    racedDst := []
    unclean := [] }

/-- R67: the addresses of the reads among some accesses. -/
def readAddrs (xs : List Access) : List Nat :=
  xs.filterMap (fun x =>
    match x with
    | .read a => some a
    | .write _ _ => none)

/-- R67: the addresses of the writes among some accesses. -/
def writeAddrs (xs : List Access) : List Nat :=
  xs.filterMap (fun x =>
    match x with
    | .read _ => none
    | .write a _ => some a)

/-- R50: every register, array and flag of the engine is at its reset value and no command runs. -/
def EngineReset (s : State) : Prop :=
  s.run = .idle ∧ s.ie = false ∧ s.done = false ∧ s.err = false ∧ s.treeValid = false ∧ s.codesValid = false ∧
  s.cmdovr = false ∧ s.errcode = 0 ∧ s.lastcmd = 0 ∧ s.params = Params.reset ∧ s.outCount = 0 ∧ s.outBits = 0 ∧
  s.errInfo = 0 ∧ s.freq = Vector.replicate 256 0

/-- R68: a data access is inside the data space. -/
def accessInSpace : Access → Bool
  | .read a => decide (a < Config.dataSpace)
  | .write a _ => decide (a < Config.dataSpace)

/-- R119: the ranges of the running command have passed their checks. -/
def RangesOk (i : Instr) (s : State) : Prop :=
  rangeOK s.lat.srcAddr.toNat (sourceLen i s.lat) = true ∧ rangeOK s.lat.dstAddr.toNat (destLen i s.lat) = true ∧
  overlap s.lat.srcAddr.toNat (sourceLen i s.lat) s.lat.dstAddr.toNat (destLen i s.lat) = false

/-- The progress of the running command is one its pseudocode reaches. -/
def RunOk (s : State) : Prop :=
  match s.run with
  | .idle => s.lat = Latched.reset ∧ s.racedSrc = [] ∧ s.racedDst = [] ∧ s.unclean = []
  | .start i =>
    s.outCount = 0 ∧ s.outBits = 0 ∧
    ((i = .fcount ∨ i = .build) → s.treeValid = false ∧ s.codesValid = false) ∧ (i = .gencode → s.codesValid = false)
  | .illegal w => (∃ e, decode w = .error e) ∧ s.outCount = 0 ∧ s.outBits = 0
  | .fcount =>
    RangesOk .fcount s ∧ s.treeValid = false ∧ s.codesValid = false ∧ s.outCount.toNat ≤ s.lat.srcLen.toNat ∧
    s.outBits = 0 ∧ freqSum s.freq = s.outCount.toNat
  | .build active k =>
    s.treeValid = false ∧ s.codesValid = false ∧ s.outCount = 0 ∧ s.outBits = 0 ∧ k ≤ 255 ∧
    ∃ old, treeAfter s.freq old k = some (s.nodes, active)
  | .gencode leaf =>
    s.treeValid = true ∧ s.codesValid = false ∧ s.outCount = 0 ∧ s.outBits = 0 ∧ leaf ≤ 256 ∧
    CodesOf s.nodes s.codes leaf
  | .encode k acc _ =>
    RangesOk .encode s ∧ s.codesValid = true ∧ k ≤ s.lat.srcLen.toNat ∧ s.outCount.toNat ≤ s.lat.dstCap.toNat ∧
    s.outBits.toNat / 8 = s.outCount.toNat ∧ ∀ j, s.outBits.toNat % 8 ≤ j → j < 8 → acc.getLsbD (7 - j) = false
  | .decode walk _ =>
    RangesOk .decode s ∧ s.treeValid = true ∧ s.lat.symCount.toNat ≤ s.lat.dstCap.toNat ∧
    s.outCount.toNat ≤ s.lat.symCount.toNat ∧ s.outBits.toNat ≤ s.lat.inBits.toNat ∧
    ∀ n, walk = some n → n ≤ Config.root ∧ s.outCount.toNat < s.lat.symCount.toNat

/-- The invariant of the machine: what every state that a run reaches keeps. -/
structure Inv (s : State) : Prop where
  /-- Data memory is in canonical form, inside the data space (R64). -/
  memOk : memWf s.mem
  /-- R27: `CODES_VALID = 1` implies `TREE_VALID = 1`. -/
  codesNeedTree : s.codesValid = true → s.treeValid = true
  /-- R25: DONE and BUSY are never 1 together. -/
  doneNotBusy : s.done = true → busy s = false
  /-- R26: `ERR = 1` exactly when ERRCODE is not 0. -/
  errExactlyCode : s.err = true ↔ s.errcode ≠ 0
  /-- R210: error codes 9 to 15 are never raised. -/
  codeDefined : s.errcode.toNat ≤ 8
  /-- R26, R34: a running command has no error yet. -/
  busyNoError : busy s = true → s.err = false ∧ s.errcode = 0 ∧ s.errInfo = 0
  /-- R34: ERR_INFO is 0 without an error. -/
  infoNeedsError : s.err = false → s.errInfo = 0
  /-- R134: the counts sum to less than `2^32`. -/
  countsFit : freqSum s.freq < 2 ^ 32
  /-- R27, R43: with `TREE_VALID = 1` the node table is the tree of FREQ. -/
  treeOfFreq : s.treeValid = true → IsTreeOf s.freq s.nodes
  /-- R27, R44: with `CODES_VALID = 1` the code table is the one of the present tree. -/
  codesOfTree : s.codesValid = true → CodesOf s.nodes s.codes 256
  /-- R48: the running command's progress. -/
  running : RunOk s
  /-- R240: while `rst_n` is low the engine holds the reset state. -/
  lowIsReset : s.rstLow = true → EngineReset s
  /-- R68: every data access was inside the data space. -/
  accessesOk : ∀ x ∈ s.accesses, accessInSpace x = true
  /-- R74: a byte that races is inside the data space. -/
  racesOk : ∀ a ∈ s.racedDst, a < Config.dataSpace
  /-- R77: the host writes only bytes of the data space. -/
  dirtyOk : ∀ a ∈ s.hostDirty, a < Config.dataSpace
  /-- R77: a coherent master port leaves nothing to clean or to invalidate. -/
  coherentClean : s.platform.coherent = true → s.hostDirty = [] ∧ s.hostStale = [] ∧ s.unclean = []

end Sys2Proof.Machine
end

