-- ==== Sys2Proof/Certificates/Slice0/Obligations.lean ====
section
/-! DEFINITION. The statements about the machine, from the numbered rules of spec/. They are stated and not proved
here. -/

open Sys2Proof Sys2Proof.Machine

/-! ## The command words -/

/-- R91: the six command words decode to their commands. -/
def Obligations.CommandWordsDecode : Prop :=
  decode 0x00000000#32 = .ok .nop ∧ decode 0x00000001#32 = .ok .fcount ∧ decode 0x00000002#32 = .ok .build ∧
  decode 0x00000003#32 = .ok .gencode ∧ decode 0x00000004#32 = .ok .encode ∧ decode 0x00000005#32 = .ok .decode

/-- R91: byte lanes select a command exactly when they carry its word, and the six words. -/
def Obligations.LanesDecodeExactlyEncoded : Prop :=
  (∀ (lanes : List Byte) (i : Instr), decodeLanes lanes = .ok i ↔ lanes = lanesOfWord (encode i)) ∧
  encode .nop = 0#32 ∧ encode .fcount = 1#32 ∧ encode .build = 2#32 ∧ encode .gencode = 3#32 ∧
  encode .encode = 4#32 ∧ encode .decode = 5#32

/-- R93: a word with a reserved bit set, or with an opcode of `0x06` to `0xFF`, selects no command. Which of
the two reasons is named, and that reserved bits are named first, are the model's choice (assumption 24). -/
def Obligations.ReservedWordsAreIllegal : Prop :=
  ∀ w : Word,
    (w.extractLsb' 8 24 ≠ 0#24 → decode w = .error .reservedBits) ∧
    (w.extractLsb' 8 24 = 0#24 → 6 ≤ (w.extractLsb' 0 8).toNat → decode w = .error .reservedOpcode)

/-! ## The step, acceptance and the lifecycle -/

/-- R31, R78, R111: when the host's write to CMD comes and its lanes carry a command, the step is that command's meaning, in
the state with the write taken off the host's actions and answered; a host whose write waited has read DONE = 1. -/
def Obligations.StepIssuesDecodedCommand : Prop :=
  ∀ (s : State) (due : Due) (lanes : List Byte) (rest : List Input) (i : Instr),
    s.inputs = { due := due, act := .write (cmdAddr s.platform) lanes } :: rest → hasCome due s = true →
    decodeLanes lanes = .ok i → step s = exec i { awaited due s with inputs := rest, response := .written }

/-- R111, R112: what acceptance writes, for every 32-bit word, seen where the host's next action arrives before the
engine's next step. The model's own: that point of observation (assumption 5), and the sets of bytes that race (assumptions
8 and 9) or were not clean (assumption 10). -/
def Obligations.AcceptanceWritesAndLatches : Prop :=
  ∀ (s : State) (w : Word) (rest : List Input),
    s.inputs = { due := .after 0, act := .write (cmdAddr s.platform) (lanesOfWord w) } :: rest →
    s.rstLow = false → s.run = .idle → arrivesNow { s with inputs := rest } = true →
    ∃ t, step s = .next t ∧ busy t = true ∧ irq t = false ∧
      t = { s with
        inputs := rest
        response := .written
        lastcmd := w.extractLsb' 0 8
        done := false
        err := false
        errcode := 0
        errInfo := 0
        outCount := 0
        outBits := 0
        lat :=
          { srcAddr := s.params.srcAddr, srcLen := s.params.srcLen, dstAddr := s.params.dstAddr
            dstCap := s.params.dstCap, symCount := s.params.symCount
            inBits := s.params.inBitsHi ++ s.params.inBitsLo }
        treeValid := if w = 1#32 ∨ w = 2#32 then false else s.treeValid
        codesValid :=
          if w = 1#32 ∨ w = 2#32 then false else if w = 3#32 ∧ s.treeValid = true then false else s.codesValid
        racedSrc := []
        racedDst := []
        unclean := s.hostDirty
        run := t.run } ∧
      ((∃ i, decode w = .ok i ∧ t.run = .start i) ∨ (∃ e, decode w = .error e ∧ t.run = .illegal w))

/-- R115: a CMD write of any word while BUSY changes nothing but CMDOVR, and the running command goes on. (`awaited` is what
a host that waited has read, assumption 26.) -/
def Obligations.CommandWhileBusyIsDropped : Prop :=
  ∀ (s : State) (w : Word) (due : Due) (rest : List Input),
    s.inputs = { due := due, act := .write (cmdAddr s.platform) (lanesOfWord w) } :: rest → hasCome due s = true →
    s.rstLow = false → busy s = true →
    step s = .next (settle { awaited due s with inputs := rest, response := .written, cmdovr := true })

/-- R116: an illegal word that comes while idle is a command whose only step is ILLEGAL_CMD with the word in ERR_INFO; no
array, valid flag or byte of memory changes and no access is made. -/
def Obligations.IllegalWordRaisesIllegalCmd : Prop :=
  ∀ (s : State) (w : Word) (due : Due) (rest : List Input) (e : Reject),
    s.inputs = { due := due, act := .write (cmdAddr s.platform) (lanesOfWord w) } :: rest → hasCome due s = true →
    Ready { s with inputs := rest } → decode w = .error e →
    ∃ t, step s = .next t ∧ EndedBy 1 w t ∧ t.lastcmd = w.extractLsb' 0 8 ∧ t.outCount = 0 ∧ t.outBits = 0 ∧
      t.treeValid = s.treeValid ∧ t.codesValid = s.codesValid ∧ t.freq = s.freq ∧ t.nodes = s.nodes ∧
      t.codes = s.codes ∧ t.accesses = s.accesses ∧ t.params = s.params ∧ t.ie = s.ie ∧ t.cmdovr = s.cmdovr ∧
      ∀ x, memRead t.mem x = memRead s.mem x

/-- R120: NOP completes, and writes only what acceptance and completion write. (The latched copies are 0 while no command
runs: the model's choice, assumption 17; so are the race sets, assumptions 8 to 10.) -/
def Obligations.NopCompletesAndChangesNothingElse : Prop :=
  ∀ s : State, Ready s →
    exec .nop s = .next { s with
      lastcmd := 0
      done := true
      err := false
      errcode := 0
      errInfo := 0
      outCount := 0
      outBits := 0
      lat := Latched.reset
      racedSrc := []
      racedDst := []
      unclean := [] }

/-- R119, R212: the checks of each command in order; the first that fails is raised, and the state is otherwise the one
acceptance leaves: no array, no byte of memory and no access. R117, R118: the ranges are compared without
wrap-around. (The latched copies in `failedCheck` are assumption 17.) -/
def Obligations.ChecksFailInOrder : Prop :=
  ∀ s : State, Ready s →
    let src := s.params.srcAddr.toNat
    let len := s.params.srcLen.toNat
    let dst := s.params.dstAddr.toNat
    let cap := s.params.dstCap.toNat
    let inBytes := ((s.params.inBitsHi ++ s.params.inBitsLo).toNat + 7) / 8
    (2 ^ 32 < src + len → exec .fcount s = .next (failedCheck .fcount 4 0 s)) ∧
    (s.treeValid = false → exec .gencode s = .next (failedCheck .gencode 2 0 s)) ∧
    (s.codesValid = false → exec .encode s = .next (failedCheck .encode 3 0 s)) ∧
    (s.codesValid = true → 2 ^ 32 < src + len → exec .encode s = .next (failedCheck .encode 4 0 s)) ∧
    (s.codesValid = true → src + len ≤ 2 ^ 32 → 2 ^ 32 < dst + cap →
      exec .encode s = .next (failedCheck .encode 4 1 s)) ∧
    (s.codesValid = true → src + len ≤ 2 ^ 32 → dst + cap ≤ 2 ^ 32 →
      0 < len → 0 < cap → src < dst + cap → dst < src + len →
      exec .encode s = .next (failedCheck .encode 5 0 s)) ∧
    (s.treeValid = false → exec .decode s = .next (failedCheck .decode 2 0 s)) ∧
    (s.treeValid = true → 2 ^ 32 < src + inBytes → exec .decode s = .next (failedCheck .decode 4 0 s)) ∧
    (s.treeValid = true → src + inBytes ≤ 2 ^ 32 → 2 ^ 32 < dst + cap →
      exec .decode s = .next (failedCheck .decode 4 1 s)) ∧
    (s.treeValid = true → src + inBytes ≤ 2 ^ 32 → dst + cap ≤ 2 ^ 32 →
      0 < inBytes → 0 < cap → src < dst + cap → dst < src + inBytes →
      exec .decode s = .next (failedCheck .decode 5 0 s)) ∧
    (s.treeValid = true → src + inBytes ≤ 2 ^ 32 → dst + cap ≤ 2 ^ 32 →
      ¬ (0 < inBytes ∧ 0 < cap ∧ src < dst + cap ∧ dst < src + inBytes) → cap < s.params.symCount.toNat →
      exec .decode s = .next (failedCheck .decode 6 s.params.dstCap s))

/-- R210, R214: raising an error saves its number and its value, sets ERR and DONE, clears BUSY, changes nothing else, and
raises the interrupt where it is enabled. (The latched copies are 0 while no command runs: the model's choice, assumption
17; so are the race sets, assumptions 8 to 10. Where the host wrote the destination range while the command ran, RacedBytesAreFree says what the bytes hold.) -/
def Obligations.RaiseRecordsError : Prop :=
  (∀ (e : ErrorCode) (info : Word) (s : State), s.racedDst = [] →
    raiseError e info s = { s with
      errInfo := info
      errcode := errorNumber e
      err := true
      done := true
      run := .idle
      lat := Latched.reset
      racedSrc := []
      unclean := [] } ∧
    irq (raiseError e info s) = s.ie) ∧
  errorNumber .illegalCmd = 1 ∧ errorNumber .noTree = 2 ∧ errorNumber .noCodes = 3 ∧ errorNumber .addrRange = 4 ∧
  errorNumber .overlap = 5 ∧ errorNumber .dstOverflow = 6 ∧ errorNumber .truncated = 7 ∧ errorNumber .busError = 8

/-- R121: every command completes, provided every data access gets a response and the machine's invariant holds. -/
def Obligations.CommandsTerminate : Prop :=
  ∀ (i : Instr) (s : State), Inv s → Ready s → (∀ a, kindAt s.platform a ≠ .silent) →
    ∃ t, exec i s = .next t ∧ t.run = .idle ∧ t.done = true

/-- R121, R241: a data access that never gets a response leaves the command BUSY, in the state before that access. -/
def Obligations.NoResponseLeavesBusy : Prop :=
  (∀ s t a k, move s = .read t a k → kindAt t.platform a = .silent → ∀ n, runEngine n s = s ∧ busy s = true) ∧
  (∀ s t a v k, move s = .write t a v k → kindAt t.platform a = .silent → ∀ n, runEngine n s = s ∧ busy s = true)

/-- R220: the interrupt output follows the completion: while the command runs it is low, and at the completion, with or
without error, it is CTRL.IE. -/
def Obligations.InterruptFollowsCompletion : Prop :=
  ∀ (i : Instr) (s t : State), s.rstLow = false → s.run = .idle → exec i s = .next t →
    irq t = (s.ie && !busy t)

/-- R67: a command's data accesses, in order, are its source bytes and its destination bytes at ascending addresses, each
at most once; NOP, BUILD and GENCODE make none. -/
def Obligations.AccessesInOrder : Prop :=
  ∀ (i : Instr) (s t : State), s.rstLow = false → s.run = .idle → exec i s = .next t →
    ∃ made m n, t.accesses = made ++ s.accesses ∧
      readAddrs made.reverse = (List.range m).map (fun k => s.params.srcAddr.toNat + k) ∧
      writeAddrs made.reverse = (List.range n).map (fun k => s.params.dstAddr.toNat + k) ∧
      (i = .nop ∨ i = .build ∨ i = .gencode → made = []) ∧ (i = .fcount → n = 0)

/-- The step always answers a next state: nothing the host does stops the machine. -/
def Obligations.StepAlwaysGoesOn : Prop := ∀ s : State, ∃ t, step s = .next t

/-! ## FCOUNT -/

/-- R131, R132, R135: FCOUNT of a buffer whose bytes are read plainly leaves in each entry the number of bytes that count
there, and the buffer's length as their sum and in OUT_COUNT. -/
def Obligations.FcountCountsBuffer : Prop :=
  ∀ s : State, Ready s → s.params.srcAddr.toNat + s.params.srcLen.toNat ≤ 2 ^ 32 →
    PlainSource s s.params.srcAddr.toNat s.params.srcLen.toNat →
    ∃ t, exec .fcount s = .next t ∧ EndedWell t ∧ t.lastcmd = 1 ∧ t.treeValid = false ∧ t.codesValid = false ∧
      t.outCount = s.params.srcLen ∧ t.outBits = 0 ∧ freqSum t.freq = s.params.srcLen.toNat ∧
      (s.params.srcLen = 0 → t.accesses = s.accesses) ∧
      ∀ i < 256, (freqAt t i).toNat =
        occurrences i (bytesAt s.mem s.params.srcAddr.toNat s.params.srcLen.toNat)

/-- R133: when the read of byte `k` fails, FREQ holds the counts of the bytes before it. -/
def Obligations.FcountStopsAtBusError : Prop :=
  ∀ (s : State) (k : Nat), Ready s → s.params.srcAddr.toNat + s.params.srcLen.toNat ≤ 2 ^ 32 →
    k < s.params.srcLen.toNat → PlainSource s s.params.srcAddr.toNat k → failsRead s (s.params.srcAddr.toNat + k) →
    ∃ t, exec .fcount s = .next t ∧ EndedBy 8 (BitVec.ofNat 32 (s.params.srcAddr.toNat + k)) t ∧
      t.treeValid = false ∧ t.codesValid = false ∧ t.outCount.toNat = k ∧
      ∀ i < 256, (freqAt t i).toNat = occurrences i (bytesAt s.mem s.params.srcAddr.toNat k)

/-! ## BUILD -/

/-- R141, R142: `ExtractMin` takes the member of least key, by weight and then by node index, and leaves the others. -/
def Obligations.ExtractMinTakesLeast : Prop :=
  ∀ (active others : List Key) (m : Key), (active.map Key.node).Nodup → extractMin active = some (m, others) →
    m ∈ active ∧ others.Perm (active.erase m) ∧
    ∀ x ∈ others, m.weight.toNat < x.weight.toNat ∨ (m.weight.toNat = x.weight.toNat ∧ m.node < x.node)

/-- R143, R144, R140: merge `k` makes node `256 + k` from the two least active nodes, the first taken on the left; it sets
their parents, joins the active set in their place, and leaves every other node alone. -/
def Obligations.MergeMakesNode : Prop :=
  ∀ (k : Nat) (nodes nodes' : Vector Node 511) (active active' : List Key), k < 255 →
    (active.map Key.node).Nodup → (∀ x ∈ active, x.node < 256 + k) →
    mergeOnce k nodes active = some (nodes', active') →
    ∃ a b others, active.Perm (a :: b :: others) ∧ keyBefore a b = true ∧ (∀ x ∈ others, keyBefore b x = true) ∧
      (nodeAt nodes' (256 + k)).weight = (nodeAt nodes a.node).weight + (nodeAt nodes b.node).weight ∧
      (nodeAt nodes' (256 + k)).left.toNat = a.node ∧ (nodeAt nodes' (256 + k)).right.toNat = b.node ∧
      (nodeAt nodes' (256 + k)).parent = Config.noNode ∧
      nodeAt nodes' a.node = { nodeAt nodes a.node with parent := BitVec.ofNat 9 (256 + k) } ∧
      nodeAt nodes' b.node = { nodeAt nodes b.node with parent := BitVec.ofNat 9 (256 + k) } ∧
      (∀ x, x ≠ a.node → x ≠ b.node → x ≠ 256 + k → nodeAt nodes' x = nodeAt nodes x) ∧
      active'.Perm ({ weight := (nodeAt nodes' (256 + k)).weight, node := 256 + k } :: others)

/-- R140: BUILD completes without error from every frequency table, with the tree of that table, and sets TREE_VALID. -/
def Obligations.BuildLeavesTree : Prop :=
  ∀ s : State, Ready s →
    ∃ t, exec .build s = .next t ∧ EndedWell t ∧ t.lastcmd = 2 ∧ t.treeValid = true ∧ t.codesValid = false ∧
      t.outCount = 0 ∧ t.outBits = 0 ∧ t.freq = s.freq ∧ t.mem = s.mem ∧ t.accesses = s.accesses ∧
      IsTreeOf s.freq t.nodes

/-- R43: the tree of a frequency table satisfies the node invariants; so does the node table of every state of the
invariant with TREE_VALID = 1. -/
def Obligations.TreeHasShape : Prop :=
  (∀ (freq : Vector Word 256) (nodes : Vector Node 511), IsTreeOf freq nodes → TreeShape freq nodes) ∧
  ∀ s : State, Inv s → s.treeValid = true → TreeShape s.freq s.nodes

/-- R146: no weight sum overflows: the root's weight is the sum of the counts, and no node weighs more. -/
def Obligations.RootWeighsAllCounts : Prop :=
  ∀ (freq : Vector Word 256) (nodes : Vector Node 511), IsTreeOf freq nodes → freqSum freq < 2 ^ 32 →
    (nodeAt nodes Config.root).weight.toNat = freqSum freq ∧
    ∀ n ≤ Config.root, (nodeAt nodes n).weight.toNat ≤ freqSum freq ∧
      (256 ≤ n → (nodeAt nodes n).weight.toNat =
        (nodeAt nodes (nodeAt nodes n).left.toNat).weight.toNat +
        (nodeAt nodes (nodeAt nodes n).right.toNat).weight.toNat)

/-- R149: BUILD is a function of FREQ alone. -/
def Obligations.BuildDependsOnFreqOnly : Prop :=
  ∀ s u : State, Ready s → Ready u → s.freq = u.freq →
    ∃ t v, exec .build s = .next t ∧ exec .build u = .next v ∧ t.nodes = v.nodes

/-- R150: with every weight 0 the tree is the complete binary tree of depth 8. -/
def Obligations.ZeroWeightsGiveCompleteTree : Prop :=
  ∀ nodes : Vector Node 511, IsTreeOf (Vector.replicate 256 0) nodes →
    (∀ k < 255, (nodeAt nodes (256 + k)).left.toNat = 2 * k ∧ (nodeAt nodes (256 + k)).right.toNat = 2 * k + 1) ∧
    (∀ i < 256, PathTo nodes i ((List.range 8).map (fun b => i.testBit (7 - b)))) ∧
    (nodeAt nodes Config.root).left = 508#9 ∧ (nodeAt nodes Config.root).right = 509#9

/-- R148: with a single non-zero weight its leaf is the root's right child, and so gets the code `1`; every leaf gets a
code, those of weight 0 too. -/
def Obligations.SingleSymbolGetsCodeOne : Prop :=
  ∀ (freq : Vector Word 256) (nodes : Vector Node 511) (i : Nat), i < 256 → IsTreeOf freq nodes →
    (∀ j < 256, (freq[j]?).getD 0 ≠ 0 ↔ j = i) →
    (nodeAt nodes Config.root).left = 509#9 ∧ (nodeAt nodes Config.root).right.toNat = i ∧
    (nodeAt nodes 509).weight = 0 ∧ leafCode nodes i = some [true] ∧
    ∀ j < 256, ∃ code, leafCode nodes j = some code ∧ code ≠ []

/-- R151: a leaf of strictly greater weight is never deeper than a leaf of strictly smaller weight. -/
def Obligations.HeavierLeafIsNotDeeper : Prop :=
  ∀ (freq : Vector Word 256) (nodes : Vector Node 511) (i j : Nat),
    IsTreeOf freq nodes → freqSum freq < 2 ^ 32 → i < 256 → j < 256 →
    ((freq[j]?).getD 0).toNat < ((freq[i]?).getD 0).toNat →
    ∃ p q, PathTo nodes i p ∧ PathTo nodes j q ∧ leafCode nodes i = some p ∧ leafCode nodes j = some q ∧
      p.length ≤ q.length

/-! ## GENCODE -/

/-- R160, R161, R162, R163: GENCODE on a tree completes, and the code of each leaf is its path from the root, 0 for a left
edge and 1 for a right edge, of length 1 to 255. -/
def Obligations.GencodeDerivesPaths : Prop :=
  ∀ (s : State) (freq : Vector Word 256), Ready s → s.treeValid = true → IsTreeOf freq s.nodes →
    ∃ t, exec .gencode s = .next t ∧ EndedWell t ∧ t.lastcmd = 3 ∧ t.treeValid = true ∧ t.codesValid = true ∧
      t.outCount = 0 ∧ t.outBits = 0 ∧ t.freq = s.freq ∧ t.nodes = s.nodes ∧ t.mem = s.mem ∧
      t.accesses = s.accesses ∧
      ∀ i < 256, PathTo s.nodes i (codeAt t i) ∧ leafCode s.nodes i = some (codeAt t i) ∧
        1 ≤ (codeAt t i).length ∧ (codeAt t i).length ≤ 255

/-- R164: no code of a tree is a prefix of another. -/
def Obligations.CodesArePrefixFree : Prop :=
  ∀ (freq : Vector Word 256) (nodes : Vector Node 511) (i j : Nat), IsTreeOf freq nodes →
    i < 256 → j < 256 → i ≠ j →
    ∃ p q, leafCode nodes i = some p ∧ leafCode nodes j = some q ∧ ¬ p <+: q

/-- R165: the codes of a tree fill the code space: the sum of `2^(-LEN[i])` is 1, and every sequence of 255 bits or more
begins with exactly one code. -/
def Obligations.CodesFillCodeSpace : Prop :=
  ∀ (freq : Vector Word 256) (nodes : Vector Node 511), IsTreeOf freq nodes →
    (∀ i < 256, ∃ code, leafCode nodes i = some code ∧ code.length ≤ 255) ∧
    ((List.range 256).map (fun i => 2 ^ (255 - ((leafCode nodes i).getD []).length))).sum = 2 ^ 255 ∧
    ∀ bits : List Bool, 255 ≤ bits.length →
      ∃ i < 256, (leafCode nodes i).getD [] <+: bits ∧ ∀ j < 256, (leafCode nodes j).getD [] <+: bits → j = i

/-! ## ENCODE

A statement about the bytes stored takes data memory in its canonical form, which StepKeepsInvariant says every step
keeps. -/

/-- R171, R172, R173: ENCODE of a buffer that is read plainly into a destination that holds the output packs the codes of
its bytes, most significant bit first, and pads the last byte with zeros. -/
def Obligations.EncodePacksCodes : Prop :=
  ∀ s : State,
    let src := s.params.srcAddr.toNat
    let len := s.params.srcLen.toNat
    let dst := s.params.dstAddr.toNat
    let cap := s.params.dstCap.toNat
    let bits := codeStream s (bytesAt s.mem src len)
    let size := (bits.length + 7) / 8
    memWf s.mem → Ready s → s.codesValid = true → rangeOK src len = true → rangeOK dst cap = true →
    overlap src len dst cap = false → PlainSource s src len → PlainDest s dst size → size ≤ cap →
    ∃ t, exec .encode s = .next t ∧ EndedWell t ∧ t.lastcmd = 4 ∧ t.outBits.toNat = bits.length ∧
      t.outCount.toNat = size ∧ (∀ k < 8 * size, memBit t.mem dst k = (bits[k]?).getD false) ∧
      ∀ x, inRange x dst size = false → memRead t.mem x = memRead s.mem x

/-- R176: ENCODE of an empty buffer completes with nothing written and no access, for any capacity. -/
def Obligations.EncodeOfEmptyBuffer : Prop :=
  ∀ s : State, Ready s → s.codesValid = true → s.params.srcLen = 0 →
    rangeOK s.params.dstAddr.toNat s.params.dstCap.toNat = true →
    ∃ t, exec .encode s = .next t ∧ EndedWell t ∧ t.outBits = 0 ∧ t.outCount = 0 ∧ t.accesses = s.accesses ∧
      ∀ x, memRead t.mem x = memRead s.mem x

/-- R174: an output that does not fit ends with DST_OVERFLOW: the first DST_CAP bytes are written, and OUT_BITS counts the
bits produced, those of the byte that did not fit included. The codes of the first `k` source bytes fill that byte, or
they are all there are and end in it, so no later source byte is read. -/
def Obligations.EncodeOverflowsAtCapacity : Prop :=
  ∀ (s : State) (k : Nat),
    let src := s.params.srcAddr.toNat
    let len := s.params.srcLen.toNat
    let dst := s.params.dstAddr.toNat
    let cap := s.params.dstCap.toNat
    let bits := codeStream s (bytesAt s.mem src k)
    memWf s.mem → Ready s → s.codesValid = true → rangeOK src len = true → rangeOK dst cap = true →
    overlap src len dst cap = false → k ≤ len → PlainSource s src k → PlainDest s dst cap →
    8 * (cap + 1) ≤ bits.length ∨ (k = len ∧ cap < (bits.length + 7) / 8) →
    ∃ t, exec .encode s = .next t ∧ EndedBy 6 s.params.dstCap t ∧ t.outCount = s.params.dstCap ∧
      t.outBits.toNat = min bits.length (8 * (cap + 1)) ∧
      (∀ b < 8 * cap, memBit t.mem dst b = (bits[b]?).getD false) ∧
      ∀ x, inRange x dst cap = false → memRead t.mem x = memRead s.mem x

/-- R175: when the read of source byte `k` fails, the complete bytes of the codes before it have been written and the
partial byte is dropped; when the write of output byte `j` fails, the bytes before it have been written. The codes of the
first `k` source bytes fill that byte, or they are all there are and end in it, so no later source byte is read. -/
def Obligations.EncodeStopsAtBusError : Prop :=
  ∀ s : State,
    let src := s.params.srcAddr.toNat
    let len := s.params.srcLen.toNat
    let dst := s.params.dstAddr.toNat
    let cap := s.params.dstCap.toNat
    memWf s.mem → Ready s → s.codesValid = true → rangeOK src len = true → rangeOK dst cap = true →
    overlap src len dst cap = false →
    (∀ k < len,
      let bits := codeStream s (bytesAt s.mem src k)
      PlainSource s src k → failsRead s (src + k) → bits.length / 8 ≤ cap → PlainDest s dst (bits.length / 8) →
      ∃ t, exec .encode s = .next t ∧ EndedBy 8 (BitVec.ofNat 32 (src + k)) t ∧ t.outBits.toNat = bits.length ∧
        t.outCount.toNat = bits.length / 8 ∧
        (∀ b < 8 * (bits.length / 8), memBit t.mem dst b = (bits[b]?).getD false) ∧
        ∀ x, inRange x dst (bits.length / 8) = false → memRead t.mem x = memRead s.mem x) ∧
    (∀ j, ∀ k ≤ len,
      let bits := codeStream s (bytesAt s.mem src k)
      PlainSource s src k → 8 * (j + 1) ≤ bits.length ∨ (k = len ∧ j < (bits.length + 7) / 8) → j < cap →
      PlainDest s dst j → failsWrite s (dst + j) →
      ∃ t, exec .encode s = .next t ∧ EndedBy 8 (BitVec.ofNat 32 (dst + j)) t ∧ t.outCount.toNat = j ∧
        t.outBits.toNat = min bits.length (8 * (j + 1)) ∧
        (∀ b < 8 * j, memBit t.mem dst b = (bits[b]?).getD false) ∧
        ∀ x, inRange x dst (j + 1) = false → memRead t.mem x = memRead s.mem x)

/-! ## DECODE

The canonical form of data memory is a premise here too. -/

/-- R191, R192, R193, R194, R195: where the stream begins with the paths of SYM_COUNT leaves, DECODE writes their bytes,
consumes exactly those bits and completes, whatever bits follow. -/
def Obligations.DecodeWritesSymbols : Prop :=
  ∀ (s : State) (leaves : List Nat) (bits : List Bool),
    let src := s.params.srcAddr.toNat
    let inBits := (s.params.inBitsHi ++ s.params.inBitsLo).toNat
    let dst := s.params.dstAddr.toNat
    let cap := s.params.dstCap.toNat
    memWf s.mem → Ready s → s.treeValid = true → rangeOK src (bytesOfBits inBits) = true → rangeOK dst cap = true →
    overlap src (bytesOfBits inBits) dst cap = false → leaves.length = s.params.symCount.toNat →
    s.params.symCount.toNat ≤ cap → Spells s.nodes leaves bits → bits.length ≤ inBits →
    (∀ k < bits.length, bits[k]? = some (memBit s.mem src k)) →
    PlainSource s src (bytesOfBits bits.length) → PlainDest s dst leaves.length →
    ∃ t, exec .decode s = .next t ∧ EndedWell t ∧ t.lastcmd = 5 ∧ t.outCount = s.params.symCount ∧
      t.outBits.toNat = bits.length ∧
      (∀ k < leaves.length, memRead t.mem (dst + k) = symByte ((leaves[k]?).getD 0)) ∧
      (∀ x, inRange x dst leaves.length = false → memRead t.mem x = memRead s.mem x) ∧
      ∃ made, t.accesses = made ++ s.accesses ∧
        readAddrs made.reverse = (List.range (bytesOfBits bits.length)).map (fun k => src + k)

/-- R196: when the bits run out inside a code, DECODE raises TRUNCATED; the symbols before it stay written, and nothing is
written for the partial one. -/
def Obligations.DecodeRaisesTruncated : Prop :=
  ∀ (s : State) (leaves : List Nat) (bits tail : List Bool),
    let src := s.params.srcAddr.toNat
    let inBits := (s.params.inBitsHi ++ s.params.inBitsLo).toNat
    let dst := s.params.dstAddr.toNat
    let cap := s.params.dstCap.toNat
    memWf s.mem → Ready s → s.treeValid = true → rangeOK src (bytesOfBits inBits) = true → rangeOK dst cap = true →
    overlap src (bytesOfBits inBits) dst cap = false → leaves.length < s.params.symCount.toNat →
    s.params.symCount.toNat ≤ cap → Spells s.nodes leaves bits → StaysInternal s.nodes tail →
    (bits ++ tail).length = inBits → (∀ k < inBits, (bits ++ tail)[k]? = some (memBit s.mem src k)) →
    PlainSource s src (bytesOfBits inBits) → PlainDest s dst leaves.length →
    ∃ t, exec .decode s = .next t ∧ EndedBy 7 0 t ∧ t.outCount.toNat = leaves.length ∧ t.outBits.toNat = inBits ∧
      (∀ k < leaves.length, memRead t.mem (dst + k) = symByte ((leaves[k]?).getD 0)) ∧
      ∀ x, inRange x dst leaves.length = false → memRead t.mem x = memRead s.mem x

/-- R197: with SYM_COUNT = 0 DECODE completes without an access, whatever IN_BITS is. -/
def Obligations.DecodeOfNoSymbols : Prop :=
  ∀ s : State,
    let src := s.params.srcAddr.toNat
    let inBytes := bytesOfBits (s.params.inBitsHi ++ s.params.inBitsLo).toNat
    Ready s → s.treeValid = true → s.params.symCount = 0 → rangeOK src inBytes = true →
    rangeOK s.params.dstAddr.toNat s.params.dstCap.toNat = true →
    overlap src inBytes s.params.dstAddr.toNat s.params.dstCap.toNat = false →
    ∃ t, exec .decode s = .next t ∧ EndedWell t ∧ t.outCount = 0 ∧ t.outBits = 0 ∧ t.accesses = s.accesses ∧
      ∀ x, memRead t.mem x = memRead s.mem x

/-- R201: when the read of input byte `k` fails, the symbols of the bits before it have been written and the partial one
is dropped; when the write of a symbol fails, the symbols before it have been written. -/
def Obligations.DecodeStopsAtBusError : Prop :=
  ∀ (s : State) (leaves : List Nat) (bits : List Bool),
    let src := s.params.srcAddr.toNat
    let inBits := (s.params.inBitsHi ++ s.params.inBitsLo).toNat
    let dst := s.params.dstAddr.toNat
    let cap := s.params.dstCap.toNat
    memWf s.mem → Ready s → s.treeValid = true → rangeOK src (bytesOfBits inBits) = true → rangeOK dst cap = true →
    overlap src (bytesOfBits inBits) dst cap = false → leaves.length < s.params.symCount.toNat →
    s.params.symCount.toNat ≤ cap → Spells s.nodes leaves bits → PlainDest s dst leaves.length →
    (∀ (k : Nat) (tail : List Bool), StaysInternal s.nodes tail → (bits ++ tail).length = 8 * k → 8 * k < inBits →
      (∀ b < 8 * k, (bits ++ tail)[b]? = some (memBit s.mem src b)) → PlainSource s src k → failsRead s (src + k) →
      ∃ t, exec .decode s = .next t ∧ EndedBy 8 (BitVec.ofNat 32 (src + k)) t ∧ t.outCount.toNat = leaves.length ∧
        t.outBits.toNat = 8 * k ∧
        (∀ j < leaves.length, memRead t.mem (dst + j) = symByte ((leaves[j]?).getD 0)) ∧
        ∀ x, inRange x dst leaves.length = false → memRead t.mem x = memRead s.mem x) ∧
    (∀ (x : Nat) (path : List Bool), x < 256 → PathTo s.nodes x path → (bits ++ path).length ≤ inBits →
      (∀ b < (bits ++ path).length, (bits ++ path)[b]? = some (memBit s.mem src b)) →
      PlainSource s src (bytesOfBits (bits ++ path).length) → failsWrite s (dst + leaves.length) →
      ∃ t, exec .decode s = .next t ∧ EndedBy 8 (BitVec.ofNat 32 (dst + leaves.length)) t ∧
        t.outCount.toNat = leaves.length ∧ t.outBits.toNat = (bits ++ path).length ∧
        (∀ j < leaves.length, memRead t.mem (dst + j) = symByte ((leaves[j]?).getD 0)) ∧
        ∀ y, inRange y dst (leaves.length + 1) = false → memRead t.mem y = memRead s.mem y)

/-- R199: decoding what ENCODE packed, with the tree that encoded it, gives the source buffer back. -/
def Obligations.DecodeInvertsEncode : Prop :=
  ∀ s t u : State,
    let src := s.params.srcAddr.toNat
    let len := s.params.srcLen.toNat
    let dst := s.params.dstAddr.toNat
    let out := u.params.dstAddr.toNat
    let cap := u.params.dstCap.toNat
    Inv s → Ready s → s.codesValid = true → PlainSource s src len → PlainDest s dst s.params.dstCap.toNat →
    exec .encode s = .next t → t.err = false →
    memWf u.mem → Ready u → u.treeValid = true → u.nodes = s.nodes → u.params.srcAddr = s.params.dstAddr →
    u.params.inBitsHi ++ u.params.inBitsLo = t.outBits → u.params.symCount = s.params.srcLen → len ≤ cap →
    (∀ k < t.outCount.toNat, memRead u.mem (dst + k) = memRead t.mem (dst + k)) →
    rangeOK out cap = true → overlap dst t.outCount.toNat out cap = false →
    PlainSource u dst t.outCount.toNat → PlainDest u out len →
    ∃ v, exec .decode u = .next v ∧ EndedWell v ∧ v.outCount = s.params.srcLen ∧ v.outBits = t.outBits ∧
      ∀ k < len, memRead v.mem (out + k) = memRead s.mem (src + k)

/-! ## Frames -/

/-- R122: what the commands that store nothing leave alone, at whatever point the host's next action finds them: the
host's side, every byte of memory, and every array and flag the command does not write. -/
def Obligations.TableCommandsFrame : Prop :=
  ∀ (i : Instr) (s t : State), s.rstLow = false → s.run = .idle →
    i = .nop ∨ i = .fcount ∨ i = .build ∨ i = .gencode → exec i s = .next t →
    SameHostSide s t ∧ (∀ x, memRead t.mem x = memRead s.mem x) ∧ t.hostStale = s.hostStale ∧ t.unseen = s.unseen ∧ t.outBits = 0 ∧
    t.lastcmd = (encode i).extractLsb' 0 8 ∧
    (i ≠ .fcount → t.freq = s.freq ∧ t.outCount = 0 ∧ t.accesses = s.accesses ∧ t.draws = s.draws) ∧
    (i ≠ .build → t.nodes = s.nodes) ∧ (i ≠ .gencode → t.codes = s.codes) ∧
    (i = .nop ∨ i = .gencode → t.treeValid = s.treeValid) ∧ (i = .nop → t.codesValid = s.codesValid)

/-- R122: what ENCODE and DECODE leave alone, at whatever point the host's next action finds them: the host's side, the
arrays and valid flags, and every byte of memory outside the bytes they store: OUT_COUNT bytes from DST_ADDR, and the
next one where its write got an error response. -/
def Obligations.StreamCommandsFrame : Prop :=
  ∀ (i : Instr) (s t : State), s.rstLow = false → s.run = .idle → i = .encode ∨ i = .decode → exec i s = .next t →
    SameHostSide s t ∧ t.freq = s.freq ∧ t.nodes = s.nodes ∧ t.codes = s.codes ∧ t.treeValid = s.treeValid ∧
    t.codesValid = s.codesValid ∧ t.lastcmd = (encode i).extractLsb' 0 8 ∧
    ∀ x, inRange x s.params.dstAddr.toNat t.outCount.toNat = false →
      ¬ (x = s.params.dstAddr.toNat + t.outCount.toNat ∧ t.errcode = 8 ∧ kindAt s.platform x = .writeError) →
      memRead t.mem x = memRead s.mem x

/-! ## Registers, reset and the host -/

/-- R112, R255: a running command reads the latched copies alone: whatever the parameter registers are given while it
runs, the engine does the same. -/
def Obligations.ParameterWritesDoNotDisturb : Prop :=
  ∀ (s : State) (p : Params) (n : Nat), runEngine n { s with params := p } = { runEngine n s with params := p }

/-- R22, R23: the fields of the CTRL and STATUS words, which a read returns, and what a host write of STATUS clears. -/
def Obligations.StatusWordAndClear : Prop :=
  ∀ (s : State) (v : Word),
    (statusWord s).getLsbD 0 = busy s ∧ (statusWord s).getLsbD 1 = s.done ∧ (statusWord s).getLsbD 2 = s.err ∧
    (statusWord s).getLsbD 3 = s.treeValid ∧ (statusWord s).getLsbD 4 = s.codesValid ∧
    (statusWord s).getLsbD 5 = s.cmdovr ∧ (statusWord s).extractLsb' 6 2 = 0#2 ∧
    (statusWord s).extractLsb' 8 4 = s.errcode ∧ (statusWord s).extractLsb' 12 4 = 0#4 ∧
    (statusWord s).extractLsb' 16 8 = s.lastcmd ∧ (statusWord s).extractLsb' 24 8 = 0#8 ∧
    (ctrlWord s).getLsbD 0 = s.ie ∧ (ctrlWord s).extractLsb' 1 31 = 0#31 ∧
    (s.rstLow = false →
      readRegister s 0x004 = (ctrlWord s, s) ∧ readRegister s 0x008 = (statusWord s, s) ∧
      writeRegister 0x008 v s =
        { s with
          done := if v.getLsbD 1 then false else s.done
          cmdovr := if v.getLsbD 5 then false else s.cmdovr })

/-- R30: a parameter register reads back what was written, while BUSY too, and a write to it changes nothing else. -/
def Obligations.ParameterRegistersReadBack : Prop :=
  ∀ (s : State) (v : Word) (off : Nat), s.rstLow = false →
    off ∈ [0x010, 0x014, 0x018, 0x01C, 0x020, 0x024, 0x028] →
    readRegister (writeRegister off v s) off = (v, writeRegister off v s) ∧
    writeRegister off v s = { s with params := (writeRegister off v s).params } ∧
    ∀ other ∈ [0x010, 0x014, 0x018, 0x01C, 0x020, 0x024, 0x028], other ≠ off →
      registerWord (writeRegister off v s) other = registerWord s other

/-- R32, R33, R34, R40, R42, R45: what the result registers and the FREQ, NODE and CODE windows show while the engine is
idle. -/
def Obligations.WindowsShowArrays : Prop :=
  ∀ s : State, s.rstLow = false → s.run = .idle →
    readRegister s 0x02C = (s.outCount, s) ∧ readRegister s 0x030 = (s.outBits.extractLsb' 0 32, s) ∧
    readRegister s 0x034 = (s.outBits.extractLsb' 32 32, s) ∧ readRegister s 0x038 = (s.errInfo, s) ∧
    (∀ i < 256, readRegister s (0x400 + 4 * i) = (freqAt s i, s)) ∧
    (s.treeValid = true → ∀ n < 511,
      readRegister s (0x1000 + 8 * n) = ((nodeAt s.nodes n).weight, s) ∧
      ∃ w, readRegister s (0x1004 + 8 * n) = (w, s) ∧ w.extractLsb' 0 9 = (nodeAt s.nodes n).left ∧
        w.extractLsb' 9 9 = (nodeAt s.nodes n).right ∧ w.extractLsb' 18 9 = (nodeAt s.nodes n).parent ∧
        w.extractLsb' 27 4 = 0#4 ∧ w.getLsbD 31 = decide (n < 256)) ∧
    (s.codesValid = true → ∀ i < 256, (codeAt s i).length ≤ 255 →
      (∃ w, readRegister s (0x4000 + 64 * i) = (w, s) ∧ w.toNat = (codeAt s i).length) ∧
      (∀ j < 8, ∃ w, readRegister s (0x4004 + 64 * i + 4 * j) = (w, s) ∧
        ∀ m < 32, w.getLsbD (31 - m) = ((codeAt s i)[32 * j + m]?).getD false) ∧
      (∀ j < 7, readRegister s (0x4024 + 64 * i + 4 * j) = (0, s)))

/-- R46, R47: the reads that return an unspecified value, which is a free one, and R63: no read changes more than the
count of free values drawn. -/
def Obligations.UnspecifiedReadsAreFree : Prop :=
  ∀ (s : State) (off : Nat), s.rstLow = false →
    ((busy s = true ∧ (off ∈ [0x02C, 0x030, 0x034, 0x038] ∨ (0x400 ≤ off ∧ off < 0x800) ∨
        (0x1000 ≤ off ∧ off < 0x1FF8) ∨ (0x4000 ≤ off ∧ off < 0x8000))) ∨
      (s.treeValid = false ∧ 0x1000 ≤ off ∧ off < 0x1FF8) ∨ (s.codesValid = false ∧ 0x4000 ≤ off ∧ off < 0x8000) →
      readRegister s off = (Config.freeWord s.draws, { s with draws := s.draws + 1 })) ∧
    (off < 0x02C ∨ (0x03C ≤ off ∧ off < 0x400) ∨ (0x800 ≤ off ∧ off < 0x1000) ∨ (0x1FF8 ≤ off ∧ off < 0x4000) →
      readRegister s off = (registerWord s off, s))

/-- R35, R21, R31: a reserved offset and CMD read 0, ID reads its constant, and a write to a reserved or read-only offset
has no effect. -/
def Obligations.ReservedOffsetsIgnoreWrites : Prop :=
  ∀ (s : State) (off : Nat) (v : Word), s.rstLow = false →
    ((0x03C ≤ off ∧ off < 0x400) ∨ (0x800 ≤ off ∧ off < 0x1000) ∨ (0x1FF8 ≤ off ∧ off < 0x4000) ∨ off = 0x00C →
      readRegister s off = (0, s)) ∧
    readRegister s 0 = (0x48554631#32, s) ∧
    (off = 0 ∨ 0x02C ≤ off → writeRegister off v s = s)

/-- R61: with `rst_n` high, an access on the register port of another width than four bytes, or not aligned, gets an error
response and has no other effect. (`awaited` is what a host that waited has read, assumption 26.) -/
def Obligations.PortRefusesOtherAccesses : Prop :=
  ∀ (s : State) (addr width : Nat) (lanes : List Byte) (due : Due) (rest : List Input), s.rstLow = false →
    s.platform.hufeBase ≤ addr → addr < s.platform.hufeBase + 0x8000 → hasCome due s = true →
    (width ≠ 4 ∨ (addr - s.platform.hufeBase) % 4 ≠ 0 →
      s.inputs = { due := due, act := .read addr width } :: rest →
      step s = .next (settle { awaited due s with inputs := rest, response := .busError })) ∧
    (lanes.length ≠ 4 ∨ (addr - s.platform.hufeBase) % 4 ≠ 0 →
      s.inputs = { due := due, act := .write addr lanes } :: rest →
      step s = .next (settle { awaited due s with inputs := rest, response := .busError }))

/-- R50: the reset state, right after power-up and after any reset. -/
def Obligations.ResetValues : Prop :=
  ∀ t : State, (t = State.reset ∨ ∃ s : State, s.rstLow = false ∧ t = resetEngine s) →
    EngineReset t ∧ statusWord t = 0 ∧ irq t = false ∧ t.rstLow = false ∧
    (∀ i < 256, freqAt t i = 0) ∧ readRegister t offID = (0x48554631#32, t) ∧
    ∀ off ∈ [0x004, 0x008, 0x00C, 0x010, 0x014, 0x018, 0x01C, 0x020, 0x024, 0x028, 0x02C, 0x030, 0x034, 0x038],
      readRegister t off = (0, t)

/-- R241: a write to CTRL with SRST set puts the engine in the reset state, whatever the other bits of the write, and one
without it sets IE alone. -/
def Obligations.SoftResetRestoresReset : Prop :=
  ∀ (s : State) (v : Word), s.rstLow = false →
    (v.getLsbD 1 = true →
      EngineReset (writeRegister offCTRL v s) ∧ irq (writeRegister offCTRL v s) = false ∧
      readRegister (writeRegister offCTRL v s) offCTRL = (0, writeRegister offCTRL v s)) ∧
    (v.getLsbD 1 = false → writeRegister offCTRL v s = { s with ie := v.getLsbD 0 })

/-- R242: a reset ends a running command without completion, error or interrupt; no further access is issued, what was
written stays, and only the byte of a write in flight may change, to the written value. The model's reading: the write in
flight is the one the command would make next (assumption 11), bytes of the destination range the host wrote meanwhile
are free (assumption 9), the latched copies are 0 (assumption 17), and a reset of an idle engine keeps data memory
(assumption 18). -/
def Obligations.ResetEndsRunningCommand : Prop :=
  ∀ s : State, memWf s.mem →
    EngineReset (resetEngine s) ∧ irq (resetEngine s) = false ∧ (resetEngine s).lat = Latched.reset ∧
    (∀ n, runEngine n (resetEngine s) = resetEngine s) ∧
    (∀ x, x ∉ s.racedDst → memRead (resetEngine s).mem x = memRead s.mem x ∨
      ∃ t v k, move s = .write t x v k ∧ memRead (resetEngine s).mem x = v) ∧
    (∀ x ∈ s.racedDst, ∃ n, memRead (resetEngine s).mem x = Config.freeByte n) ∧
    (s.run = .idle → s.racedDst = [] → (resetEngine s).mem = s.mem)

/-- R240: while `rst_n` is low no register write and no command has an effect, and every register read returns an
unspecified value; in every state of the invariant the engine then holds the reset state and `irq` is low. -/
def Obligations.HardResetHoldsEngine : Prop :=
  ∀ (s : State) (off : Nat) (v : Word) (i : Instr), s.rstLow = true →
    writeRegister off v s = s ∧ exec i s = .next s ∧
    readRegister s off = (Config.freeWord s.draws, { s with draws := s.draws + 1 }) ∧
    (Inv s → EngineReset s ∧ irq s = false ∧ busy s = false)

/-- R97: with `rst_n` high, a host that waits for DONE reads STATUS and does nothing more before DONE is 1, and one that
also checks ERR stops its program when an error is reported, with the STATUS word that holds its ERRCODE. That one read of
STATUS falls in a step, and that a stopped program is one whose remaining actions are dropped and whose last answer is
that word, are the model's choice (assumption 21). The host has then read DONE = 1 (`unseen`, assumption 26). -/
def Obligations.HostWaitsForDone : Prop :=
  ∀ (s : State) (act : HostAct) (rest : List Input), s.rstLow = false →
    (∀ due, due = .wait ∨ due = .waitOk → s.inputs = { due := due, act := act } :: rest → s.done = false →
      ∃ t, step s = .next t ∧ t = settle { s with response := .word (statusWord s) } ∧ t.inputs = s.inputs) ∧
    (s.inputs = { due := .waitOk, act := act } :: rest → s.done = true → s.err = true →
      step s = .next { s with inputs := [], response := .word (statusWord s), unseen := [] })

/-- R74: a byte of the running command's source range that the host writes is read by the engine as any byte; a byte of
its destination range that the host writes holds any byte after the command's end, with or without an error. -/
def Obligations.RacedBytesAreFree : Prop :=
  ∀ (s : State) (a : Nat) (v : Byte), memWf s.mem → (∀ x ∈ s.racedDst, x < 2 ^ 32) → a < 2 ^ 32 →
    kindAt s.platform a = .memory →
    (inSource s a = true → ∀ k,
      respondRead (hostStore a v s) a k =
        some (k { hostStore a v s with accesses := .read a :: s.accesses, draws := s.draws + 1 }
          (Config.freeByte s.draws))) ∧
    (inDest s a = true →
      (∃ n, memRead (complete (hostStore a v s)).mem a = Config.freeByte n) ∧
      (∀ e info, ∃ n, memRead (raiseError e info (hostStore a v s)).mem a = Config.freeByte n) ∧
      hostLoad a s = { s with response := .byte (Config.freeByte s.draws), draws := s.draws + 1 })

/-- R72, R77: a byte the engine wrote is what the host reads once it has read DONE = 1, and not before: with a coherent
master port at once, and without one only after an invalidate that follows that read, also while the next command runs. -/
def Obligations.CacheMaintenanceRestoresOrder : Prop :=
  ∀ (s : State) (a : Nat) (v : Byte) (c : Word) (r : Run), a < 2 ^ 32 → kindAt s.platform a = .memory →
    s.rstLow = false → a ∉ s.racedDst → memWf s.mem →
    let ended := complete (stored a v s)
    let seen := pollStatus ended
    let next := accept c r seen
    loadClouded ended a = true ∧
    (s.platform.coherent = true → hostLoad a seen = { seen with response := .byte v }) ∧
    (s.platform.coherent = false →
      loadClouded seen a = true ∧ loadClouded (pollStatus (hostInvalidate a 1 ended)) a = true ∧
      hostLoad a (hostInvalidate a 1 seen) = { hostInvalidate a 1 seen with response := .byte v } ∧
      (inDest next a = false →
        hostLoad a (hostInvalidate a 1 next) = { hostInvalidate a 1 next with response := .byte v }))

/-! ## The invariant -/

/-- The invariant holds in the reset state. -/
def Obligations.ResetMeetsInvariant : Prop := Inv State.reset

/-- Every step keeps the invariant: the canonical memory inside the data space, the flag rules of R25 to R27, the tree of
FREQ while TREE_VALID, the code table of that tree while CODES_VALID, and the running command's progress. -/
def Obligations.StepKeepsInvariant : Prop := ∀ s t : State, Inv s → step s = .next t → Inv t

/-! ## The register port and the reset pin, as steps -/

/-- R62, R63: with `rst_n` high or low, an aligned access of four bytes at an offset other than CMD transfers the register's
word, lane `k` its bits `8k+7:8k`, and the engine goes on up to the host's next action. A host that reads STATUS, or whose
action waited, has read DONE where that is 1 (R72). -/
def Obligations.RegisterPortTransfersWords : Prop :=
  ∀ (s : State) (off : Nat) (due : Due) (rest : List Input), off < 0x8000 → off % 4 = 0 → hasCome due s = true →
    (∀ b0 b1 b2 b3 : Byte, off ≠ 0x00C →
      s.inputs = { due := due, act := .write (s.platform.hufeBase + off) [b0, b1, b2, b3] } :: rest →
      step s = .next (settle
        (writeRegister off (b3 ++ b2 ++ b1 ++ b0) { awaited due s with inputs := rest, response := .written }))) ∧
    (s.inputs = { due := due, act := .read (s.platform.hufeBase + off) 4 } :: rest →
      step s = .next (settle
        { noteRead off (readRegister { awaited due s with inputs := rest } off).2 with
          response := .word (readRegister { s with inputs := rest } off).1 }))

/-- R240: when `rst_n` goes low the engine is in the reset state with `irq` low, whatever ran; when it goes high again the
engine is idle in that state and nothing else has changed. -/
def Obligations.ResetPinHoldsAndReleases : Prop :=
  ∀ (s : State) (due : Due) (rest : List Input), hasCome due s = true →
    (s.inputs = { due := due, act := .resetLow } :: rest →
      ∃ t, step s = .next t ∧ EngineReset t ∧ irq t = false ∧ t.rstLow = true ∧ t.inputs = rest) ∧
    (Inv s → s.rstLow = true → s.inputs = { due := due, act := .resetHigh } :: rest →
      step s = .next { s with inputs := rest, rstLow := false } ∧ EngineReset { s with inputs := rest, rstLow := false })

/-! ## Races are foreseen -/

/-- R74, R71: where the host's next action stores to a source byte of a running command and finds it still running, also
one that never ends, each read of that byte before it is any byte; where it finds the command ended, a read of that byte
gets the one in memory, unless another host write of it races or the host's caches held a newer one at the acceptance.
Which of the two a store is, is set as assumption 8 says. -/
def Obligations.RacesAreForeseen : Prop :=
  ∀ (s : State) (due : Due) (n a : Nat) (v : Byte) (rest : List Input), Inv s → busy s = true →
    due = .after n ∨ due = .during n → s.inputs = { due := due, act := .store a v } :: rest → inSource s a = true →
    kindAt s.platform a = .memory →
    (busy (settle s) = true → ∀ k,
      respondRead s a k =
        some (k { s with accesses := .read a :: s.accesses, draws := s.draws + 1 } (Config.freeByte s.draws))) ∧
    (busy (settle s) = false → a ∉ s.racedSrc → s.platform.coherent = true ∨ a ∉ s.unclean → ∀ k,
      respondRead s a k = some (k { s with accesses := .read a :: s.accesses } (memRead s.mem a)))

/-! ## Issue order -/

/-- R71, R77: a byte the host wrote while the engine was idle (R111, R115: only then is a command accepted) is what a
command accepted afterwards reads: with a coherent master port at once, and without one only after the host has cleaned
the byte. -/
def Obligations.CleaningRestoresIssueOrder : Prop :=
  ∀ (s : State) (a : Nat) (v : Byte) (c : Word) (r : Run), s.run = .idle → a < 2 ^ 32 →
    kindAt s.platform a = .memory → duringAhead (accept c r s) s.inputs = false → memWf s.mem →
    memRead (accept c r (hostStore a v s)).mem a = v ∧
    (s.platform.coherent = true → clouded (accept c r (hostStore a v s)) a = false) ∧
    (s.platform.coherent = false →
      clouded (accept c r (hostStore a v s)) a = true ∧
      clouded (accept c r (hostClean a 1 (hostStore a v s))) a = false ∧
      memRead (accept c r (hostClean a 1 (hostStore a v s))).mem a = v)
end

