-- ==== Sys2Proof/Laws/State.lean ====
section
/-! SUPPORT. What each named update of State leaves in each field: one lemma per field per update, true by rfl, so that no
proof unfolds a record update. -/

namespace Sys2Proof.Machine

/-! A free value is drawn. -/

@[simp] theorem drawn_ie (s : State) : (drawn s).ie = s.ie := rfl
@[simp] theorem drawn_done (s : State) : (drawn s).done = s.done := rfl
@[simp] theorem drawn_err (s : State) : (drawn s).err = s.err := rfl
@[simp] theorem drawn_treeValid (s : State) : (drawn s).treeValid = s.treeValid := rfl
@[simp] theorem drawn_codesValid (s : State) : (drawn s).codesValid = s.codesValid := rfl
@[simp] theorem drawn_cmdovr (s : State) : (drawn s).cmdovr = s.cmdovr := rfl
@[simp] theorem drawn_errcode (s : State) : (drawn s).errcode = s.errcode := rfl
@[simp] theorem drawn_lastcmd (s : State) : (drawn s).lastcmd = s.lastcmd := rfl
@[simp] theorem drawn_params (s : State) : (drawn s).params = s.params := rfl
@[simp] theorem drawn_outCount (s : State) : (drawn s).outCount = s.outCount := rfl
@[simp] theorem drawn_outBits (s : State) : (drawn s).outBits = s.outBits := rfl
@[simp] theorem drawn_errInfo (s : State) : (drawn s).errInfo = s.errInfo := rfl
@[simp] theorem drawn_freq (s : State) : (drawn s).freq = s.freq := rfl
@[simp] theorem drawn_nodes (s : State) : (drawn s).nodes = s.nodes := rfl
@[simp] theorem drawn_codes (s : State) : (drawn s).codes = s.codes := rfl
@[simp] theorem drawn_lat (s : State) : (drawn s).lat = s.lat := rfl
@[simp] theorem drawn_run (s : State) : (drawn s).run = s.run := rfl
@[simp] theorem drawn_mem (s : State) : (drawn s).mem = s.mem := rfl
@[simp] theorem drawn_platform (s : State) : (drawn s).platform = s.platform := rfl
@[simp] theorem drawn_rstLow (s : State) : (drawn s).rstLow = s.rstLow := rfl
@[simp] theorem drawn_racedSrc (s : State) : (drawn s).racedSrc = s.racedSrc := rfl
@[simp] theorem drawn_racedDst (s : State) : (drawn s).racedDst = s.racedDst := rfl
@[simp] theorem drawn_unclean (s : State) : (drawn s).unclean = s.unclean := rfl
@[simp] theorem drawn_hostDirty (s : State) : (drawn s).hostDirty = s.hostDirty := rfl
@[simp] theorem drawn_hostStale (s : State) : (drawn s).hostStale = s.hostStale := rfl
@[simp] theorem drawn_unseen (s : State) : (drawn s).unseen = s.unseen := rfl
@[simp] theorem drawn_inputs (s : State) : (drawn s).inputs = s.inputs := rfl
@[simp] theorem drawn_response (s : State) : (drawn s).response = s.response := rfl
@[simp] theorem drawn_accesses (s : State) : (drawn s).accesses = s.accesses := rfl
@[simp] theorem drawn_draws (s : State) : (drawn s).draws = s.draws + 1 := rfl

/-! A data access is issued (R67). -/

@[simp] theorem logged_ie (x : Access) (s : State) : (logged x s).ie = s.ie := rfl
@[simp] theorem logged_done (x : Access) (s : State) : (logged x s).done = s.done := rfl
@[simp] theorem logged_err (x : Access) (s : State) : (logged x s).err = s.err := rfl
@[simp] theorem logged_treeValid (x : Access) (s : State) : (logged x s).treeValid = s.treeValid := rfl
@[simp] theorem logged_codesValid (x : Access) (s : State) : (logged x s).codesValid = s.codesValid := rfl
@[simp] theorem logged_cmdovr (x : Access) (s : State) : (logged x s).cmdovr = s.cmdovr := rfl
@[simp] theorem logged_errcode (x : Access) (s : State) : (logged x s).errcode = s.errcode := rfl
@[simp] theorem logged_lastcmd (x : Access) (s : State) : (logged x s).lastcmd = s.lastcmd := rfl
@[simp] theorem logged_params (x : Access) (s : State) : (logged x s).params = s.params := rfl
@[simp] theorem logged_outCount (x : Access) (s : State) : (logged x s).outCount = s.outCount := rfl
@[simp] theorem logged_outBits (x : Access) (s : State) : (logged x s).outBits = s.outBits := rfl
@[simp] theorem logged_errInfo (x : Access) (s : State) : (logged x s).errInfo = s.errInfo := rfl
@[simp] theorem logged_freq (x : Access) (s : State) : (logged x s).freq = s.freq := rfl
@[simp] theorem logged_nodes (x : Access) (s : State) : (logged x s).nodes = s.nodes := rfl
@[simp] theorem logged_codes (x : Access) (s : State) : (logged x s).codes = s.codes := rfl
@[simp] theorem logged_lat (x : Access) (s : State) : (logged x s).lat = s.lat := rfl
@[simp] theorem logged_run (x : Access) (s : State) : (logged x s).run = s.run := rfl
@[simp] theorem logged_mem (x : Access) (s : State) : (logged x s).mem = s.mem := rfl
@[simp] theorem logged_platform (x : Access) (s : State) : (logged x s).platform = s.platform := rfl
@[simp] theorem logged_rstLow (x : Access) (s : State) : (logged x s).rstLow = s.rstLow := rfl
@[simp] theorem logged_racedSrc (x : Access) (s : State) : (logged x s).racedSrc = s.racedSrc := rfl
@[simp] theorem logged_racedDst (x : Access) (s : State) : (logged x s).racedDst = s.racedDst := rfl
@[simp] theorem logged_unclean (x : Access) (s : State) : (logged x s).unclean = s.unclean := rfl
@[simp] theorem logged_hostDirty (x : Access) (s : State) : (logged x s).hostDirty = s.hostDirty := rfl
@[simp] theorem logged_hostStale (x : Access) (s : State) : (logged x s).hostStale = s.hostStale := rfl
@[simp] theorem logged_unseen (x : Access) (s : State) : (logged x s).unseen = s.unseen := rfl
@[simp] theorem logged_inputs (x : Access) (s : State) : (logged x s).inputs = s.inputs := rfl
@[simp] theorem logged_response (x : Access) (s : State) : (logged x s).response = s.response := rfl
@[simp] theorem logged_accesses (x : Access) (s : State) : (logged x s).accesses = x :: s.accesses := rfl
@[simp] theorem logged_draws (x : Access) (s : State) : (logged x s).draws = s.draws := rfl

/-! The engine writes a byte (R65). -/

@[simp] theorem stored_ie (a : Nat) (v : Byte) (s : State) : (stored a v s).ie = s.ie := rfl
@[simp] theorem stored_done (a : Nat) (v : Byte) (s : State) : (stored a v s).done = s.done := rfl
@[simp] theorem stored_err (a : Nat) (v : Byte) (s : State) : (stored a v s).err = s.err := rfl
@[simp] theorem stored_treeValid (a : Nat) (v : Byte) (s : State) : (stored a v s).treeValid = s.treeValid := rfl
@[simp] theorem stored_codesValid (a : Nat) (v : Byte) (s : State) : (stored a v s).codesValid = s.codesValid := rfl
@[simp] theorem stored_cmdovr (a : Nat) (v : Byte) (s : State) : (stored a v s).cmdovr = s.cmdovr := rfl
@[simp] theorem stored_errcode (a : Nat) (v : Byte) (s : State) : (stored a v s).errcode = s.errcode := rfl
@[simp] theorem stored_lastcmd (a : Nat) (v : Byte) (s : State) : (stored a v s).lastcmd = s.lastcmd := rfl
@[simp] theorem stored_params (a : Nat) (v : Byte) (s : State) : (stored a v s).params = s.params := rfl
@[simp] theorem stored_outCount (a : Nat) (v : Byte) (s : State) : (stored a v s).outCount = s.outCount := rfl
@[simp] theorem stored_outBits (a : Nat) (v : Byte) (s : State) : (stored a v s).outBits = s.outBits := rfl
@[simp] theorem stored_errInfo (a : Nat) (v : Byte) (s : State) : (stored a v s).errInfo = s.errInfo := rfl
@[simp] theorem stored_freq (a : Nat) (v : Byte) (s : State) : (stored a v s).freq = s.freq := rfl
@[simp] theorem stored_nodes (a : Nat) (v : Byte) (s : State) : (stored a v s).nodes = s.nodes := rfl
@[simp] theorem stored_codes (a : Nat) (v : Byte) (s : State) : (stored a v s).codes = s.codes := rfl
@[simp] theorem stored_lat (a : Nat) (v : Byte) (s : State) : (stored a v s).lat = s.lat := rfl
@[simp] theorem stored_run (a : Nat) (v : Byte) (s : State) : (stored a v s).run = s.run := rfl
@[simp] theorem stored_mem (a : Nat) (v : Byte) (s : State) : (stored a v s).mem = memWrite s.mem a v := rfl
@[simp] theorem stored_platform (a : Nat) (v : Byte) (s : State) : (stored a v s).platform = s.platform := rfl
@[simp] theorem stored_rstLow (a : Nat) (v : Byte) (s : State) : (stored a v s).rstLow = s.rstLow := rfl
@[simp] theorem stored_racedSrc (a : Nat) (v : Byte) (s : State) : (stored a v s).racedSrc = s.racedSrc := rfl
@[simp] theorem stored_racedDst (a : Nat) (v : Byte) (s : State) : (stored a v s).racedDst = s.racedDst := rfl
@[simp] theorem stored_unclean (a : Nat) (v : Byte) (s : State) : (stored a v s).unclean = s.unclean := rfl
@[simp] theorem stored_hostDirty (a : Nat) (v : Byte) (s : State) : (stored a v s).hostDirty = s.hostDirty := rfl
@[simp] theorem stored_hostStale (a : Nat) (v : Byte) (s : State) : (stored a v s).hostStale = if s.platform.coherent then s.hostStale else addAddr a s.hostStale := rfl
@[simp] theorem stored_unseen (a : Nat) (v : Byte) (s : State) : (stored a v s).unseen = addAddr a s.unseen := rfl
@[simp] theorem stored_inputs (a : Nat) (v : Byte) (s : State) : (stored a v s).inputs = s.inputs := rfl
@[simp] theorem stored_response (a : Nat) (v : Byte) (s : State) : (stored a v s).response = s.response := rfl
@[simp] theorem stored_accesses (a : Nat) (v : Byte) (s : State) : (stored a v s).accesses = s.accesses := rfl
@[simp] theorem stored_draws (a : Nat) (v : Byte) (s : State) : (stored a v s).draws = s.draws := rfl

/-! Acceptance (R111). -/

@[simp] theorem accept_ie (c : Word) (r : Run) (s : State) : (accept c r s).ie = s.ie := rfl
@[simp] theorem accept_done (c : Word) (r : Run) (s : State) : (accept c r s).done = false := rfl
@[simp] theorem accept_err (c : Word) (r : Run) (s : State) : (accept c r s).err = false := rfl
@[simp] theorem accept_treeValid (c : Word) (r : Run) (s : State) : (accept c r s).treeValid = treeAfterAccept c s.treeValid := rfl
@[simp] theorem accept_codesValid (c : Word) (r : Run) (s : State) : (accept c r s).codesValid = codesAfterAccept c s.treeValid s.codesValid := rfl
@[simp] theorem accept_cmdovr (c : Word) (r : Run) (s : State) : (accept c r s).cmdovr = s.cmdovr := rfl
@[simp] theorem accept_errcode (c : Word) (r : Run) (s : State) : (accept c r s).errcode = 0 := rfl
@[simp] theorem accept_lastcmd (c : Word) (r : Run) (s : State) : (accept c r s).lastcmd = c.extractLsb' 0 8 := rfl
@[simp] theorem accept_params (c : Word) (r : Run) (s : State) : (accept c r s).params = s.params := rfl
@[simp] theorem accept_outCount (c : Word) (r : Run) (s : State) : (accept c r s).outCount = 0 := rfl
@[simp] theorem accept_outBits (c : Word) (r : Run) (s : State) : (accept c r s).outBits = 0 := rfl
@[simp] theorem accept_errInfo (c : Word) (r : Run) (s : State) : (accept c r s).errInfo = 0 := rfl
@[simp] theorem accept_freq (c : Word) (r : Run) (s : State) : (accept c r s).freq = s.freq := rfl
@[simp] theorem accept_nodes (c : Word) (r : Run) (s : State) : (accept c r s).nodes = s.nodes := rfl
@[simp] theorem accept_codes (c : Word) (r : Run) (s : State) : (accept c r s).codes = s.codes := rfl
@[simp] theorem accept_lat (c : Word) (r : Run) (s : State) : (accept c r s).lat = latch s.params := rfl
@[simp] theorem accept_run (c : Word) (r : Run) (s : State) : (accept c r s).run = r := rfl
@[simp] theorem accept_mem (c : Word) (r : Run) (s : State) : (accept c r s).mem = s.mem := rfl
@[simp] theorem accept_platform (c : Word) (r : Run) (s : State) : (accept c r s).platform = s.platform := rfl
@[simp] theorem accept_rstLow (c : Word) (r : Run) (s : State) : (accept c r s).rstLow = s.rstLow := rfl
@[simp] theorem accept_racedSrc (c : Word) (r : Run) (s : State) : (accept c r s).racedSrc = [] := rfl
@[simp] theorem accept_racedDst (c : Word) (r : Run) (s : State) : (accept c r s).racedDst = [] := rfl
@[simp] theorem accept_unclean (c : Word) (r : Run) (s : State) : (accept c r s).unclean = s.hostDirty := rfl
@[simp] theorem accept_hostDirty (c : Word) (r : Run) (s : State) : (accept c r s).hostDirty = s.hostDirty := rfl
@[simp] theorem accept_hostStale (c : Word) (r : Run) (s : State) : (accept c r s).hostStale = s.hostStale := rfl
@[simp] theorem accept_unseen (c : Word) (r : Run) (s : State) : (accept c r s).unseen = s.unseen := rfl
@[simp] theorem accept_inputs (c : Word) (r : Run) (s : State) : (accept c r s).inputs = s.inputs := rfl
@[simp] theorem accept_response (c : Word) (r : Run) (s : State) : (accept c r s).response = s.response := rfl
@[simp] theorem accept_accesses (c : Word) (r : Run) (s : State) : (accept c r s).accesses = s.accesses := rfl
@[simp] theorem accept_draws (c : Word) (r : Run) (s : State) : (accept c r s).draws = s.draws := rfl

/-! A CMD write is dropped (R115). -/

@[simp] theorem dropCommand_ie (s : State) : (dropCommand s).ie = s.ie := rfl
@[simp] theorem dropCommand_done (s : State) : (dropCommand s).done = s.done := rfl
@[simp] theorem dropCommand_err (s : State) : (dropCommand s).err = s.err := rfl
@[simp] theorem dropCommand_treeValid (s : State) : (dropCommand s).treeValid = s.treeValid := rfl
@[simp] theorem dropCommand_codesValid (s : State) : (dropCommand s).codesValid = s.codesValid := rfl
@[simp] theorem dropCommand_cmdovr (s : State) : (dropCommand s).cmdovr = true := rfl
@[simp] theorem dropCommand_errcode (s : State) : (dropCommand s).errcode = s.errcode := rfl
@[simp] theorem dropCommand_lastcmd (s : State) : (dropCommand s).lastcmd = s.lastcmd := rfl
@[simp] theorem dropCommand_params (s : State) : (dropCommand s).params = s.params := rfl
@[simp] theorem dropCommand_outCount (s : State) : (dropCommand s).outCount = s.outCount := rfl
@[simp] theorem dropCommand_outBits (s : State) : (dropCommand s).outBits = s.outBits := rfl
@[simp] theorem dropCommand_errInfo (s : State) : (dropCommand s).errInfo = s.errInfo := rfl
@[simp] theorem dropCommand_freq (s : State) : (dropCommand s).freq = s.freq := rfl
@[simp] theorem dropCommand_nodes (s : State) : (dropCommand s).nodes = s.nodes := rfl
@[simp] theorem dropCommand_codes (s : State) : (dropCommand s).codes = s.codes := rfl
@[simp] theorem dropCommand_lat (s : State) : (dropCommand s).lat = s.lat := rfl
@[simp] theorem dropCommand_run (s : State) : (dropCommand s).run = s.run := rfl
@[simp] theorem dropCommand_mem (s : State) : (dropCommand s).mem = s.mem := rfl
@[simp] theorem dropCommand_platform (s : State) : (dropCommand s).platform = s.platform := rfl
@[simp] theorem dropCommand_rstLow (s : State) : (dropCommand s).rstLow = s.rstLow := rfl
@[simp] theorem dropCommand_racedSrc (s : State) : (dropCommand s).racedSrc = s.racedSrc := rfl
@[simp] theorem dropCommand_racedDst (s : State) : (dropCommand s).racedDst = s.racedDst := rfl
@[simp] theorem dropCommand_unclean (s : State) : (dropCommand s).unclean = s.unclean := rfl
@[simp] theorem dropCommand_hostDirty (s : State) : (dropCommand s).hostDirty = s.hostDirty := rfl
@[simp] theorem dropCommand_hostStale (s : State) : (dropCommand s).hostStale = s.hostStale := rfl
@[simp] theorem dropCommand_unseen (s : State) : (dropCommand s).unseen = s.unseen := rfl
@[simp] theorem dropCommand_inputs (s : State) : (dropCommand s).inputs = s.inputs := rfl
@[simp] theorem dropCommand_response (s : State) : (dropCommand s).response = s.response := rfl
@[simp] theorem dropCommand_accesses (s : State) : (dropCommand s).accesses = s.accesses := rfl
@[simp] theorem dropCommand_draws (s : State) : (dropCommand s).draws = s.draws := rfl

/-! A command ends (R48, R74). -/

@[simp] theorem endCommand_ie (s : State) : (endCommand s).ie = s.ie := rfl
@[simp] theorem endCommand_done (s : State) : (endCommand s).done = s.done := rfl
@[simp] theorem endCommand_err (s : State) : (endCommand s).err = s.err := rfl
@[simp] theorem endCommand_treeValid (s : State) : (endCommand s).treeValid = s.treeValid := rfl
@[simp] theorem endCommand_codesValid (s : State) : (endCommand s).codesValid = s.codesValid := rfl
@[simp] theorem endCommand_cmdovr (s : State) : (endCommand s).cmdovr = s.cmdovr := rfl
@[simp] theorem endCommand_errcode (s : State) : (endCommand s).errcode = s.errcode := rfl
@[simp] theorem endCommand_lastcmd (s : State) : (endCommand s).lastcmd = s.lastcmd := rfl
@[simp] theorem endCommand_params (s : State) : (endCommand s).params = s.params := rfl
@[simp] theorem endCommand_outCount (s : State) : (endCommand s).outCount = s.outCount := rfl
@[simp] theorem endCommand_outBits (s : State) : (endCommand s).outBits = s.outBits := rfl
@[simp] theorem endCommand_errInfo (s : State) : (endCommand s).errInfo = s.errInfo := rfl
@[simp] theorem endCommand_freq (s : State) : (endCommand s).freq = s.freq := rfl
@[simp] theorem endCommand_nodes (s : State) : (endCommand s).nodes = s.nodes := rfl
@[simp] theorem endCommand_codes (s : State) : (endCommand s).codes = s.codes := rfl
@[simp] theorem endCommand_lat (s : State) : (endCommand s).lat = Latched.reset := rfl
@[simp] theorem endCommand_run (s : State) : (endCommand s).run = .idle := rfl
@[simp] theorem endCommand_mem (s : State) : (endCommand s).mem = scrambled s.racedDst s.mem s.draws := rfl
@[simp] theorem endCommand_platform (s : State) : (endCommand s).platform = s.platform := rfl
@[simp] theorem endCommand_rstLow (s : State) : (endCommand s).rstLow = s.rstLow := rfl
@[simp] theorem endCommand_racedSrc (s : State) : (endCommand s).racedSrc = [] := rfl
@[simp] theorem endCommand_racedDst (s : State) : (endCommand s).racedDst = [] := rfl
@[simp] theorem endCommand_unclean (s : State) : (endCommand s).unclean = [] := rfl
@[simp] theorem endCommand_hostDirty (s : State) : (endCommand s).hostDirty = s.hostDirty := rfl
@[simp] theorem endCommand_hostStale (s : State) : (endCommand s).hostStale = s.hostStale := rfl
@[simp] theorem endCommand_unseen (s : State) : (endCommand s).unseen = s.unseen := rfl
@[simp] theorem endCommand_inputs (s : State) : (endCommand s).inputs = s.inputs := rfl
@[simp] theorem endCommand_response (s : State) : (endCommand s).response = s.response := rfl
@[simp] theorem endCommand_accesses (s : State) : (endCommand s).accesses = s.accesses := rfl
@[simp] theorem endCommand_draws (s : State) : (endCommand s).draws = s.draws + s.racedDst.length := rfl

/-! Completion (R114). -/

@[simp] theorem complete_ie (s : State) : (complete s).ie = s.ie := rfl
@[simp] theorem complete_done (s : State) : (complete s).done = true := rfl
@[simp] theorem complete_err (s : State) : (complete s).err = s.err := rfl
@[simp] theorem complete_treeValid (s : State) : (complete s).treeValid = s.treeValid := rfl
@[simp] theorem complete_codesValid (s : State) : (complete s).codesValid = s.codesValid := rfl
@[simp] theorem complete_cmdovr (s : State) : (complete s).cmdovr = s.cmdovr := rfl
@[simp] theorem complete_errcode (s : State) : (complete s).errcode = s.errcode := rfl
@[simp] theorem complete_lastcmd (s : State) : (complete s).lastcmd = s.lastcmd := rfl
@[simp] theorem complete_params (s : State) : (complete s).params = s.params := rfl
@[simp] theorem complete_outCount (s : State) : (complete s).outCount = s.outCount := rfl
@[simp] theorem complete_outBits (s : State) : (complete s).outBits = s.outBits := rfl
@[simp] theorem complete_errInfo (s : State) : (complete s).errInfo = s.errInfo := rfl
@[simp] theorem complete_freq (s : State) : (complete s).freq = s.freq := rfl
@[simp] theorem complete_nodes (s : State) : (complete s).nodes = s.nodes := rfl
@[simp] theorem complete_codes (s : State) : (complete s).codes = s.codes := rfl
@[simp] theorem complete_lat (s : State) : (complete s).lat = Latched.reset := rfl
@[simp] theorem complete_run (s : State) : (complete s).run = .idle := rfl
@[simp] theorem complete_mem (s : State) : (complete s).mem = scrambled s.racedDst s.mem s.draws := rfl
@[simp] theorem complete_platform (s : State) : (complete s).platform = s.platform := rfl
@[simp] theorem complete_rstLow (s : State) : (complete s).rstLow = s.rstLow := rfl
@[simp] theorem complete_racedSrc (s : State) : (complete s).racedSrc = [] := rfl
@[simp] theorem complete_racedDst (s : State) : (complete s).racedDst = [] := rfl
@[simp] theorem complete_unclean (s : State) : (complete s).unclean = [] := rfl
@[simp] theorem complete_hostDirty (s : State) : (complete s).hostDirty = s.hostDirty := rfl
@[simp] theorem complete_hostStale (s : State) : (complete s).hostStale = s.hostStale := rfl
@[simp] theorem complete_unseen (s : State) : (complete s).unseen = s.unseen := rfl
@[simp] theorem complete_inputs (s : State) : (complete s).inputs = s.inputs := rfl
@[simp] theorem complete_response (s : State) : (complete s).response = s.response := rfl
@[simp] theorem complete_accesses (s : State) : (complete s).accesses = s.accesses := rfl
@[simp] theorem complete_draws (s : State) : (complete s).draws = s.draws + s.racedDst.length := rfl

/-! An error (R214). -/

@[simp] theorem raiseError_ie (e : ErrorCode) (info : Word) (s : State) : (raiseError e info s).ie = s.ie := rfl
@[simp] theorem raiseError_done (e : ErrorCode) (info : Word) (s : State) : (raiseError e info s).done = true := rfl
@[simp] theorem raiseError_err (e : ErrorCode) (info : Word) (s : State) : (raiseError e info s).err = true := rfl
@[simp] theorem raiseError_treeValid (e : ErrorCode) (info : Word) (s : State) : (raiseError e info s).treeValid = s.treeValid := rfl
@[simp] theorem raiseError_codesValid (e : ErrorCode) (info : Word) (s : State) : (raiseError e info s).codesValid = s.codesValid := rfl
@[simp] theorem raiseError_cmdovr (e : ErrorCode) (info : Word) (s : State) : (raiseError e info s).cmdovr = s.cmdovr := rfl
@[simp] theorem raiseError_errcode (e : ErrorCode) (info : Word) (s : State) : (raiseError e info s).errcode = errorNumber e := rfl
@[simp] theorem raiseError_lastcmd (e : ErrorCode) (info : Word) (s : State) : (raiseError e info s).lastcmd = s.lastcmd := rfl
@[simp] theorem raiseError_params (e : ErrorCode) (info : Word) (s : State) : (raiseError e info s).params = s.params := rfl
@[simp] theorem raiseError_outCount (e : ErrorCode) (info : Word) (s : State) : (raiseError e info s).outCount = s.outCount := rfl
@[simp] theorem raiseError_outBits (e : ErrorCode) (info : Word) (s : State) : (raiseError e info s).outBits = s.outBits := rfl
@[simp] theorem raiseError_errInfo (e : ErrorCode) (info : Word) (s : State) : (raiseError e info s).errInfo = info := rfl
@[simp] theorem raiseError_freq (e : ErrorCode) (info : Word) (s : State) : (raiseError e info s).freq = s.freq := rfl
@[simp] theorem raiseError_nodes (e : ErrorCode) (info : Word) (s : State) : (raiseError e info s).nodes = s.nodes := rfl
@[simp] theorem raiseError_codes (e : ErrorCode) (info : Word) (s : State) : (raiseError e info s).codes = s.codes := rfl
@[simp] theorem raiseError_lat (e : ErrorCode) (info : Word) (s : State) : (raiseError e info s).lat = Latched.reset := rfl
@[simp] theorem raiseError_run (e : ErrorCode) (info : Word) (s : State) : (raiseError e info s).run = .idle := rfl
@[simp] theorem raiseError_mem (e : ErrorCode) (info : Word) (s : State) : (raiseError e info s).mem = scrambled s.racedDst s.mem s.draws := rfl
@[simp] theorem raiseError_platform (e : ErrorCode) (info : Word) (s : State) : (raiseError e info s).platform = s.platform := rfl
@[simp] theorem raiseError_rstLow (e : ErrorCode) (info : Word) (s : State) : (raiseError e info s).rstLow = s.rstLow := rfl
@[simp] theorem raiseError_racedSrc (e : ErrorCode) (info : Word) (s : State) : (raiseError e info s).racedSrc = [] := rfl
@[simp] theorem raiseError_racedDst (e : ErrorCode) (info : Word) (s : State) : (raiseError e info s).racedDst = [] := rfl
@[simp] theorem raiseError_unclean (e : ErrorCode) (info : Word) (s : State) : (raiseError e info s).unclean = [] := rfl
@[simp] theorem raiseError_hostDirty (e : ErrorCode) (info : Word) (s : State) : (raiseError e info s).hostDirty = s.hostDirty := rfl
@[simp] theorem raiseError_hostStale (e : ErrorCode) (info : Word) (s : State) : (raiseError e info s).hostStale = s.hostStale := rfl
@[simp] theorem raiseError_unseen (e : ErrorCode) (info : Word) (s : State) : (raiseError e info s).unseen = s.unseen := rfl
@[simp] theorem raiseError_inputs (e : ErrorCode) (info : Word) (s : State) : (raiseError e info s).inputs = s.inputs := rfl
@[simp] theorem raiseError_response (e : ErrorCode) (info : Word) (s : State) : (raiseError e info s).response = s.response := rfl
@[simp] theorem raiseError_accesses (e : ErrorCode) (info : Word) (s : State) : (raiseError e info s).accesses = s.accesses := rfl
@[simp] theorem raiseError_draws (e : ErrorCode) (info : Word) (s : State) : (raiseError e info s).draws = s.draws + s.racedDst.length := rfl

/-! Reset (R50). -/

@[simp] theorem resetRegisters_ie (s : State) : (resetRegisters s).ie = false := rfl
@[simp] theorem resetRegisters_done (s : State) : (resetRegisters s).done = false := rfl
@[simp] theorem resetRegisters_err (s : State) : (resetRegisters s).err = false := rfl
@[simp] theorem resetRegisters_treeValid (s : State) : (resetRegisters s).treeValid = false := rfl
@[simp] theorem resetRegisters_codesValid (s : State) : (resetRegisters s).codesValid = false := rfl
@[simp] theorem resetRegisters_cmdovr (s : State) : (resetRegisters s).cmdovr = false := rfl
@[simp] theorem resetRegisters_errcode (s : State) : (resetRegisters s).errcode = 0 := rfl
@[simp] theorem resetRegisters_lastcmd (s : State) : (resetRegisters s).lastcmd = 0 := rfl
@[simp] theorem resetRegisters_params (s : State) : (resetRegisters s).params = Params.reset := rfl
@[simp] theorem resetRegisters_outCount (s : State) : (resetRegisters s).outCount = 0 := rfl
@[simp] theorem resetRegisters_outBits (s : State) : (resetRegisters s).outBits = 0 := rfl
@[simp] theorem resetRegisters_errInfo (s : State) : (resetRegisters s).errInfo = 0 := rfl
@[simp] theorem resetRegisters_freq (s : State) : (resetRegisters s).freq = Vector.replicate 256 0 := rfl
@[simp] theorem resetRegisters_nodes (s : State) : (resetRegisters s).nodes = Vector.replicate 511 Node.blank := rfl
@[simp] theorem resetRegisters_codes (s : State) : (resetRegisters s).codes = Vector.replicate 256 [] := rfl
@[simp] theorem resetRegisters_lat (s : State) : (resetRegisters s).lat = Latched.reset := rfl
@[simp] theorem resetRegisters_run (s : State) : (resetRegisters s).run = .idle := rfl
@[simp] theorem resetRegisters_mem (s : State) : (resetRegisters s).mem = scrambled s.racedDst s.mem s.draws := rfl
@[simp] theorem resetRegisters_platform (s : State) : (resetRegisters s).platform = s.platform := rfl
@[simp] theorem resetRegisters_rstLow (s : State) : (resetRegisters s).rstLow = s.rstLow := rfl
@[simp] theorem resetRegisters_racedSrc (s : State) : (resetRegisters s).racedSrc = [] := rfl
@[simp] theorem resetRegisters_racedDst (s : State) : (resetRegisters s).racedDst = [] := rfl
@[simp] theorem resetRegisters_unclean (s : State) : (resetRegisters s).unclean = [] := rfl
@[simp] theorem resetRegisters_hostDirty (s : State) : (resetRegisters s).hostDirty = s.hostDirty := rfl
@[simp] theorem resetRegisters_hostStale (s : State) : (resetRegisters s).hostStale = s.hostStale := rfl
@[simp] theorem resetRegisters_unseen (s : State) : (resetRegisters s).unseen = if s.platform.coherent then [] else s.unseen := rfl
@[simp] theorem resetRegisters_inputs (s : State) : (resetRegisters s).inputs = s.inputs := rfl
@[simp] theorem resetRegisters_response (s : State) : (resetRegisters s).response = s.response := rfl
@[simp] theorem resetRegisters_accesses (s : State) : (resetRegisters s).accesses = s.accesses := rfl
@[simp] theorem resetRegisters_draws (s : State) : (resetRegisters s).draws = s.draws + s.racedDst.length := rfl

/-! FCOUNT begins (R130). -/

@[simp] theorem enterFcount_ie (s : State) : (enterFcount s).ie = s.ie := rfl
@[simp] theorem enterFcount_done (s : State) : (enterFcount s).done = s.done := rfl
@[simp] theorem enterFcount_err (s : State) : (enterFcount s).err = s.err := rfl
@[simp] theorem enterFcount_treeValid (s : State) : (enterFcount s).treeValid = s.treeValid := rfl
@[simp] theorem enterFcount_codesValid (s : State) : (enterFcount s).codesValid = s.codesValid := rfl
@[simp] theorem enterFcount_cmdovr (s : State) : (enterFcount s).cmdovr = s.cmdovr := rfl
@[simp] theorem enterFcount_errcode (s : State) : (enterFcount s).errcode = s.errcode := rfl
@[simp] theorem enterFcount_lastcmd (s : State) : (enterFcount s).lastcmd = s.lastcmd := rfl
@[simp] theorem enterFcount_params (s : State) : (enterFcount s).params = s.params := rfl
@[simp] theorem enterFcount_outCount (s : State) : (enterFcount s).outCount = s.outCount := rfl
@[simp] theorem enterFcount_outBits (s : State) : (enterFcount s).outBits = s.outBits := rfl
@[simp] theorem enterFcount_errInfo (s : State) : (enterFcount s).errInfo = s.errInfo := rfl
@[simp] theorem enterFcount_freq (s : State) : (enterFcount s).freq = Vector.replicate 256 0 := rfl
@[simp] theorem enterFcount_nodes (s : State) : (enterFcount s).nodes = s.nodes := rfl
@[simp] theorem enterFcount_codes (s : State) : (enterFcount s).codes = s.codes := rfl
@[simp] theorem enterFcount_lat (s : State) : (enterFcount s).lat = s.lat := rfl
@[simp] theorem enterFcount_run (s : State) : (enterFcount s).run = .fcount := rfl
@[simp] theorem enterFcount_mem (s : State) : (enterFcount s).mem = s.mem := rfl
@[simp] theorem enterFcount_platform (s : State) : (enterFcount s).platform = s.platform := rfl
@[simp] theorem enterFcount_rstLow (s : State) : (enterFcount s).rstLow = s.rstLow := rfl
@[simp] theorem enterFcount_racedSrc (s : State) : (enterFcount s).racedSrc = s.racedSrc := rfl
@[simp] theorem enterFcount_racedDst (s : State) : (enterFcount s).racedDst = s.racedDst := rfl
@[simp] theorem enterFcount_unclean (s : State) : (enterFcount s).unclean = s.unclean := rfl
@[simp] theorem enterFcount_hostDirty (s : State) : (enterFcount s).hostDirty = s.hostDirty := rfl
@[simp] theorem enterFcount_hostStale (s : State) : (enterFcount s).hostStale = s.hostStale := rfl
@[simp] theorem enterFcount_unseen (s : State) : (enterFcount s).unseen = s.unseen := rfl
@[simp] theorem enterFcount_inputs (s : State) : (enterFcount s).inputs = s.inputs := rfl
@[simp] theorem enterFcount_response (s : State) : (enterFcount s).response = s.response := rfl
@[simp] theorem enterFcount_accesses (s : State) : (enterFcount s).accesses = s.accesses := rfl
@[simp] theorem enterFcount_draws (s : State) : (enterFcount s).draws = s.draws := rfl

/-! FCOUNT counts a byte (R130). -/

@[simp] theorem countByte_ie (r : Byte) (s : State) : (countByte s r).ie = s.ie := rfl
@[simp] theorem countByte_done (r : Byte) (s : State) : (countByte s r).done = s.done := rfl
@[simp] theorem countByte_err (r : Byte) (s : State) : (countByte s r).err = s.err := rfl
@[simp] theorem countByte_treeValid (r : Byte) (s : State) : (countByte s r).treeValid = s.treeValid := rfl
@[simp] theorem countByte_codesValid (r : Byte) (s : State) : (countByte s r).codesValid = s.codesValid := rfl
@[simp] theorem countByte_cmdovr (r : Byte) (s : State) : (countByte s r).cmdovr = s.cmdovr := rfl
@[simp] theorem countByte_errcode (r : Byte) (s : State) : (countByte s r).errcode = s.errcode := rfl
@[simp] theorem countByte_lastcmd (r : Byte) (s : State) : (countByte s r).lastcmd = s.lastcmd := rfl
@[simp] theorem countByte_params (r : Byte) (s : State) : (countByte s r).params = s.params := rfl
@[simp] theorem countByte_outCount (r : Byte) (s : State) : (countByte s r).outCount = s.outCount + 1 := rfl
@[simp] theorem countByte_outBits (r : Byte) (s : State) : (countByte s r).outBits = s.outBits := rfl
@[simp] theorem countByte_errInfo (r : Byte) (s : State) : (countByte s r).errInfo = s.errInfo := rfl
@[simp] theorem countByte_freq (r : Byte) (s : State) : (countByte s r).freq = s.freq.setIfInBounds (symIndex r) (freqAt s (symIndex r) + 1) := rfl
@[simp] theorem countByte_nodes (r : Byte) (s : State) : (countByte s r).nodes = s.nodes := rfl
@[simp] theorem countByte_codes (r : Byte) (s : State) : (countByte s r).codes = s.codes := rfl
@[simp] theorem countByte_lat (r : Byte) (s : State) : (countByte s r).lat = s.lat := rfl
@[simp] theorem countByte_run (r : Byte) (s : State) : (countByte s r).run = s.run := rfl
@[simp] theorem countByte_mem (r : Byte) (s : State) : (countByte s r).mem = s.mem := rfl
@[simp] theorem countByte_platform (r : Byte) (s : State) : (countByte s r).platform = s.platform := rfl
@[simp] theorem countByte_rstLow (r : Byte) (s : State) : (countByte s r).rstLow = s.rstLow := rfl
@[simp] theorem countByte_racedSrc (r : Byte) (s : State) : (countByte s r).racedSrc = s.racedSrc := rfl
@[simp] theorem countByte_racedDst (r : Byte) (s : State) : (countByte s r).racedDst = s.racedDst := rfl
@[simp] theorem countByte_unclean (r : Byte) (s : State) : (countByte s r).unclean = s.unclean := rfl
@[simp] theorem countByte_hostDirty (r : Byte) (s : State) : (countByte s r).hostDirty = s.hostDirty := rfl
@[simp] theorem countByte_hostStale (r : Byte) (s : State) : (countByte s r).hostStale = s.hostStale := rfl
@[simp] theorem countByte_unseen (r : Byte) (s : State) : (countByte s r).unseen = s.unseen := rfl
@[simp] theorem countByte_inputs (r : Byte) (s : State) : (countByte s r).inputs = s.inputs := rfl
@[simp] theorem countByte_response (r : Byte) (s : State) : (countByte s r).response = s.response := rfl
@[simp] theorem countByte_accesses (r : Byte) (s : State) : (countByte s r).accesses = s.accesses := rfl
@[simp] theorem countByte_draws (r : Byte) (s : State) : (countByte s r).draws = s.draws := rfl

/-! BUILD begins (R140). -/

@[simp] theorem enterBuild_ie (s : State) : (enterBuild s).ie = s.ie := rfl
@[simp] theorem enterBuild_done (s : State) : (enterBuild s).done = s.done := rfl
@[simp] theorem enterBuild_err (s : State) : (enterBuild s).err = s.err := rfl
@[simp] theorem enterBuild_treeValid (s : State) : (enterBuild s).treeValid = s.treeValid := rfl
@[simp] theorem enterBuild_codesValid (s : State) : (enterBuild s).codesValid = s.codesValid := rfl
@[simp] theorem enterBuild_cmdovr (s : State) : (enterBuild s).cmdovr = s.cmdovr := rfl
@[simp] theorem enterBuild_errcode (s : State) : (enterBuild s).errcode = s.errcode := rfl
@[simp] theorem enterBuild_lastcmd (s : State) : (enterBuild s).lastcmd = s.lastcmd := rfl
@[simp] theorem enterBuild_params (s : State) : (enterBuild s).params = s.params := rfl
@[simp] theorem enterBuild_outCount (s : State) : (enterBuild s).outCount = s.outCount := rfl
@[simp] theorem enterBuild_outBits (s : State) : (enterBuild s).outBits = s.outBits := rfl
@[simp] theorem enterBuild_errInfo (s : State) : (enterBuild s).errInfo = s.errInfo := rfl
@[simp] theorem enterBuild_freq (s : State) : (enterBuild s).freq = s.freq := rfl
@[simp] theorem enterBuild_nodes (s : State) : (enterBuild s).nodes = withLeaves s.freq s.nodes := rfl
@[simp] theorem enterBuild_codes (s : State) : (enterBuild s).codes = s.codes := rfl
@[simp] theorem enterBuild_lat (s : State) : (enterBuild s).lat = s.lat := rfl
@[simp] theorem enterBuild_run (s : State) : (enterBuild s).run = .build (leafKeys s.freq) 0 := rfl
@[simp] theorem enterBuild_mem (s : State) : (enterBuild s).mem = s.mem := rfl
@[simp] theorem enterBuild_platform (s : State) : (enterBuild s).platform = s.platform := rfl
@[simp] theorem enterBuild_rstLow (s : State) : (enterBuild s).rstLow = s.rstLow := rfl
@[simp] theorem enterBuild_racedSrc (s : State) : (enterBuild s).racedSrc = s.racedSrc := rfl
@[simp] theorem enterBuild_racedDst (s : State) : (enterBuild s).racedDst = s.racedDst := rfl
@[simp] theorem enterBuild_unclean (s : State) : (enterBuild s).unclean = s.unclean := rfl
@[simp] theorem enterBuild_hostDirty (s : State) : (enterBuild s).hostDirty = s.hostDirty := rfl
@[simp] theorem enterBuild_hostStale (s : State) : (enterBuild s).hostStale = s.hostStale := rfl
@[simp] theorem enterBuild_unseen (s : State) : (enterBuild s).unseen = s.unseen := rfl
@[simp] theorem enterBuild_inputs (s : State) : (enterBuild s).inputs = s.inputs := rfl
@[simp] theorem enterBuild_response (s : State) : (enterBuild s).response = s.response := rfl
@[simp] theorem enterBuild_accesses (s : State) : (enterBuild s).accesses = s.accesses := rfl
@[simp] theorem enterBuild_draws (s : State) : (enterBuild s).draws = s.draws := rfl

/-! GENCODE begins (R160). -/

@[simp] theorem enterGencode_ie (s : State) : (enterGencode s).ie = s.ie := rfl
@[simp] theorem enterGencode_done (s : State) : (enterGencode s).done = s.done := rfl
@[simp] theorem enterGencode_err (s : State) : (enterGencode s).err = s.err := rfl
@[simp] theorem enterGencode_treeValid (s : State) : (enterGencode s).treeValid = s.treeValid := rfl
@[simp] theorem enterGencode_codesValid (s : State) : (enterGencode s).codesValid = s.codesValid := rfl
@[simp] theorem enterGencode_cmdovr (s : State) : (enterGencode s).cmdovr = s.cmdovr := rfl
@[simp] theorem enterGencode_errcode (s : State) : (enterGencode s).errcode = s.errcode := rfl
@[simp] theorem enterGencode_lastcmd (s : State) : (enterGencode s).lastcmd = s.lastcmd := rfl
@[simp] theorem enterGencode_params (s : State) : (enterGencode s).params = s.params := rfl
@[simp] theorem enterGencode_outCount (s : State) : (enterGencode s).outCount = s.outCount := rfl
@[simp] theorem enterGencode_outBits (s : State) : (enterGencode s).outBits = s.outBits := rfl
@[simp] theorem enterGencode_errInfo (s : State) : (enterGencode s).errInfo = s.errInfo := rfl
@[simp] theorem enterGencode_freq (s : State) : (enterGencode s).freq = s.freq := rfl
@[simp] theorem enterGencode_nodes (s : State) : (enterGencode s).nodes = s.nodes := rfl
@[simp] theorem enterGencode_codes (s : State) : (enterGencode s).codes = s.codes := rfl
@[simp] theorem enterGencode_lat (s : State) : (enterGencode s).lat = s.lat := rfl
@[simp] theorem enterGencode_run (s : State) : (enterGencode s).run = .gencode 0 := rfl
@[simp] theorem enterGencode_mem (s : State) : (enterGencode s).mem = s.mem := rfl
@[simp] theorem enterGencode_platform (s : State) : (enterGencode s).platform = s.platform := rfl
@[simp] theorem enterGencode_rstLow (s : State) : (enterGencode s).rstLow = s.rstLow := rfl
@[simp] theorem enterGencode_racedSrc (s : State) : (enterGencode s).racedSrc = s.racedSrc := rfl
@[simp] theorem enterGencode_racedDst (s : State) : (enterGencode s).racedDst = s.racedDst := rfl
@[simp] theorem enterGencode_unclean (s : State) : (enterGencode s).unclean = s.unclean := rfl
@[simp] theorem enterGencode_hostDirty (s : State) : (enterGencode s).hostDirty = s.hostDirty := rfl
@[simp] theorem enterGencode_hostStale (s : State) : (enterGencode s).hostStale = s.hostStale := rfl
@[simp] theorem enterGencode_unseen (s : State) : (enterGencode s).unseen = s.unseen := rfl
@[simp] theorem enterGencode_inputs (s : State) : (enterGencode s).inputs = s.inputs := rfl
@[simp] theorem enterGencode_response (s : State) : (enterGencode s).response = s.response := rfl
@[simp] theorem enterGencode_accesses (s : State) : (enterGencode s).accesses = s.accesses := rfl
@[simp] theorem enterGencode_draws (s : State) : (enterGencode s).draws = s.draws := rfl

/-! ENCODE begins (R170). -/

@[simp] theorem enterEncode_ie (s : State) : (enterEncode s).ie = s.ie := rfl
@[simp] theorem enterEncode_done (s : State) : (enterEncode s).done = s.done := rfl
@[simp] theorem enterEncode_err (s : State) : (enterEncode s).err = s.err := rfl
@[simp] theorem enterEncode_treeValid (s : State) : (enterEncode s).treeValid = s.treeValid := rfl
@[simp] theorem enterEncode_codesValid (s : State) : (enterEncode s).codesValid = s.codesValid := rfl
@[simp] theorem enterEncode_cmdovr (s : State) : (enterEncode s).cmdovr = s.cmdovr := rfl
@[simp] theorem enterEncode_errcode (s : State) : (enterEncode s).errcode = s.errcode := rfl
@[simp] theorem enterEncode_lastcmd (s : State) : (enterEncode s).lastcmd = s.lastcmd := rfl
@[simp] theorem enterEncode_params (s : State) : (enterEncode s).params = s.params := rfl
@[simp] theorem enterEncode_outCount (s : State) : (enterEncode s).outCount = s.outCount := rfl
@[simp] theorem enterEncode_outBits (s : State) : (enterEncode s).outBits = s.outBits := rfl
@[simp] theorem enterEncode_errInfo (s : State) : (enterEncode s).errInfo = s.errInfo := rfl
@[simp] theorem enterEncode_freq (s : State) : (enterEncode s).freq = s.freq := rfl
@[simp] theorem enterEncode_nodes (s : State) : (enterEncode s).nodes = s.nodes := rfl
@[simp] theorem enterEncode_codes (s : State) : (enterEncode s).codes = s.codes := rfl
@[simp] theorem enterEncode_lat (s : State) : (enterEncode s).lat = s.lat := rfl
@[simp] theorem enterEncode_run (s : State) : (enterEncode s).run = .encode 0 0 [] := rfl
@[simp] theorem enterEncode_mem (s : State) : (enterEncode s).mem = s.mem := rfl
@[simp] theorem enterEncode_platform (s : State) : (enterEncode s).platform = s.platform := rfl
@[simp] theorem enterEncode_rstLow (s : State) : (enterEncode s).rstLow = s.rstLow := rfl
@[simp] theorem enterEncode_racedSrc (s : State) : (enterEncode s).racedSrc = s.racedSrc := rfl
@[simp] theorem enterEncode_racedDst (s : State) : (enterEncode s).racedDst = s.racedDst := rfl
@[simp] theorem enterEncode_unclean (s : State) : (enterEncode s).unclean = s.unclean := rfl
@[simp] theorem enterEncode_hostDirty (s : State) : (enterEncode s).hostDirty = s.hostDirty := rfl
@[simp] theorem enterEncode_hostStale (s : State) : (enterEncode s).hostStale = s.hostStale := rfl
@[simp] theorem enterEncode_unseen (s : State) : (enterEncode s).unseen = s.unseen := rfl
@[simp] theorem enterEncode_inputs (s : State) : (enterEncode s).inputs = s.inputs := rfl
@[simp] theorem enterEncode_response (s : State) : (enterEncode s).response = s.response := rfl
@[simp] theorem enterEncode_accesses (s : State) : (enterEncode s).accesses = s.accesses := rfl
@[simp] theorem enterEncode_draws (s : State) : (enterEncode s).draws = s.draws := rfl

/-! ENCODE takes a source byte (R170). -/

@[simp] theorem takeSource_ie (k : Nat) (acc : Byte) (r : Byte) (s : State) : (takeSource k acc s r).ie = s.ie := rfl
@[simp] theorem takeSource_done (k : Nat) (acc : Byte) (r : Byte) (s : State) : (takeSource k acc s r).done = s.done := rfl
@[simp] theorem takeSource_err (k : Nat) (acc : Byte) (r : Byte) (s : State) : (takeSource k acc s r).err = s.err := rfl
@[simp] theorem takeSource_treeValid (k : Nat) (acc : Byte) (r : Byte) (s : State) : (takeSource k acc s r).treeValid = s.treeValid := rfl
@[simp] theorem takeSource_codesValid (k : Nat) (acc : Byte) (r : Byte) (s : State) : (takeSource k acc s r).codesValid = s.codesValid := rfl
@[simp] theorem takeSource_cmdovr (k : Nat) (acc : Byte) (r : Byte) (s : State) : (takeSource k acc s r).cmdovr = s.cmdovr := rfl
@[simp] theorem takeSource_errcode (k : Nat) (acc : Byte) (r : Byte) (s : State) : (takeSource k acc s r).errcode = s.errcode := rfl
@[simp] theorem takeSource_lastcmd (k : Nat) (acc : Byte) (r : Byte) (s : State) : (takeSource k acc s r).lastcmd = s.lastcmd := rfl
@[simp] theorem takeSource_params (k : Nat) (acc : Byte) (r : Byte) (s : State) : (takeSource k acc s r).params = s.params := rfl
@[simp] theorem takeSource_outCount (k : Nat) (acc : Byte) (r : Byte) (s : State) : (takeSource k acc s r).outCount = s.outCount := rfl
@[simp] theorem takeSource_outBits (k : Nat) (acc : Byte) (r : Byte) (s : State) : (takeSource k acc s r).outBits = s.outBits := rfl
@[simp] theorem takeSource_errInfo (k : Nat) (acc : Byte) (r : Byte) (s : State) : (takeSource k acc s r).errInfo = s.errInfo := rfl
@[simp] theorem takeSource_freq (k : Nat) (acc : Byte) (r : Byte) (s : State) : (takeSource k acc s r).freq = s.freq := rfl
@[simp] theorem takeSource_nodes (k : Nat) (acc : Byte) (r : Byte) (s : State) : (takeSource k acc s r).nodes = s.nodes := rfl
@[simp] theorem takeSource_codes (k : Nat) (acc : Byte) (r : Byte) (s : State) : (takeSource k acc s r).codes = s.codes := rfl
@[simp] theorem takeSource_lat (k : Nat) (acc : Byte) (r : Byte) (s : State) : (takeSource k acc s r).lat = s.lat := rfl
@[simp] theorem takeSource_run (k : Nat) (acc : Byte) (r : Byte) (s : State) : (takeSource k acc s r).run = .encode (k + 1) acc (codeAt s (symIndex r)) := rfl
@[simp] theorem takeSource_mem (k : Nat) (acc : Byte) (r : Byte) (s : State) : (takeSource k acc s r).mem = s.mem := rfl
@[simp] theorem takeSource_platform (k : Nat) (acc : Byte) (r : Byte) (s : State) : (takeSource k acc s r).platform = s.platform := rfl
@[simp] theorem takeSource_rstLow (k : Nat) (acc : Byte) (r : Byte) (s : State) : (takeSource k acc s r).rstLow = s.rstLow := rfl
@[simp] theorem takeSource_racedSrc (k : Nat) (acc : Byte) (r : Byte) (s : State) : (takeSource k acc s r).racedSrc = s.racedSrc := rfl
@[simp] theorem takeSource_racedDst (k : Nat) (acc : Byte) (r : Byte) (s : State) : (takeSource k acc s r).racedDst = s.racedDst := rfl
@[simp] theorem takeSource_unclean (k : Nat) (acc : Byte) (r : Byte) (s : State) : (takeSource k acc s r).unclean = s.unclean := rfl
@[simp] theorem takeSource_hostDirty (k : Nat) (acc : Byte) (r : Byte) (s : State) : (takeSource k acc s r).hostDirty = s.hostDirty := rfl
@[simp] theorem takeSource_hostStale (k : Nat) (acc : Byte) (r : Byte) (s : State) : (takeSource k acc s r).hostStale = s.hostStale := rfl
@[simp] theorem takeSource_unseen (k : Nat) (acc : Byte) (r : Byte) (s : State) : (takeSource k acc s r).unseen = s.unseen := rfl
@[simp] theorem takeSource_inputs (k : Nat) (acc : Byte) (r : Byte) (s : State) : (takeSource k acc s r).inputs = s.inputs := rfl
@[simp] theorem takeSource_response (k : Nat) (acc : Byte) (r : Byte) (s : State) : (takeSource k acc s r).response = s.response := rfl
@[simp] theorem takeSource_accesses (k : Nat) (acc : Byte) (r : Byte) (s : State) : (takeSource k acc s r).accesses = s.accesses := rfl
@[simp] theorem takeSource_draws (k : Nat) (acc : Byte) (r : Byte) (s : State) : (takeSource k acc s r).draws = s.draws := rfl

/-! DECODE begins (R190). -/

@[simp] theorem enterDecode_ie (s : State) : (enterDecode s).ie = s.ie := rfl
@[simp] theorem enterDecode_done (s : State) : (enterDecode s).done = s.done := rfl
@[simp] theorem enterDecode_err (s : State) : (enterDecode s).err = s.err := rfl
@[simp] theorem enterDecode_treeValid (s : State) : (enterDecode s).treeValid = s.treeValid := rfl
@[simp] theorem enterDecode_codesValid (s : State) : (enterDecode s).codesValid = s.codesValid := rfl
@[simp] theorem enterDecode_cmdovr (s : State) : (enterDecode s).cmdovr = s.cmdovr := rfl
@[simp] theorem enterDecode_errcode (s : State) : (enterDecode s).errcode = s.errcode := rfl
@[simp] theorem enterDecode_lastcmd (s : State) : (enterDecode s).lastcmd = s.lastcmd := rfl
@[simp] theorem enterDecode_params (s : State) : (enterDecode s).params = s.params := rfl
@[simp] theorem enterDecode_outCount (s : State) : (enterDecode s).outCount = s.outCount := rfl
@[simp] theorem enterDecode_outBits (s : State) : (enterDecode s).outBits = s.outBits := rfl
@[simp] theorem enterDecode_errInfo (s : State) : (enterDecode s).errInfo = s.errInfo := rfl
@[simp] theorem enterDecode_freq (s : State) : (enterDecode s).freq = s.freq := rfl
@[simp] theorem enterDecode_nodes (s : State) : (enterDecode s).nodes = s.nodes := rfl
@[simp] theorem enterDecode_codes (s : State) : (enterDecode s).codes = s.codes := rfl
@[simp] theorem enterDecode_lat (s : State) : (enterDecode s).lat = s.lat := rfl
@[simp] theorem enterDecode_run (s : State) : (enterDecode s).run = .decode none 0 := rfl
@[simp] theorem enterDecode_mem (s : State) : (enterDecode s).mem = s.mem := rfl
@[simp] theorem enterDecode_platform (s : State) : (enterDecode s).platform = s.platform := rfl
@[simp] theorem enterDecode_rstLow (s : State) : (enterDecode s).rstLow = s.rstLow := rfl
@[simp] theorem enterDecode_racedSrc (s : State) : (enterDecode s).racedSrc = s.racedSrc := rfl
@[simp] theorem enterDecode_racedDst (s : State) : (enterDecode s).racedDst = s.racedDst := rfl
@[simp] theorem enterDecode_unclean (s : State) : (enterDecode s).unclean = s.unclean := rfl
@[simp] theorem enterDecode_hostDirty (s : State) : (enterDecode s).hostDirty = s.hostDirty := rfl
@[simp] theorem enterDecode_hostStale (s : State) : (enterDecode s).hostStale = s.hostStale := rfl
@[simp] theorem enterDecode_unseen (s : State) : (enterDecode s).unseen = s.unseen := rfl
@[simp] theorem enterDecode_inputs (s : State) : (enterDecode s).inputs = s.inputs := rfl
@[simp] theorem enterDecode_response (s : State) : (enterDecode s).response = s.response := rfl
@[simp] theorem enterDecode_accesses (s : State) : (enterDecode s).accesses = s.accesses := rfl
@[simp] theorem enterDecode_draws (s : State) : (enterDecode s).draws = s.draws := rfl

/-! DECODE consumes a bit (R190). -/

@[simp] theorem consumeBit_ie (n : Nat) (cur : Byte) (s : State) : (consumeBit n s cur).ie = s.ie := rfl
@[simp] theorem consumeBit_done (n : Nat) (cur : Byte) (s : State) : (consumeBit n s cur).done = s.done := rfl
@[simp] theorem consumeBit_err (n : Nat) (cur : Byte) (s : State) : (consumeBit n s cur).err = s.err := rfl
@[simp] theorem consumeBit_treeValid (n : Nat) (cur : Byte) (s : State) : (consumeBit n s cur).treeValid = s.treeValid := rfl
@[simp] theorem consumeBit_codesValid (n : Nat) (cur : Byte) (s : State) : (consumeBit n s cur).codesValid = s.codesValid := rfl
@[simp] theorem consumeBit_cmdovr (n : Nat) (cur : Byte) (s : State) : (consumeBit n s cur).cmdovr = s.cmdovr := rfl
@[simp] theorem consumeBit_errcode (n : Nat) (cur : Byte) (s : State) : (consumeBit n s cur).errcode = s.errcode := rfl
@[simp] theorem consumeBit_lastcmd (n : Nat) (cur : Byte) (s : State) : (consumeBit n s cur).lastcmd = s.lastcmd := rfl
@[simp] theorem consumeBit_params (n : Nat) (cur : Byte) (s : State) : (consumeBit n s cur).params = s.params := rfl
@[simp] theorem consumeBit_outCount (n : Nat) (cur : Byte) (s : State) : (consumeBit n s cur).outCount = s.outCount := rfl
@[simp] theorem consumeBit_outBits (n : Nat) (cur : Byte) (s : State) : (consumeBit n s cur).outBits = s.outBits + 1 := rfl
@[simp] theorem consumeBit_errInfo (n : Nat) (cur : Byte) (s : State) : (consumeBit n s cur).errInfo = s.errInfo := rfl
@[simp] theorem consumeBit_freq (n : Nat) (cur : Byte) (s : State) : (consumeBit n s cur).freq = s.freq := rfl
@[simp] theorem consumeBit_nodes (n : Nat) (cur : Byte) (s : State) : (consumeBit n s cur).nodes = s.nodes := rfl
@[simp] theorem consumeBit_codes (n : Nat) (cur : Byte) (s : State) : (consumeBit n s cur).codes = s.codes := rfl
@[simp] theorem consumeBit_lat (n : Nat) (cur : Byte) (s : State) : (consumeBit n s cur).lat = s.lat := rfl
@[simp] theorem consumeBit_run (n : Nat) (cur : Byte) (s : State) : (consumeBit n s cur).run = .decode (some (childOf s.nodes n (streamBit cur s.outBits.toNat))) cur := rfl
@[simp] theorem consumeBit_mem (n : Nat) (cur : Byte) (s : State) : (consumeBit n s cur).mem = s.mem := rfl
@[simp] theorem consumeBit_platform (n : Nat) (cur : Byte) (s : State) : (consumeBit n s cur).platform = s.platform := rfl
@[simp] theorem consumeBit_rstLow (n : Nat) (cur : Byte) (s : State) : (consumeBit n s cur).rstLow = s.rstLow := rfl
@[simp] theorem consumeBit_racedSrc (n : Nat) (cur : Byte) (s : State) : (consumeBit n s cur).racedSrc = s.racedSrc := rfl
@[simp] theorem consumeBit_racedDst (n : Nat) (cur : Byte) (s : State) : (consumeBit n s cur).racedDst = s.racedDst := rfl
@[simp] theorem consumeBit_unclean (n : Nat) (cur : Byte) (s : State) : (consumeBit n s cur).unclean = s.unclean := rfl
@[simp] theorem consumeBit_hostDirty (n : Nat) (cur : Byte) (s : State) : (consumeBit n s cur).hostDirty = s.hostDirty := rfl
@[simp] theorem consumeBit_hostStale (n : Nat) (cur : Byte) (s : State) : (consumeBit n s cur).hostStale = s.hostStale := rfl
@[simp] theorem consumeBit_unseen (n : Nat) (cur : Byte) (s : State) : (consumeBit n s cur).unseen = s.unseen := rfl
@[simp] theorem consumeBit_inputs (n : Nat) (cur : Byte) (s : State) : (consumeBit n s cur).inputs = s.inputs := rfl
@[simp] theorem consumeBit_response (n : Nat) (cur : Byte) (s : State) : (consumeBit n s cur).response = s.response := rfl
@[simp] theorem consumeBit_accesses (n : Nat) (cur : Byte) (s : State) : (consumeBit n s cur).accesses = s.accesses := rfl
@[simp] theorem consumeBit_draws (n : Nat) (cur : Byte) (s : State) : (consumeBit n s cur).draws = s.draws := rfl

/-! DECODE has written a symbol (R190). -/

@[simp] theorem symbolDone_ie (cur : Byte) (s : State) : (symbolDone cur s).ie = s.ie := rfl
@[simp] theorem symbolDone_done (cur : Byte) (s : State) : (symbolDone cur s).done = s.done := rfl
@[simp] theorem symbolDone_err (cur : Byte) (s : State) : (symbolDone cur s).err = s.err := rfl
@[simp] theorem symbolDone_treeValid (cur : Byte) (s : State) : (symbolDone cur s).treeValid = s.treeValid := rfl
@[simp] theorem symbolDone_codesValid (cur : Byte) (s : State) : (symbolDone cur s).codesValid = s.codesValid := rfl
@[simp] theorem symbolDone_cmdovr (cur : Byte) (s : State) : (symbolDone cur s).cmdovr = s.cmdovr := rfl
@[simp] theorem symbolDone_errcode (cur : Byte) (s : State) : (symbolDone cur s).errcode = s.errcode := rfl
@[simp] theorem symbolDone_lastcmd (cur : Byte) (s : State) : (symbolDone cur s).lastcmd = s.lastcmd := rfl
@[simp] theorem symbolDone_params (cur : Byte) (s : State) : (symbolDone cur s).params = s.params := rfl
@[simp] theorem symbolDone_outCount (cur : Byte) (s : State) : (symbolDone cur s).outCount = s.outCount + 1 := rfl
@[simp] theorem symbolDone_outBits (cur : Byte) (s : State) : (symbolDone cur s).outBits = s.outBits := rfl
@[simp] theorem symbolDone_errInfo (cur : Byte) (s : State) : (symbolDone cur s).errInfo = s.errInfo := rfl
@[simp] theorem symbolDone_freq (cur : Byte) (s : State) : (symbolDone cur s).freq = s.freq := rfl
@[simp] theorem symbolDone_nodes (cur : Byte) (s : State) : (symbolDone cur s).nodes = s.nodes := rfl
@[simp] theorem symbolDone_codes (cur : Byte) (s : State) : (symbolDone cur s).codes = s.codes := rfl
@[simp] theorem symbolDone_lat (cur : Byte) (s : State) : (symbolDone cur s).lat = s.lat := rfl
@[simp] theorem symbolDone_run (cur : Byte) (s : State) : (symbolDone cur s).run = .decode none cur := rfl
@[simp] theorem symbolDone_mem (cur : Byte) (s : State) : (symbolDone cur s).mem = s.mem := rfl
@[simp] theorem symbolDone_platform (cur : Byte) (s : State) : (symbolDone cur s).platform = s.platform := rfl
@[simp] theorem symbolDone_rstLow (cur : Byte) (s : State) : (symbolDone cur s).rstLow = s.rstLow := rfl
@[simp] theorem symbolDone_racedSrc (cur : Byte) (s : State) : (symbolDone cur s).racedSrc = s.racedSrc := rfl
@[simp] theorem symbolDone_racedDst (cur : Byte) (s : State) : (symbolDone cur s).racedDst = s.racedDst := rfl
@[simp] theorem symbolDone_unclean (cur : Byte) (s : State) : (symbolDone cur s).unclean = s.unclean := rfl
@[simp] theorem symbolDone_hostDirty (cur : Byte) (s : State) : (symbolDone cur s).hostDirty = s.hostDirty := rfl
@[simp] theorem symbolDone_hostStale (cur : Byte) (s : State) : (symbolDone cur s).hostStale = s.hostStale := rfl
@[simp] theorem symbolDone_unseen (cur : Byte) (s : State) : (symbolDone cur s).unseen = s.unseen := rfl
@[simp] theorem symbolDone_inputs (cur : Byte) (s : State) : (symbolDone cur s).inputs = s.inputs := rfl
@[simp] theorem symbolDone_response (cur : Byte) (s : State) : (symbolDone cur s).response = s.response := rfl
@[simp] theorem symbolDone_accesses (cur : Byte) (s : State) : (symbolDone cur s).accesses = s.accesses := rfl
@[simp] theorem symbolDone_draws (cur : Byte) (s : State) : (symbolDone cur s).draws = s.draws := rfl

/-! A host write to STATUS (R23). -/

@[simp] theorem writeStatus_ie (v : Word) (s : State) : (writeStatus v s).ie = s.ie := rfl
@[simp] theorem writeStatus_done (v : Word) (s : State) : (writeStatus v s).done = (s.done && !v.getLsbD 1) := rfl
@[simp] theorem writeStatus_err (v : Word) (s : State) : (writeStatus v s).err = s.err := rfl
@[simp] theorem writeStatus_treeValid (v : Word) (s : State) : (writeStatus v s).treeValid = s.treeValid := rfl
@[simp] theorem writeStatus_codesValid (v : Word) (s : State) : (writeStatus v s).codesValid = s.codesValid := rfl
@[simp] theorem writeStatus_cmdovr (v : Word) (s : State) : (writeStatus v s).cmdovr = (s.cmdovr && !v.getLsbD 5) := rfl
@[simp] theorem writeStatus_errcode (v : Word) (s : State) : (writeStatus v s).errcode = s.errcode := rfl
@[simp] theorem writeStatus_lastcmd (v : Word) (s : State) : (writeStatus v s).lastcmd = s.lastcmd := rfl
@[simp] theorem writeStatus_params (v : Word) (s : State) : (writeStatus v s).params = s.params := rfl
@[simp] theorem writeStatus_outCount (v : Word) (s : State) : (writeStatus v s).outCount = s.outCount := rfl
@[simp] theorem writeStatus_outBits (v : Word) (s : State) : (writeStatus v s).outBits = s.outBits := rfl
@[simp] theorem writeStatus_errInfo (v : Word) (s : State) : (writeStatus v s).errInfo = s.errInfo := rfl
@[simp] theorem writeStatus_freq (v : Word) (s : State) : (writeStatus v s).freq = s.freq := rfl
@[simp] theorem writeStatus_nodes (v : Word) (s : State) : (writeStatus v s).nodes = s.nodes := rfl
@[simp] theorem writeStatus_codes (v : Word) (s : State) : (writeStatus v s).codes = s.codes := rfl
@[simp] theorem writeStatus_lat (v : Word) (s : State) : (writeStatus v s).lat = s.lat := rfl
@[simp] theorem writeStatus_run (v : Word) (s : State) : (writeStatus v s).run = s.run := rfl
@[simp] theorem writeStatus_mem (v : Word) (s : State) : (writeStatus v s).mem = s.mem := rfl
@[simp] theorem writeStatus_platform (v : Word) (s : State) : (writeStatus v s).platform = s.platform := rfl
@[simp] theorem writeStatus_rstLow (v : Word) (s : State) : (writeStatus v s).rstLow = s.rstLow := rfl
@[simp] theorem writeStatus_racedSrc (v : Word) (s : State) : (writeStatus v s).racedSrc = s.racedSrc := rfl
@[simp] theorem writeStatus_racedDst (v : Word) (s : State) : (writeStatus v s).racedDst = s.racedDst := rfl
@[simp] theorem writeStatus_unclean (v : Word) (s : State) : (writeStatus v s).unclean = s.unclean := rfl
@[simp] theorem writeStatus_hostDirty (v : Word) (s : State) : (writeStatus v s).hostDirty = s.hostDirty := rfl
@[simp] theorem writeStatus_hostStale (v : Word) (s : State) : (writeStatus v s).hostStale = s.hostStale := rfl
@[simp] theorem writeStatus_unseen (v : Word) (s : State) : (writeStatus v s).unseen = s.unseen := rfl
@[simp] theorem writeStatus_inputs (v : Word) (s : State) : (writeStatus v s).inputs = s.inputs := rfl
@[simp] theorem writeStatus_response (v : Word) (s : State) : (writeStatus v s).response = s.response := rfl
@[simp] theorem writeStatus_accesses (v : Word) (s : State) : (writeStatus v s).accesses = s.accesses := rfl
@[simp] theorem writeStatus_draws (v : Word) (s : State) : (writeStatus v s).draws = s.draws := rfl

/-! The host has read STATUS (R72). -/

@[simp] theorem noteStatus_ie (s : State) : (noteStatus s).ie = s.ie := rfl
@[simp] theorem noteStatus_done (s : State) : (noteStatus s).done = s.done := rfl
@[simp] theorem noteStatus_err (s : State) : (noteStatus s).err = s.err := rfl
@[simp] theorem noteStatus_treeValid (s : State) : (noteStatus s).treeValid = s.treeValid := rfl
@[simp] theorem noteStatus_codesValid (s : State) : (noteStatus s).codesValid = s.codesValid := rfl
@[simp] theorem noteStatus_cmdovr (s : State) : (noteStatus s).cmdovr = s.cmdovr := rfl
@[simp] theorem noteStatus_errcode (s : State) : (noteStatus s).errcode = s.errcode := rfl
@[simp] theorem noteStatus_lastcmd (s : State) : (noteStatus s).lastcmd = s.lastcmd := rfl
@[simp] theorem noteStatus_params (s : State) : (noteStatus s).params = s.params := rfl
@[simp] theorem noteStatus_outCount (s : State) : (noteStatus s).outCount = s.outCount := rfl
@[simp] theorem noteStatus_outBits (s : State) : (noteStatus s).outBits = s.outBits := rfl
@[simp] theorem noteStatus_errInfo (s : State) : (noteStatus s).errInfo = s.errInfo := rfl
@[simp] theorem noteStatus_freq (s : State) : (noteStatus s).freq = s.freq := rfl
@[simp] theorem noteStatus_nodes (s : State) : (noteStatus s).nodes = s.nodes := rfl
@[simp] theorem noteStatus_codes (s : State) : (noteStatus s).codes = s.codes := rfl
@[simp] theorem noteStatus_lat (s : State) : (noteStatus s).lat = s.lat := rfl
@[simp] theorem noteStatus_run (s : State) : (noteStatus s).run = s.run := rfl
@[simp] theorem noteStatus_mem (s : State) : (noteStatus s).mem = s.mem := rfl
@[simp] theorem noteStatus_platform (s : State) : (noteStatus s).platform = s.platform := rfl
@[simp] theorem noteStatus_rstLow (s : State) : (noteStatus s).rstLow = s.rstLow := rfl
@[simp] theorem noteStatus_racedSrc (s : State) : (noteStatus s).racedSrc = s.racedSrc := rfl
@[simp] theorem noteStatus_racedDst (s : State) : (noteStatus s).racedDst = s.racedDst := rfl
@[simp] theorem noteStatus_unclean (s : State) : (noteStatus s).unclean = s.unclean := rfl
@[simp] theorem noteStatus_hostDirty (s : State) : (noteStatus s).hostDirty = s.hostDirty := rfl
@[simp] theorem noteStatus_hostStale (s : State) : (noteStatus s).hostStale = s.hostStale := rfl
@[simp] theorem noteStatus_unseen (s : State) : (noteStatus s).unseen = if !s.rstLow && s.done then [] else s.unseen := rfl
@[simp] theorem noteStatus_inputs (s : State) : (noteStatus s).inputs = s.inputs := rfl
@[simp] theorem noteStatus_response (s : State) : (noteStatus s).response = s.response := rfl
@[simp] theorem noteStatus_accesses (s : State) : (noteStatus s).accesses = s.accesses := rfl
@[simp] theorem noteStatus_draws (s : State) : (noteStatus s).draws = s.draws := rfl

/-! A host whose action waited has read DONE = 1 (R72, R97). -/

@[simp] theorem awaited_ie (due : Due) (s : State) : (awaited due s).ie = s.ie := rfl
@[simp] theorem awaited_done (due : Due) (s : State) : (awaited due s).done = s.done := rfl
@[simp] theorem awaited_err (due : Due) (s : State) : (awaited due s).err = s.err := rfl
@[simp] theorem awaited_treeValid (due : Due) (s : State) : (awaited due s).treeValid = s.treeValid := rfl
@[simp] theorem awaited_codesValid (due : Due) (s : State) : (awaited due s).codesValid = s.codesValid := rfl
@[simp] theorem awaited_cmdovr (due : Due) (s : State) : (awaited due s).cmdovr = s.cmdovr := rfl
@[simp] theorem awaited_errcode (due : Due) (s : State) : (awaited due s).errcode = s.errcode := rfl
@[simp] theorem awaited_lastcmd (due : Due) (s : State) : (awaited due s).lastcmd = s.lastcmd := rfl
@[simp] theorem awaited_params (due : Due) (s : State) : (awaited due s).params = s.params := rfl
@[simp] theorem awaited_outCount (due : Due) (s : State) : (awaited due s).outCount = s.outCount := rfl
@[simp] theorem awaited_outBits (due : Due) (s : State) : (awaited due s).outBits = s.outBits := rfl
@[simp] theorem awaited_errInfo (due : Due) (s : State) : (awaited due s).errInfo = s.errInfo := rfl
@[simp] theorem awaited_freq (due : Due) (s : State) : (awaited due s).freq = s.freq := rfl
@[simp] theorem awaited_nodes (due : Due) (s : State) : (awaited due s).nodes = s.nodes := rfl
@[simp] theorem awaited_codes (due : Due) (s : State) : (awaited due s).codes = s.codes := rfl
@[simp] theorem awaited_lat (due : Due) (s : State) : (awaited due s).lat = s.lat := rfl
@[simp] theorem awaited_run (due : Due) (s : State) : (awaited due s).run = s.run := rfl
@[simp] theorem awaited_mem (due : Due) (s : State) : (awaited due s).mem = s.mem := rfl
@[simp] theorem awaited_platform (due : Due) (s : State) : (awaited due s).platform = s.platform := rfl
@[simp] theorem awaited_rstLow (due : Due) (s : State) : (awaited due s).rstLow = s.rstLow := rfl
@[simp] theorem awaited_racedSrc (due : Due) (s : State) : (awaited due s).racedSrc = s.racedSrc := rfl
@[simp] theorem awaited_racedDst (due : Due) (s : State) : (awaited due s).racedDst = s.racedDst := rfl
@[simp] theorem awaited_unclean (due : Due) (s : State) : (awaited due s).unclean = s.unclean := rfl
@[simp] theorem awaited_hostDirty (due : Due) (s : State) : (awaited due s).hostDirty = s.hostDirty := rfl
@[simp] theorem awaited_hostStale (due : Due) (s : State) : (awaited due s).hostStale = s.hostStale := rfl
@[simp] theorem awaited_unseen (due : Due) (s : State) : (awaited due s).unseen = match due with | .after _ => s.unseen | .during _ => s.unseen | .wait => [] | .waitOk => [] := rfl
@[simp] theorem awaited_inputs (due : Due) (s : State) : (awaited due s).inputs = s.inputs := rfl
@[simp] theorem awaited_response (due : Due) (s : State) : (awaited due s).response = s.response := rfl
@[simp] theorem awaited_accesses (due : Due) (s : State) : (awaited due s).accesses = s.accesses := rfl
@[simp] theorem awaited_draws (due : Due) (s : State) : (awaited due s).draws = s.draws := rfl

/-! The host is about to write CMD (R31). -/

@[simp] theorem withCmdWrite_ie (lanes : List Byte) (s : State) : (withCmdWrite lanes s).ie = s.ie := rfl
@[simp] theorem withCmdWrite_done (lanes : List Byte) (s : State) : (withCmdWrite lanes s).done = s.done := rfl
@[simp] theorem withCmdWrite_err (lanes : List Byte) (s : State) : (withCmdWrite lanes s).err = s.err := rfl
@[simp] theorem withCmdWrite_treeValid (lanes : List Byte) (s : State) : (withCmdWrite lanes s).treeValid = s.treeValid := rfl
@[simp] theorem withCmdWrite_codesValid (lanes : List Byte) (s : State) : (withCmdWrite lanes s).codesValid = s.codesValid := rfl
@[simp] theorem withCmdWrite_cmdovr (lanes : List Byte) (s : State) : (withCmdWrite lanes s).cmdovr = s.cmdovr := rfl
@[simp] theorem withCmdWrite_errcode (lanes : List Byte) (s : State) : (withCmdWrite lanes s).errcode = s.errcode := rfl
@[simp] theorem withCmdWrite_lastcmd (lanes : List Byte) (s : State) : (withCmdWrite lanes s).lastcmd = s.lastcmd := rfl
@[simp] theorem withCmdWrite_params (lanes : List Byte) (s : State) : (withCmdWrite lanes s).params = s.params := rfl
@[simp] theorem withCmdWrite_outCount (lanes : List Byte) (s : State) : (withCmdWrite lanes s).outCount = s.outCount := rfl
@[simp] theorem withCmdWrite_outBits (lanes : List Byte) (s : State) : (withCmdWrite lanes s).outBits = s.outBits := rfl
@[simp] theorem withCmdWrite_errInfo (lanes : List Byte) (s : State) : (withCmdWrite lanes s).errInfo = s.errInfo := rfl
@[simp] theorem withCmdWrite_freq (lanes : List Byte) (s : State) : (withCmdWrite lanes s).freq = s.freq := rfl
@[simp] theorem withCmdWrite_nodes (lanes : List Byte) (s : State) : (withCmdWrite lanes s).nodes = s.nodes := rfl
@[simp] theorem withCmdWrite_codes (lanes : List Byte) (s : State) : (withCmdWrite lanes s).codes = s.codes := rfl
@[simp] theorem withCmdWrite_lat (lanes : List Byte) (s : State) : (withCmdWrite lanes s).lat = s.lat := rfl
@[simp] theorem withCmdWrite_run (lanes : List Byte) (s : State) : (withCmdWrite lanes s).run = s.run := rfl
@[simp] theorem withCmdWrite_mem (lanes : List Byte) (s : State) : (withCmdWrite lanes s).mem = s.mem := rfl
@[simp] theorem withCmdWrite_platform (lanes : List Byte) (s : State) : (withCmdWrite lanes s).platform = s.platform := rfl
@[simp] theorem withCmdWrite_rstLow (lanes : List Byte) (s : State) : (withCmdWrite lanes s).rstLow = false := rfl
@[simp] theorem withCmdWrite_racedSrc (lanes : List Byte) (s : State) : (withCmdWrite lanes s).racedSrc = s.racedSrc := rfl
@[simp] theorem withCmdWrite_racedDst (lanes : List Byte) (s : State) : (withCmdWrite lanes s).racedDst = s.racedDst := rfl
@[simp] theorem withCmdWrite_unclean (lanes : List Byte) (s : State) : (withCmdWrite lanes s).unclean = s.unclean := rfl
@[simp] theorem withCmdWrite_hostDirty (lanes : List Byte) (s : State) : (withCmdWrite lanes s).hostDirty = s.hostDirty := rfl
@[simp] theorem withCmdWrite_hostStale (lanes : List Byte) (s : State) : (withCmdWrite lanes s).hostStale = s.hostStale := rfl
@[simp] theorem withCmdWrite_unseen (lanes : List Byte) (s : State) : (withCmdWrite lanes s).unseen = s.unseen := rfl
@[simp] theorem withCmdWrite_inputs (lanes : List Byte) (s : State) : (withCmdWrite lanes s).inputs = { due := .after 0, act := .write (cmdAddr s.platform) lanes } :: s.inputs := rfl
@[simp] theorem withCmdWrite_response (lanes : List Byte) (s : State) : (withCmdWrite lanes s).response = s.response := rfl
@[simp] theorem withCmdWrite_accesses (lanes : List Byte) (s : State) : (withCmdWrite lanes s).accesses = s.accesses := rfl
@[simp] theorem withCmdWrite_draws (lanes : List Byte) (s : State) : (withCmdWrite lanes s).draws = s.draws := rfl

/-! The phase bit, by phase (R24, R36). -/

@[simp] theorem busy_eq_false_iff (s : State) : busy s = false ↔ s.run = .idle := by
  unfold busy; split <;> simp_all

@[simp] theorem busy_eq_true_iff (s : State) : busy s = true ↔ s.run ≠ .idle := by
  unfold busy; split <;> simp_all

end Sys2Proof.Machine
end

