-- ==== Sys2Proof/Laws/Memory.lean ====
section
/-! SUPPORT. The laws of data memory (spec/20_memory.md R64): a read after a write, every other byte alone, the canonical
form kept, and what a list of scrambled bytes leaves (R74). -/

namespace Sys2Proof.Machine

theorem memRead_memWrite_same (m : List Host.Cell) (a : Nat) (v : Byte) (hm : m.Pairwise (fun c d => c.1 < d.1)) :
    memRead (memWrite m a v) a = v := by
  induction m with
  | nil => by_cases hv : v = Config.unwritten <;> simp [memWrite, memRead, hv]
  | cons c rest ih =>
    obtain ⟨b, w⟩ := c
    have hrest := (List.pairwise_cons.mp hm).2
    have habove : ∀ d ∈ rest, b < d.1 := (List.pairwise_cons.mp hm).1
    have unlisted : ∀ l : List Host.Cell, (∀ d ∈ l, a < d.1) → memRead l a = Config.unwritten := by
      intro l hl
      induction l with
      | nil => rfl
      | cons d l ihl =>
        have := hl d (by simp)
        simp only [memRead]
        rw [if_neg (by omega)]
        exact ihl (fun e he => hl e (by simp [he]))
    by_cases h1 : b < a
    · simp [memWrite, h1, memRead, Nat.ne_of_lt h1, ih hrest]
    · by_cases h2 : b = a
      · subst h2
        by_cases hv : v = Config.unwritten
        · simp [memWrite, hv, unlisted rest habove]
        · simp [memWrite, hv, memRead]
      · by_cases hv : v = Config.unwritten
        · have : memRead ((b, w) :: rest) a = Config.unwritten :=
            unlisted _ (by
              intro d hd
              rcases List.mem_cons.mp hd with rfl | hd
              · simp only; omega
              · have := habove d hd; omega)
          simp [memWrite, h1, h2, hv, this]
        · simp [memWrite, h1, h2, hv, memRead]

theorem memRead_memWrite_other (m : List Host.Cell) (a x : Nat) (v : Byte) (hx : x ≠ a)
    (hm : m.Pairwise (fun c d => c.1 < d.1)) : memRead (memWrite m a v) x = memRead m x := by
  induction m with
  | nil => by_cases hv : v = Config.unwritten <;> simp [memWrite, memRead, hv, hx.symm]
  | cons c rest ih =>
    obtain ⟨b, w⟩ := c
    have hrest := (List.pairwise_cons.mp hm).2
    simp only [memWrite]
    split
    · simp only [memRead, ih hrest]
    · split
      · rename_i h2
        subst h2
        split <;> simp [memRead, hx.symm]
      · split <;> simp [memRead, hx.symm]

/-- The keys of a memory after a write are its keys before, and the address written. -/
theorem key_of_mem_memWrite (m : List Host.Cell) (a : Nat) (v : Byte) (c : Host.Cell) (hc : c ∈ memWrite m a v) :
    c ∈ m ∨ (c = (a, v) ∧ v ≠ Config.unwritten) := by
  induction m with
  | nil =>
    simp only [memWrite] at hc
    split at hc
    · simp at hc
    · exact .inr ⟨by simpa using hc, ‹_›⟩
  | cons d rest ih =>
    obtain ⟨b, w⟩ := d
    simp only [memWrite] at hc
    split at hc
    · rcases List.mem_cons.mp hc with h | h
      · exact .inl (by simp [h])
      · rcases ih h with h' | h'
        · exact .inl (by simp [h'])
        · exact .inr h'
    · split at hc
      · split at hc
        · exact .inl (by simp [hc])
        · rcases List.mem_cons.mp hc with h | h
          · exact .inr ⟨h, ‹_›⟩
          · exact .inl (by simp [h])
      · split at hc
        · exact .inl hc
        · rcases List.mem_cons.mp hc with h | h
          · exact .inr ⟨h, ‹_›⟩
          · exact .inl h

theorem memWrite_sorted (m : List Host.Cell) (a : Nat) (v : Byte) (hm : m.Pairwise (fun c d => c.1 < d.1)) :
    (memWrite m a v).Pairwise (fun c d => c.1 < d.1) := by
  induction m with
  | nil => simp only [memWrite]; split <;> simp
  | cons c rest ih =>
    obtain ⟨b, w⟩ := c
    obtain ⟨habove, hrest⟩ := List.pairwise_cons.mp hm
    simp only [memWrite]
    split
    · rename_i h1
      refine List.pairwise_cons.mpr ⟨?_, ih hrest⟩
      intro d hd
      rcases key_of_mem_memWrite rest a v d hd with h | ⟨rfl, _⟩
      · exact habove d h
      · exact h1
    · split
      · rename_i h1 h2
        subst h2
        split
        · exact hrest
        · exact List.pairwise_cons.mpr ⟨habove, hrest⟩
      · split
        · exact hm
        · refine List.pairwise_cons.mpr ⟨?_, hm⟩
          intro d hd
          rcases List.mem_cons.mp hd with rfl | hd
          · simp only; omega
          · have := habove d hd; simp only; omega

/-- Every write inside the data space keeps the canonical form. -/
theorem memWrite_wf (m : List Host.Cell) (a : Nat) (v : Byte) (ha : a < Config.dataSpace) (hm : memWf m) :
    memWf (memWrite m a v) := by
  refine ⟨memWrite_sorted m a v hm.1, ?_⟩
  intro c hc
  rcases key_of_mem_memWrite m a v c hc with h | ⟨rfl, hv⟩
  · exact hm.2 c h
  · exact ⟨hv, ha⟩

theorem memWf_nil : memWf [] := by decide

theorem scrambled_wf (as : List Nat) (m : List Host.Cell) (n : Nat) (ha : ∀ a ∈ as, a < Config.dataSpace)
    (hm : memWf m) : memWf (scrambled as m n) := by
  induction as generalizing m n with
  | nil => exact hm
  | cons a as ih =>
    exact ih _ _ (fun b hb => ha b (by simp [hb])) (memWrite_wf m a _ (ha a (by simp)) hm)

theorem memRead_scrambled_other (as : List Nat) (m : List Host.Cell) (n x : Nat) (hx : x ∉ as)
    (hm : m.Pairwise (fun c d => c.1 < d.1)) : memRead (scrambled as m n) x = memRead m x := by
  induction as generalizing m n with
  | nil => rfl
  | cons a as ih =>
    have hne : x ≠ a := fun h => hx (by simp [h])
    rw [scrambled, ih _ _ (fun h => hx (by simp [h])) (memWrite_sorted m a _ hm), memRead_memWrite_other m a x _ hne hm]

/-- R74: a byte that raced holds a free value. -/
theorem memRead_scrambled_mem (as : List Nat) (m : List Host.Cell) (n x : Nat) (hx : x ∈ as)
    (hm : m.Pairwise (fun c d => c.1 < d.1)) : ∃ j, memRead (scrambled as m n) x = Config.freeByte j := by
  induction as generalizing m n with
  | nil => simp at hx
  | cons a as ih =>
    have hs := memWrite_sorted m a (Config.freeByte n) hm
    by_cases h : x ∈ as
    · exact ih _ _ h hs
    · obtain rfl : x = a := by simpa [h] using hx
      exact ⟨n, by rw [scrambled, memRead_scrambled_other as _ _ x h hs, memRead_memWrite_same m x _ hm]⟩

end Sys2Proof.Machine
end

