-- ==== Sys2Proof/Laws/Engine.lean ====
section
/-! SUPPORT. What the shared operations of the engine can do, said once: the response to a data access, one step, a run of
steps, the issue of a command, and one step of the machine. -/

namespace Sys2Proof.Machine

/-- R65: everything an engine read can lead to: BUS_ERROR, or the command goes on with a byte, which is the one in memory
unless a free value was drawn. -/
theorem respondRead_cases {t u : State} {a : Nat} {k : State → Byte → State} (h : respondRead t a k = some u) :
    (failsRead t a ∧ u = raiseError .busError (BitVec.ofNat 32 a) (logged (.read a) t)) ∨
    (u = k (drawn (logged (.read a) t)) (Config.freeByte t.draws)) ∨
    ((kindAt t.platform a = .memory ∨ kindAt t.platform a = .writeError) ∧ clouded t a = false ∧
      u = k (logged (.read a) t) (memRead t.mem a)) := by
  unfold respondRead at h
  cases hk : kindAt t.platform a <;> simp only [hk] at h
  case memory =>
    split at h <;> rename_i hc
    · exact .inr (.inl (by simpa using h.symm))
    · exact .inr (.inr ⟨.inl rfl, by simpa using hc, by simpa using h.symm⟩)
  case readError => exact .inl ⟨.inl hk, by simpa using h.symm⟩
  case writeError =>
    split at h <;> rename_i hc
    · exact .inr (.inl (by simpa using h.symm))
    · exact .inr (.inr ⟨.inr rfl, by simpa using hc, by simpa using h.symm⟩)
  case hole => exact .inl ⟨.inr hk, by simpa using h.symm⟩
  case device => exact .inr (.inl (by simpa using h.symm))
  case silent => simp at h

/-- R65: everything an engine write can lead to: BUS_ERROR, with any byte left where memory lies, or the command goes on
with the byte written, or handed to a device. -/
theorem respondWrite_cases {t u : State} {a : Nat} {v : Byte} {k : State → State} (h : respondWrite t a v k = some u) :
    (kindAt t.platform a = .hole ∧ u = raiseError .busError (BitVec.ofNat 32 a) (logged (.write a v) t)) ∨
    (kindAt t.platform a = .writeError ∧
      u = raiseError .busError (BitVec.ofNat 32 a)
        (drawn (stored a (Config.freeByte t.draws) (logged (.write a v) t)))) ∨
    (kindAt t.platform a = .device ∧ u = k (logged (.write a v) t)) ∨
    (plainWrite t a ∧ u = k (stored a v (logged (.write a v) t))) := by
  unfold respondWrite at h
  cases hk : kindAt t.platform a <;> simp only [hk] at h
  case memory => exact .inr (.inr (.inr ⟨.inl hk, by simpa using h.symm⟩))
  case readError => exact .inr (.inr (.inr ⟨.inr hk, by simpa using h.symm⟩))
  case writeError => exact .inr (.inl ⟨rfl, by simpa using h.symm⟩)
  case hole => exact .inl ⟨rfl, by simpa using h.symm⟩
  case device => exact .inr (.inr (.inl ⟨rfl, by simpa using h.symm⟩))
  case silent => simp at h

/-- A read of plain memory answers with the byte there when no host write of it races and its source was clean at the
acceptance. -/
theorem respondRead_plain {t : State} {a : Nat} (k : State → Byte → State)
    (hk : kindAt t.platform a = .memory ∨ kindAt t.platform a = .writeError) (hraced : a ∉ t.racedSrc)
    (hahead : storeAhead t t.inputs a = false) (hclean : t.platform.coherent = true ∨ a ∉ t.unclean) :
    respondRead t a k = some (k (logged (.read a) t) (memRead t.mem a)) := by
  have hc : clouded t a = false := by
    rcases hclean with h | h <;> simp [clouded, hraced, hahead, h]
  unfold respondRead
  rcases hk with hk | hk <;> simp [hk, hc]

theorem respondRead_fails {t : State} {a : Nat} (k : State → Byte → State) (h : failsRead t a) :
    respondRead t a k = some (raiseError .busError (BitVec.ofNat 32 a) (logged (.read a) t)) := by
  unfold respondRead
  rcases h with hk | hk <;> simp [hk]

theorem respondWrite_plain {t : State} {a : Nat} (v : Byte) (k : State → State) (h : plainWrite t a) :
    respondWrite t a v k = some (k (stored a v (logged (.write a v) t))) := by
  unfold respondWrite
  rcases h with hk | hk <;> simp [hk]

/-- With the host waiting for the command, nothing comes while it runs. -/
theorem duringAhead_of_undisturbed {s : State} (h : undisturbed s = true) (u : State) :
    duringAhead u s.inputs = false := by
  unfold undisturbed at h
  cases hs : s.inputs with
  | nil => rfl
  | cons i rest => simp [hs] at h; simp [duringAhead, h]

/-- A host write that races is followed by, or is, an action that is due while the command runs. -/
theorem storeAhead_of_not_duringAhead {s : State} {inputs : List Input} (h : duringAhead s inputs = false) (a : Nat) :
    storeAhead s inputs a = false := by
  cases inputs with
  | nil => rfl
  | cons i rest => simp [storeAhead, h]

/-- With the host waiting for the command, no host write is ahead. -/
theorem storeAhead_of_undisturbed {s : State} (h : undisturbed s = true) (u : State) (a : Nat) :
    storeAhead u s.inputs a = false := storeAhead_of_not_duringAhead (duringAhead_of_undisturbed h u) a

/-- What comes while the running command runs depends on that command and on the platform alone. -/
theorem duringAhead_congr {s t : State} (hp : t.platform = s.platform)
    (hr : runningInstr t.run = runningInstr s.run) (hl : t.lat = s.lat) (inputs : List Input) :
    duringAhead t inputs = duringAhead s inputs := by
  have hsrc : ∀ act, storesToSource t act = storesToSource s act := fun act => by
    cases act <;> simp [storesToSource, inSource, hr, hl]
  have hstall : mayStall t = mayStall s := by simp [mayStall, hp, hr, hl]
  have hcome : ∀ i, comesDuring t i = comesDuring s i := fun i => by simp only [comesDuring, hsrc, hstall]
  induction inputs with
  | nil => rfl
  | cons i rest ih => simp only [duringAhead, hcome, hp, ih]

/-- R121: a command whose ranges hold a byte that never answers may never end. -/
theorem mayStall_of_silent {s : State} {a : Nat} (h : inSource s a = true ∨ inDest s a = true)
    (hk : kindAt s.platform a = .silent) : mayStall s = true := by
  unfold kindAt at hk
  split at hk
  · rename_i r hr
    have hin := List.find?_some hr
    have hmem := List.mem_of_find?_eq_some hr
    unfold inSource inDest at h
    unfold mayStall
    cases hc : runningInstr s.run with
    | none => simp [hc] at h
    | some i =>
      simp only [hc, inRange, decide_eq_true_eq] at h hin
      refine List.any_eq_true.mpr ⟨r, hmem, ?_⟩
      simp only [hk, beq_self_eq_true, Bool.true_and, Bool.or_eq_true, overlap, decide_eq_true_eq]
      omega
  · cases hk

/-- R74: every store a running command's source meets while it runs is ahead of the reads before it. -/
theorem storeAhead_of_head {s : State} {due : Due} {a : Nat} {v : Byte} {rest : List Input}
    (h : duringAhead s ({ due := due, act := .store a v } :: rest) = true) :
    storeAhead s ({ due := due, act := .store a v } :: rest) a = true := by
  simp [storeAhead, h, storesTo]

/-- One step of the engine: a step without an access, or the response to the access the running command makes. -/
theorem engineStep_cases {s u : State} (h : engineStep s = some u) :
    move s = .advance u ∨
    (∃ t a k, move s = .read t a k ∧ respondRead t a k = some u) ∨
    (∃ t a v k, move s = .write t a v k ∧ respondWrite t a v k = some u) := by
  unfold engineStep at h
  cases hm : move s with
  | rest => simp [hm] at h
  | advance t => exact .inl (by simp only [hm, Option.some.injEq] at h; rw [h])
  | read t a k => exact .inr (.inl ⟨t, a, k, rfl, by simpa only [hm] using h⟩)
  | write t a v k => exact .inr (.inr ⟨t, a, v, k, rfl, by simpa only [hm] using h⟩)

theorem engineStep_idle {s : State} (h : s.run = .idle) : engineStep s = none := by
  simp [engineStep, move, h]

theorem runEngine_idle {s : State} (n : Nat) (h : s.run = .idle) : runEngine n s = s := by
  cases n <;> simp [runEngine, engineStep_idle h]

theorem runHeld_idle {s : State} (n : Nat) (h : s.run = .idle) : runHeld n s = s := by
  cases n <;> simp [runHeld, engineStep_idle h]

theorem settle_idle {s : State} (h : s.run = .idle) : settle s = s := by
  unfold settle
  split
  · exact runHeld_idle _ h
  · exact runEngine_idle _ h

/-- Where the host's next action arrives before the engine's next step, the engine takes none. -/
theorem settle_arrivesNow {s : State} (h : arrivesNow s = true) : settle s = s := by
  have hw : engineWindow s = 0 := by
    unfold arrivesNow at h
    unfold engineWindow
    cases hs : s.inputs with
    | nil => simp [hs] at h
    | cons i rest =>
      obtain ⟨due, act⟩ := i
      simp only [hs, Bool.or_eq_true, beq_iff_eq, Bool.and_eq_true, Bool.not_eq_true'] at h
      rcases h with rfl | ⟨rfl, hact⟩
      · rfl
      · have hstore : storesToSource s act = false := by cases act <;> simp_all [isStore, storesToSource]
        simp [hstore]
  simp [settle, hw, runHeld, runEngine]

/-- With the host waiting for the command, the engine takes all the steps its window has. -/
theorem settle_undisturbed {s : State} (h : undisturbed s = true) : settle s = runEngine (stepBound s) s := by
  have hw : engineWindow s = stepBound s := by
    unfold undisturbed at h
    unfold engineWindow
    split
    · rfl
    · rename_i i rest hs
      simp only [hs] at h
      cases hd : i.due <;> simp_all [mayArriveBusy]
  simp [settle, duringAhead_of_undisturbed h, hw]

theorem runEngine_succ_of_step {s t : State} (n : Nat) (h : engineStep s = some t) :
    runEngine (n + 1) s = runEngine n t := by
  simp [runEngine, h]

/-- A property every step keeps holds after any number of steps. -/
theorem runEngine_keeps {P : State → Prop} (hstep : ∀ s t, P s → engineStep s = some t → P t) (n : Nat) (s : State)
    (h : P s) : P (runEngine n s) := by
  induction n generalizing s with
  | zero => exact h
  | succ n ih =>
    simp only [runEngine]
    cases hs : engineStep s with
    | none => exact h
    | some t => exact ih t (hstep s t h hs)

theorem runHeld_keeps {P : State → Prop} (hstep : ∀ s t, P s → engineStep s = some t → P t) (n : Nat) (s : State)
    (h : P s) : P (runHeld n s) := by
  induction n generalizing s with
  | zero => exact h
  | succ n ih =>
    simp only [runHeld]
    cases hs : engineStep s with
    | none => exact h
    | some t =>
      simp only
      split
      · exact ih t (hstep s t h hs)
      · exact h

theorem settle_keeps {P : State → Prop} (hstep : ∀ s t, P s → engineStep s = some t → P t) (s : State) (h : P s) :
    P (settle s) := by
  unfold settle
  split
  · exact runHeld_keeps hstep _ s h
  · exact runEngine_keeps hstep _ s h

/-- R74: a command that runs still runs at an action that is due while it does. -/
theorem settle_busy_of_duringAhead {s : State} (h : duringAhead s s.inputs = true) (hb : busy s = true) :
    busy (settle s) = true := by
  have held : ∀ n (u : State), busy u = true → busy (runHeld n u) = true := by
    intro n
    induction n with
    | zero => exact fun u hu => hu
    | succ n ih =>
      intro u hu
      simp only [runHeld]
      cases hs : engineStep u with
      | none => exact hu
      | some t =>
        simp only
        split
        · exact ih t ‹_›
        · exact hu
  simp only [settle, h, if_true]
  exact held _ s hb

/-- A run of `m + n` steps is a run of `m` and then of `n`. -/
theorem runEngine_add (m n : Nat) (s : State) : runEngine (m + n) s = runEngine n (runEngine m s) := by
  induction m generalizing s with
  | zero => simp [runEngine]
  | succ m ih =>
    rw [Nat.succ_add]
    simp only [runEngine]
    cases hs : engineStep s with
    | none =>
      cases n with
      | zero => rfl
      | succ n => simp [runEngine, hs]
    | some t => exact ih t

/-- A measure that every step lowers bounds the steps to the point where the engine takes none. -/
theorem runEngine_exhausts {μ : State → Nat} {P : State → Prop}
    (hstep : ∀ s t, P s → engineStep s = some t → P t ∧ μ t < μ s) (n : Nat) (s : State) (h : P s) (hn : μ s ≤ n) :
    engineStep (runEngine n s) = none := by
  induction n generalizing s with
  | zero =>
    cases hs : engineStep s with
    | none => simpa [runEngine] using hs
    | some t => have := (hstep s t h hs).2; omega
  | succ n ih =>
    simp only [runEngine]
    cases hs : engineStep s with
    | none => exact hs
    | some t =>
      obtain ⟨hp, hlt⟩ := hstep s t h hs
      exact ih t hp (by omega)

/-- R111: every instruction is the issue of its word. -/
theorem exec_eq_issue (i : Instr) (s : State) : exec i s = .next (issue (encode i) (.start i) s) := by
  cases i <;> rfl

/-- R31, R240: everything a CMD write can lead to. -/
theorem issue_cases (c : Word) (r : Run) (s : State) :
    (s.rstLow = true ∧ issue c r s = s) ∨
    (s.rstLow = false ∧ s.run ≠ .idle ∧ issue c r s = settle (dropCommand s)) ∨
    (s.rstLow = false ∧ s.run = .idle ∧ issue c r s = settle (accept c r s)) := by
  unfold issue
  cases hl : s.rstLow
  · cases hb : busy s
    · exact .inr (.inr ⟨rfl, (busy_eq_false_iff s).mp hb, by simp⟩)
    · exact .inr (.inl ⟨rfl, (busy_eq_true_iff s).mp hb, by simp⟩)
  · exact .inl ⟨rfl, by simp⟩

theorem issue_idle {c : Word} {r : Run} {s : State} (hl : s.rstLow = false) (hi : s.run = .idle) :
    issue c r s = settle (accept c r s) := by
  simp [issue, hl, busy, hi]

theorem exec_idle {s : State} (i : Instr) (hl : s.rstLow = false) (hi : s.run = .idle) :
    exec i s = .next (settle (accept (encode i) (.start i) s)) := by
  rw [exec_eq_issue, issue_idle hl hi]

/-- The step that runs the checks: the first failure is raised, or the command's own pseudocode begins. -/
theorem engineStep_start {s : State} {i : Instr} (h : s.run = .start i) :
    engineStep s =
      some (match firstFailure i s with
        | some (e, info) => raiseError e info s
        | none => enterMain i s) := by
  simp only [engineStep, move, h, moveStart]
  cases hf : firstFailure i s <;> rfl

end Sys2Proof.Machine
end

