-- ==== Sys2Proof/Laws/Host.lean ====
section
/-! SUPPORT. What the host's side can do, said once: the host's next action when it has come, the register port, a host
store, and the write in flight at a reset. -/

namespace Sys2Proof.Machine

/-- R23: the bits of the STATUS word a waiting host looks at. -/
theorem statusWord_done_err (s : State) : (statusWord s).getLsbD 1 = s.done ∧ (statusWord s).getLsbD 2 = s.err := by
  constructor <;> unfold statusWord <;> simp only [BitVec.getLsbD_append, BitVec.getLsbD_ofBool] <;> simp

/-- R47: STATUS is exact at any time `rst_n` is high. -/
theorem readRegister_status {s : State} (h : s.rstLow = false) : readRegister s offSTATUS = (statusWord s, s) := by
  have hu : readUnspecified s offSTATUS = false := by
    simp [readUnspecified, h, resultOffset, inRange, offSTATUS, offOUT_COUNT, offOUT_BITS_LO, offOUT_BITS_HI, offERR_INFO,
      inFreqWindow, inNodeWindow, inCodeWindow]
  unfold readRegister
  rw [hu]
  rfl

/-- R97: the host's last answer while it waits. -/
theorem pollStatus_high {s : State} (h : s.rstLow = false) :
    pollStatus s = { noteStatus s with response := .word (statusWord s) } := by
  unfold pollStatus
  rw [readRegister_status h]

/-- R72: a read of STATUS that returns DONE = 1. -/
theorem noteStatus_of_done {s : State} (hl : s.rstLow = false) (hd : s.done = true) :
    noteStatus s = { s with unseen := [] } := by
  have h : (!s.rstLow && s.done) = true := by simp [hl, hd]
  unfold noteStatus
  rw [h]
  rfl

/-- A read of STATUS that does not tells the host nothing. -/
theorem noteStatus_of_not_done {s : State} (hd : s.done = false) : noteStatus s = s := by
  have h : (!s.rstLow && s.done) = false := by simp [hd]
  unfold noteStatus
  rw [h]
  rfl

/-- The state an action that has come is done in: a host that waited has read STATUS, and DONE = 1 in it. -/
theorem nextEvent_of_hasCome {s : State} {due : Due} {act : HostAct} {rest : List Input}
    (hin : s.inputs = { due := due, act := act } :: rest) (h : hasCome due s = true) :
    ∃ r, nextEvent s = deliver act { awaited due s with inputs := rest, response := r } := by
  obtain ⟨h1, h2⟩ := statusWord_done_err s
  unfold nextEvent
  rw [hin]
  cases due with
  | after n => exact ⟨s.response, rfl⟩
  | during n => exact ⟨s.response, rfl⟩
  | wait =>
    simp only [hasCome, Bool.and_eq_true, Bool.not_eq_true'] at h
    refine ⟨.word (statusWord s), ?_⟩
    simp only [pollStatus_high h.1, readRegister_status h.1, noteStatus_of_done h.1 h.2, h1, h.2, if_true, awaited]
  | waitOk =>
    simp only [hasCome, Bool.and_eq_true, Bool.not_eq_true'] at h
    refine ⟨.word (statusWord s), ?_⟩
    simp only [pollStatus_high h.1.1, readRegister_status h.1.1, noteStatus_of_done h.1.1 h.1.2, h1, h2, h.1.2, h.2, if_true,
      Bool.false_eq_true, if_false, awaited]

/-- R61, R62: an access the port accepts, at an offset inside the block. -/
theorem claimed_portAccepts {p : Platform} {off : Nat} (h : off < 0x8000) (ha : off % 4 = 0) :
    claimed p (p.hufeBase + off) = true ∧ portAccepts off 4 = true := by
  constructor
  · simpa [claimed, inRange, Config.blockSize] using h
  · simp [portAccepts, ha]

/-- R62: a four-lane write at an offset other than CMD. -/
theorem portWrite_word {s : State} {off : Nat} {lanes : List Byte} (h : off < 0x8000) (ha : off % 4 = 0)
    (hc : off ≠ offCMD) (hl : lanes.length = 4) :
    portWrite (s.platform.hufeBase + off) lanes s =
      .quiet (settle (writeRegister off (lanesValue lanes) { s with response := .written })) := by
  obtain ⟨h1, h2⟩ := claimed_portAccepts (p := s.platform) h ha
  simp [portWrite, h1, h2, hc, hl]

/-- R31: a four-lane write to CMD issues the command. -/
theorem portWrite_cmd {s : State} {lanes : List Byte} (hl : lanes.length = 4) :
    portWrite (cmdAddr s.platform) lanes s = .command lanes { s with response := .written } := by
  obtain ⟨h1, h2⟩ := claimed_portAccepts (p := s.platform) (off := offCMD) (by decide) (by decide)
  simp [portWrite, cmdAddr, h1, h2, hl]

/-- R62: a four-byte read. -/
theorem portRead_word {s : State} {off : Nat} (h : off < 0x8000) (ha : off % 4 = 0) :
    portRead (s.platform.hufeBase + off) 4 s =
      { noteRead off (readRegister s off).2 with response := .word (readRegister s off).1 } := by
  obtain ⟨h1, h2⟩ := claimed_portAccepts (p := s.platform) h ha
  simp [portRead, h1, h2]

theorem mem_addAddr {x a : Nat} {l : List Nat} : x ∈ addAddr a l ↔ x = a ∨ x ∈ l := by
  unfold addAddr
  split <;> simp_all

/-- R71, R74, R77: a host store to a byte of data memory. -/
theorem hostStore_eq {s : State} {a : Nat} (v : Byte) (ha : a < Config.dataSpace)
    (hk : holdsByte (kindAt s.platform a) = true) :
    hostStore a v s = { s with
      mem := memWrite s.mem a v
      racedSrc := if inSource s a then addAddr a s.racedSrc else s.racedSrc
      racedDst := if inDest s a then addAddr a s.racedDst else s.racedDst
      hostDirty := if s.platform.coherent then s.hostDirty else addAddr a s.hostDirty
      hostStale := s.hostStale.filter (fun b => b != a)
      unseen := s.unseen.filter (fun b => b != a)
      response := .written } := by
  unfold hostStore
  rw [if_neg (by omega), if_pos hk]

/-- R242: everything a reset can do to the write in flight: nothing, a free bit drawn, or the write performed. -/
theorem flightLanded_cases (s : State) :
    flightLanded s = s ∨ flightLanded s = drawn s ∨
    ∃ t a v k, move s = .write t a v k ∧ flightLanded s = drawn (stored a v (logged (.write a v) s)) := by
  unfold flightLanded
  split
  · split
    · split
      · exact .inr (.inr ⟨_, _, _, _, ‹_›, rfl⟩)
      · exact .inr (.inl rfl)
    · exact .inl rfl
  · exact .inl rfl

end Sys2Proof.Machine
end

