-- ==== Sys2Proof/Laws/Tree.lean ====
section
/-! SUPPORT. The arrays and the priority structure (spec/42_tree_builder.md R140, R141): reading an entry after a write,
what `ExtractMin` takes, what a merge leaves, that BUILD always has two nodes to merge, and that the walk of GENCODE ends
on a tree. -/

namespace Sys2Proof.Machine

@[simp] theorem nodeAt_set_same (nodes : Vector Node 511) (n : Nat) (e : Node) (h : n < 511) :
    nodeAt (nodes.setIfInBounds n e) n = e := by
  simp [nodeAt, h]

@[simp] theorem nodeAt_set_other (nodes : Vector Node 511) (n m : Nat) (e : Node) (h : m ≠ n) :
    nodeAt (nodes.setIfInBounds m e) n = nodeAt nodes n := by
  simp [nodeAt, h]

theorem freqAt_set_same (s : State) (i : Nat) (w : Word) (h : i < 256) :
    freqAt { s with freq := s.freq.setIfInBounds i w } i = w := by
  simp [freqAt, h]

theorem freqAt_set_other (s : State) (i j : Nat) (w : Word) (h : i ≠ j) :
    freqAt { s with freq := s.freq.setIfInBounds i w } j = freqAt s j := by
  simp [freqAt, h]

theorem codeAt_set_same (s : State) (i : Nat) (c : List Bool) (h : i < 256) :
    codeAt { s with codes := s.codes.setIfInBounds i c } i = c := by
  simp [codeAt, h]

theorem codeAt_set_other (s : State) (i j : Nat) (c : List Bool) (h : i ≠ j) :
    codeAt { s with codes := s.codes.setIfInBounds i c } j = codeAt s j := by
  simp [codeAt, h]

theorem nodeAt_ofFn (f : Fin 511 → Node) (n : Nat) (h : n < 511) : nodeAt (Vector.ofFn f) n = f ⟨n, h⟩ := by
  unfold nodeAt
  rw [Vector.getElem?_eq_getElem h, Vector.getElem_ofFn]
  rfl

theorem withLeaves_eq (freq : Vector Word 256) (old : Vector Node 511) :
    withLeaves freq old =
      Vector.ofFn (fun n => if n.val < 256 then leafNode ((freq[n.val]?).getD 0) else nodeAt old n.val) := by
  unfold withLeaves
  rfl

theorem nodeAt_withLeaves_leaf (freq : Vector Word 256) (old : Vector Node 511) (n : Nat) (h : n < 256) :
    nodeAt (withLeaves freq old) n = leafNode ((freq[n]?).getD 0) := by
  rw [withLeaves_eq, nodeAt_ofFn _ _ (Nat.lt_trans h (by decide))]
  exact if_pos h

theorem nodeAt_withLeaves_internal (freq : Vector Word 256) (old : Vector Node 511) (n : Nat) (h : 256 ≤ n)
    (h' : n < 511) : nodeAt (withLeaves freq old) n = nodeAt old n := by
  rw [withLeaves_eq, nodeAt_ofFn _ _ h']
  exact if_neg (Nat.not_lt.mpr h)

theorem length_leafKeys (freq : Vector Word 256) : (leafKeys freq).length = 256 := by
  simp [leafKeys]

/-- The order of the priority structure is total on keys of distinct nodes, and irreflexive (R141, R142). -/
theorem keyBefore_or (x y : Key) (h : x.node ≠ y.node) : keyBefore x y = true ∨ keyBefore y x = true := by
  simp only [keyBefore, decide_eq_true_eq]; omega

theorem keyBefore_irrefl (x : Key) : keyBefore x x = false := by
  simp [keyBefore]

theorem keyBefore_trans {x y z : Key} (h : keyBefore x y = true) (h' : keyBefore y z = true) :
    keyBefore x z = true := by
  simp only [keyBefore, decide_eq_true_eq] at *; omega

theorem extractMin_eq_none {active : List Key} : extractMin active = none ↔ active = [] := by
  cases active with
  | nil => simp [extractMin]
  | cons x rest =>
    simp only [extractMin]
    cases extractMin rest with
    | none => simp
    | some p => obtain ⟨m, others⟩ := p; by_cases hb : keyBefore x m = true <;> simp [hb]

/-- `ExtractMin` removes one member: what it takes and what it leaves are the active set (R141). -/
theorem extractMin_perm {active others : List Key} {m : Key} (h : extractMin active = some (m, others)) :
    active.Perm (m :: others) := by
  induction active generalizing m others with
  | nil => simp [extractMin] at h
  | cons x rest ih =>
    simp only [extractMin] at h
    cases hr : extractMin rest with
    | none =>
      have : rest = [] := extractMin_eq_none.mp hr
      simp only [hr, Option.some.injEq, Prod.mk.injEq] at h
      obtain ⟨rfl, rfl⟩ := h
      simp [this]
    | some p =>
      obtain ⟨m', others'⟩ := p
      simp only [hr] at h
      have hp := ih hr
      by_cases hb : keyBefore x m' = true
      · simp only [hb, if_true, Option.some.injEq, Prod.mk.injEq] at h
        obtain ⟨rfl, rfl⟩ := h
        exact List.Perm.refl _
      · simp only [hb, Bool.false_eq_true, if_false, Option.some.injEq, Prod.mk.injEq] at h
        obtain ⟨rfl, rfl⟩ := h
        exact (hp.cons x).trans (List.Perm.swap m' x others')

theorem length_of_extractMin {active others : List Key} {m : Key} (h : extractMin active = some (m, others)) :
    active.length = others.length + 1 := by
  simpa using (extractMin_perm h).length_eq

/-- Two nodes are merged wherever two are active, and one active node fewer is left (R141). -/
theorem mergeOnce_isSome (k : Nat) (nodes : Vector Node 511) (active : List Key) (h : 2 ≤ active.length) :
    ∃ nodes' active', mergeOnce k nodes active = some (nodes', active') ∧ active'.length + 1 = active.length := by
  unfold mergeOnce
  cases ha : extractMin active with
  | none => rw [extractMin_eq_none.mp ha] at h; simp at h
  | some p =>
    obtain ⟨a, rest⟩ := p
    have hl := length_of_extractMin ha
    simp only
    cases hb : extractMin rest with
    | none => rw [extractMin_eq_none.mp hb] at hl; simp at hl; omega
    | some q =>
      obtain ⟨b, others⟩ := q
      have hl' := length_of_extractMin hb
      exact ⟨_, _, rfl, by simp only [List.length_cons]; omega⟩

/-- R141: before merge `k` the active set holds `256 - k` nodes, so BUILD goes through all its merges. -/
theorem treeAfter_isSome (freq : Vector Word 256) (old : Vector Node 511) (k : Nat) (hk : k ≤ 255) :
    ∃ nodes active, treeAfter freq old k = some (nodes, active) ∧ active.length = 256 - k := by
  induction k with
  | zero => exact ⟨_, _, rfl, length_leafKeys freq⟩
  | succ k ih =>
    obtain ⟨nodes, active, hsome, hlen⟩ := ih (by omega)
    obtain ⟨nodes', active', hm, hl⟩ := mergeOnce_isSome k nodes active (by omega)
    exact ⟨nodes', active', by simp [treeAfter, hsome, hm], by omega⟩

/-- Every frequency table has its tree. -/
theorem exists_isTreeOf (freq : Vector Word 256) : ∃ nodes, IsTreeOf freq nodes := by
  obtain ⟨nodes, active, h, _⟩ := treeAfter_isSome freq (Vector.replicate 511 Node.blank) 255 (by omega)
  exact ⟨nodes, _, active, h⟩

/-- What a merge of `a` and `b` leaves in every node (R140). -/
theorem nodeAt_mergeInto (nodes : Vector Node 511) (n x : Nat) (a b : Key) (hn : n < 511) (ha : a.node < n)
    (hb : b.node < n) (hab : a.node ≠ b.node) :
    nodeAt (mergeInto nodes n a b) x =
      if x = n then
        { weight := (nodeAt nodes a.node).weight + (nodeAt nodes b.node).weight
          left := BitVec.ofNat 9 a.node
          right := BitVec.ofNat 9 b.node
          parent := Config.noNode }
      else if x = a.node ∨ x = b.node then { nodeAt nodes x with parent := BitVec.ofNat 9 n }
      else nodeAt nodes x := by
  have hna : n ≠ a.node := by omega
  have hnb : n ≠ b.node := by omega
  simp only [mergeInto, setParent]
  by_cases hxb : x = b.node
  · subst hxb
    rw [nodeAt_set_same _ _ _ (by omega), nodeAt_set_other _ _ _ _ hab, nodeAt_set_other _ _ _ _ hnb]
    simp [hnb.symm]
  · rw [nodeAt_set_other _ _ _ _ (Ne.symm hxb)]
    by_cases hxa : x = a.node
    · subst hxa
      rw [nodeAt_set_same _ _ _ (by omega), nodeAt_set_other _ _ _ _ hna]
      simp [hna.symm]
    · rw [nodeAt_set_other _ _ _ _ (Ne.symm hxa)]
      by_cases hxn : x = n
      · subst hxn
        rw [nodeAt_set_same _ _ _ hn]
        simp
      · rw [nodeAt_set_other _ _ _ _ (Ne.symm hxn)]
        simp [hxn, hxa, hxb]

/-- A merge takes two members of the active set and puts the made node in their place (R140). -/
theorem mergeOnce_eq_some {k : Nat} {nodes nodes' : Vector Node 511} {active active' : List Key}
    (h : mergeOnce k nodes active = some (nodes', active')) :
    ∃ a rest b others, extractMin active = some (a, rest) ∧ extractMin rest = some (b, others) ∧
      active.Perm (a :: b :: others) ∧ nodes' = mergeInto nodes (256 + k) a b ∧
      active' = { weight := (nodeAt nodes' (256 + k)).weight, node := 256 + k } :: others := by
  unfold mergeOnce at h
  cases ha : extractMin active with
  | none => simp [ha] at h
  | some p =>
    obtain ⟨a, rest⟩ := p
    simp only [ha] at h
    cases hb : extractMin rest with
    | none => simp [hb] at h
    | some q =>
      obtain ⟨b, others⟩ := q
      simp only [hb, Option.some.injEq, Prod.mk.injEq] at h
      obtain ⟨rfl, rfl⟩ := h
      exact ⟨a, rest, b, others, rfl, hb, (extractMin_perm ha).trans ((extractMin_perm hb).cons a), rfl, rfl⟩

/-- The active set after `k` merges: distinct nodes, all made before merge `k` (R140). -/
theorem treeAfter_active {freq : Vector Word 256} {old nodes : Vector Node 511} {active : List Key} {k : Nat}
    (hk : k ≤ 255) (h : treeAfter freq old k = some (nodes, active)) :
    (active.map Key.node).Nodup ∧ ∀ x ∈ active, x.node < 256 + k := by
  induction k generalizing nodes active with
  | zero =>
    simp only [treeAfter, Option.some.injEq, Prod.mk.injEq] at h
    obtain ⟨-, rfl⟩ := h
    refine ⟨?_, ?_⟩
    · have : (leafKeys freq).map Key.node = List.range 256 := by
        simp only [leafKeys, List.map_map]
        exact List.map_id _
      rw [this]
      exact List.nodup_range
    · intro x hx
      obtain ⟨n, hn, rfl⟩ := List.mem_map.mp hx
      have := List.mem_range.mp hn
      simp only
      omega
  | succ k ih =>
    simp only [treeAfter] at h
    cases ht : treeAfter freq old k with
    | none => simp [ht] at h
    | some p =>
      obtain ⟨nodes₀, active₀⟩ := p
      simp only [ht] at h
      obtain ⟨hnd, hlt⟩ := ih (by omega) ht
      obtain ⟨a, rest, b, others, -, -, hp, -, rfl⟩ := mergeOnce_eq_some h
      have hnd' := (hp.map Key.node).nodup_iff.mp hnd
      simp only [List.map_cons, List.nodup_cons] at hnd'
      have hlt' : ∀ x ∈ others, x.node < 256 + k := fun x hx => hlt x (hp.mem_iff.mpr (by simp [hx]))
      refine ⟨?_, ?_⟩
      · simp only [List.map_cons, List.nodup_cons]
        refine ⟨?_, hnd'.2.2⟩
        intro hmem
        obtain ⟨x, hx, he⟩ := List.mem_map.mp hmem
        have := hlt' x hx
        omega
      · intro x hx
        rcases List.mem_cons.mp hx with rfl | hx
        · simp
        · have := hlt' x hx; omega

/-- The parent of a node made in the first `k` merges, where it has one, is a later node (R140). -/
theorem treeAfter_parent {freq : Vector Word 256} {old nodes : Vector Node 511} {active : List Key} {k : Nat}
    (hk : k ≤ 255) (h : treeAfter freq old k = some (nodes, active)) (x : Nat) (hx : x < 256 + k) :
    (nodeAt nodes x).parent = Config.noNode ∨
    (x < (nodeAt nodes x).parent.toNat ∧ (nodeAt nodes x).parent.toNat < 256 + k) := by
  induction k generalizing nodes active x with
  | zero =>
    simp only [treeAfter, Option.some.injEq, Prod.mk.injEq] at h
    obtain ⟨rfl, -⟩ := h
    rw [nodeAt_withLeaves_leaf _ _ _ hx]
    exact .inl rfl
  | succ k ih =>
    simp only [treeAfter] at h
    cases ht : treeAfter freq old k with
    | none => simp [ht] at h
    | some p =>
      obtain ⟨nodes₀, active₀⟩ := p
      simp only [ht] at h
      obtain ⟨hnd, hlt⟩ := treeAfter_active (by omega) ht
      obtain ⟨a, rest, b, others, -, -, hp, rfl, -⟩ := mergeOnce_eq_some h
      have ha : a.node < 256 + k := hlt a (hp.mem_iff.mpr (by simp))
      have hb : b.node < 256 + k := hlt b (hp.mem_iff.mpr (by simp))
      have hab : a.node ≠ b.node := by
        have := (hp.map Key.node).nodup_iff.mp hnd
        simp only [List.map_cons, List.nodup_cons, List.mem_cons, not_or] at this
        exact this.1.1
      rw [nodeAt_mergeInto _ _ _ _ _ (by omega) ha hb hab]
      by_cases hn : x = 256 + k
      · simp [hn]
      · rw [if_neg hn]
        split
        · right
          have : (BitVec.ofNat 9 (256 + k)).toNat = 256 + k := by
            rw [BitVec.toNat_ofNat]; omega
          simp only [this]
          omega
        · rcases ih (by omega) ht x (by omega) with h' | ⟨h1, h2⟩
          · exact .inl h'
          · exact .inr ⟨h1, by omega⟩

/-- A walk up links that only go to later nodes ends (R160). -/
theorem codeUp_isSome (nodes : Vector Node 511)
    (hup : ∀ x < 511, (nodeAt nodes x).parent = Config.noNode ∨
      (x < (nodeAt nodes x).parent.toNat ∧ (nodeAt nodes x).parent.toNat < 511))
    (fuel n : Nat) (suffix : List Bool) (hn : n < 511) (hf : 511 ≤ fuel + n) :
    ∃ code, codeUp nodes fuel n suffix = some code ∧ code.length < suffix.length + fuel := by
  induction fuel generalizing n suffix with
  | zero => omega
  | succ fuel ih =>
    simp only [codeUp]
    by_cases hp : (nodeAt nodes n).parent = Config.noNode
    · exact ⟨suffix, by rw [if_pos hp], by omega⟩
    · rw [if_neg hp]
      obtain ⟨h1, h2⟩ := (hup n hn).resolve_left hp
      obtain ⟨code, hc, hl⟩ := ih _ _ h2 (by omega)
      exact ⟨code, hc, by simp only [List.length_cons] at hl; omega⟩

/-- Every leaf of a tree has a code (R160). -/
theorem leafCode_isSome {freq : Vector Word 256} {nodes : Vector Node 511} (h : IsTreeOf freq nodes) (i : Nat)
    (hi : i < 256) : ∃ code, leafCode nodes i = some code ∧ code.length < 511 := by
  obtain ⟨old, active, ht⟩ := h
  obtain ⟨code, hc, hl⟩ := codeUp_isSome nodes
    (fun x hx => treeAfter_parent (Nat.le_refl 255) ht x hx) 511 i [] (by omega) (by omega)
  exact ⟨code, hc, by simpa using hl⟩
end Sys2Proof.Machine
end

