-- ==== Sys2Proof/Laws/PerInstr.lean ====
section
/-! SUPPORT. Facts about every instruction as syntax, one lemma per constructor. -/

/-- R91: the word of an instruction, on the byte lanes of the register port, decodes to it, and is a well-formed command
word. -/
def Sys2Proof.Laws.WordDecodes.Statement (i : Sys2Proof.Instr) : Prop :=
  i.wellFormed = true ∧ Sys2Proof.wordWellFormed (Sys2Proof.encode i) = true ∧
  Sys2Proof.decodeLanes (Sys2Proof.lanesOfWord (Sys2Proof.encode i)) = .ok i

theorem Sys2Proof.Laws.WordDecodes.nop : Sys2Proof.Laws.WordDecodes.Statement .nop := ⟨rfl, by decide, rfl⟩

theorem Sys2Proof.Laws.WordDecodes.fcount : Sys2Proof.Laws.WordDecodes.Statement .fcount := ⟨rfl, by decide, rfl⟩

theorem Sys2Proof.Laws.WordDecodes.build : Sys2Proof.Laws.WordDecodes.Statement .build := ⟨rfl, by decide, rfl⟩

theorem Sys2Proof.Laws.WordDecodes.gencode : Sys2Proof.Laws.WordDecodes.Statement .gencode := ⟨rfl, by decide, rfl⟩

theorem Sys2Proof.Laws.WordDecodes.encode : Sys2Proof.Laws.WordDecodes.Statement .encode := ⟨rfl, by decide, rfl⟩

theorem Sys2Proof.Laws.WordDecodes.decode : Sys2Proof.Laws.WordDecodes.Statement .decode := ⟨rfl, by decide, rfl⟩
end

