-- ==== Sys2Proof/Tests/Slice0.lean ====
section
/-! SUPPORT. The model's own tests: the smoke test of WellFormed, command words written out from spec/30_encoding.md R91,
small tests of single steps against the vectors of spec/95_test_vectors.md, and for each statement with hypotheses a
state that meets them. -/

namespace Sys2Proof.Machine.Tests

/-! ## Well-formedness and decoding -/

/-- Two byte lanes are no command word (R94). -/
theorem test_lanes_too_short : lanesWellFormed [0x01#8, 0x00#8] = false := by decide

/-- Bit 8 is reserved (R90). -/
theorem test_reserved_bit_ill_formed : reservedClear 0x00000100#32 = false := by decide

/-- Opcode `0x06` is reserved (R93). -/
theorem test_opcode_six_ill_formed : opcodeDefined 0x00000006#32 = false := by decide

theorem test_word_checks_together :
    wordWellFormed 0xFF000001#32 = false ∧ wordWellFormed 0x000000FF#32 = false ∧
    wordWellFormed 0x00000005#32 = true := by decide

/-- R91, `0x00000000`. -/
theorem test_decode_nop : decodeLanes [0b00000000#8, 0#8, 0#8, 0#8] = .ok .nop := by rfl

/-- R91, `0x00000001`: opcode 1 on lane 0 (R62). -/
theorem test_decode_fcount : decodeLanes [0b00000001#8, 0#8, 0#8, 0#8] = .ok .fcount := by rfl

/-- R91, `0x00000002`. -/
theorem test_decode_build : decodeLanes [0b00000010#8, 0#8, 0#8, 0#8] = .ok .build := by rfl

/-- R91, `0x00000003`. -/
theorem test_decode_gencode : decodeLanes [0b00000011#8, 0#8, 0#8, 0#8] = .ok .gencode := by rfl

/-- R91, `0x00000004`. -/
theorem test_decode_encode : decodeLanes [0b00000100#8, 0#8, 0#8, 0#8] = .ok .encode := by rfl

/-- R91, `0x00000005`. -/
theorem test_decode_decode : decodeLanes [0b00000101#8, 0#8, 0#8, 0#8] = .ok .decode := by rfl

/-- Vector LC3: FCOUNT's opcode with bits 31:24 set is no FCOUNT (R93). -/
theorem test_decode_reserved_lane : decodeLanes [0x01#8, 0#8, 0#8, 0xFF#8] = .error .reservedBits := by rfl

theorem test_table_word : decodeTableWord 32 4 = some .encode ∧ decodeTableWord 32 6 = none := by decide

/-! ## Helpers -/

/-- The next state of an outcome, the reset state where there is none. -/
def resultOf (o : Host.Outcome State Fault Refusal) : State :=
  match o with
  | .next t => t
  | .fault _ => State.reset
  | .refused _ => State.reset

/-- The reset state with parameter registers and memory. -/
def prepared (src len dst cap count bits : Word) (mem : List Host.Cell) : State :=
  { State.reset with
    params :=
      { srcAddr := src, srcLen := len, dstAddr := dst, dstCap := cap, symCount := count, inBitsLo := bits
        inBitsHi := 0 }
    mem := mem }

/-- A node table with a few links of vector TB3 ("abracadabra"). -/
def someNodes : Vector Node 511 :=
  (((((Vector.replicate 511 Node.blank).setIfInBounds 510 ⟨11, 225, 509, Config.noNode⟩).setIfInBounds 509
    ⟨6, 507, 508, 510⟩).setIfInBounds 508 ⟨4, 226, 242, 509⟩).setIfInBounds 226
    ⟨2, Config.noNode, Config.noNode, 508⟩).setIfInBounds 242 ⟨2, Config.noNode, Config.noNode, 508⟩

/-- Codes of vector GC2: 'a' `0`, 'b' `110`, 'r' `111`. -/
def someCodes : Vector (List Bool) 256 :=
  (((Vector.replicate 256 []).setIfInBounds 225 [false]).setIfInBounds 226 [true, true, false]).setIfInBounds 242
    [true, true, true]

/-- "abr" at `0x1000`. -/
def abr : List Host.Cell := [(0x1000, 0x61#8), (0x1001, 0x62#8), (0x1002, 0x72#8)]

/-- Ready for an ENCODE of "abr" with those codes. -/
def toEncode (cap : Word) : State :=
  { prepared 0x1000 3 0x2000 cap 0 0 abr with nodes := someNodes, codes := someCodes, treeValid := true, codesValid := true }

/-- Ready for an ENCODE of eight times 'a', whose code is one bit, and a ninth byte. -/
def eightAs (cap : Word) (regions : List Region) : State :=
  { prepared 0x1000 9 0x2000 cap 0 0 ((List.range 8).map (fun k => (0x1000 + k, 0x61#8))) with
    nodes := someNodes, codes := someCodes, treeValid := true, codesValid := true
    platform := { Platform.reset with dataMap := regions } }

/-- Ready for a DECODE of `0110111`, the codes of "abr". -/
def toDecode (count bits : Word) : State :=
  { prepared 0x1000 0 0x2000 4 count bits [(0x1000, 0x6E#8)] with nodes := someNodes, treeValid := true }

/-! ## Single steps -/

/-- R120's example: from reset, NOP leaves STATUS `0x00000002`. -/
theorem test_nop_status : statusWord (resultOf (exec .nop State.reset)) = 0x00000002#32 := by decide +kernel

/-- Vector FC4: one byte `0x05` at the top of the data space counts in entry 133. -/
theorem test_fcount_top_of_memory :
    let t := resultOf (exec .fcount (prepared 0xFFFFFFFF 1 0 0 0 0 [(0xFFFFFFFF, 0x05#8)]))
    freqAt t 133 = 1 ∧ t.outCount = 1 ∧ statusWord t = 0x00010002#32 := by decide +kernel

/-- Vector FC5: the range passes `2^32`. -/
theorem test_fcount_range :
    let t := resultOf (exec .fcount (prepared 0xFFFFFFFF 2 0 0 0 0 []))
    statusWord t = 0x00010406#32 ∧ t.errInfo = 0 ∧ t.accesses = [] := by decide +kernel

/-- Vector TB3, node 507: of three active nodes of weight 2, 2 and 2 the two leaves are taken, in index order (R142). -/
theorem test_extract_min_tie :
    extractMin [⟨2, 507⟩, ⟨2, 242⟩, ⟨5, 225⟩, ⟨2, 226⟩] = some (⟨2, 226⟩, [⟨2, 507⟩, ⟨2, 242⟩, ⟨5, 225⟩]) := by decide

/-- Vector TB3, node 510: 'a' (weight 5) goes to the left of node 509 (weight 6). -/
theorem test_merge_makes_root :
    (mergeOnce 254 ((Vector.replicate 511 Node.blank).setIfInBounds 225 ⟨5, 511, 511, 511⟩ |>.setIfInBounds 509
      ⟨6, 507, 508, 511⟩) [⟨6, 509⟩, ⟨5, 225⟩]).map (fun p => (nodeAt p.1 510, (nodeAt p.1 225).parent)) =
      some (⟨11, 225, 509, 511⟩, 510) := by decide +kernel

/-- Vector GC2: the code of 'b' is `110`, of 'r' `111`. -/
theorem test_leaf_codes :
    leafCode someNodes 226 = some [true, true, false] ∧ leafCode someNodes 242 = some [true, true, true] := by
  decide +kernel

/-- Vector GC6: no tree after reset. -/
theorem test_gencode_no_tree :
    let t := resultOf (exec .gencode State.reset)
    statusWord t = 0x00030206#32 ∧ t.errInfo = 0 ∧ t.codesValid = false := by decide +kernel

/-- Vector EN3, first bits: "abr" gives `0 110 111`, one byte with one bit of padding. -/
theorem test_encode_packs :
    let t := resultOf (exec .encode (toEncode 1))
    memRead t.mem 0x2000 = 0x6E#8 ∧ t.outBits = 7 ∧ t.outCount = 1 ∧ statusWord t = 0x0004001A#32 := by
  decide +kernel

/-- Vector EN9: with no capacity the last byte finds no room, after its bits were counted. -/
theorem test_encode_overflow :
    let t := resultOf (exec .encode (toEncode 0))
    t.mem = abr ∧ t.outBits = 7 ∧ t.outCount = 0 ∧ statusWord t = 0x0004061E#32 := by decide +kernel

/-- Vector DE1, first symbols: the bits `0110111` give "abr". -/
theorem test_decode_walks :
    let t := resultOf (exec .decode (toDecode 3 7))
    t.mem = [(0x1000, 0x6E#8), (0x2000, 0x61#8), (0x2001, 0x62#8), (0x2002, 0x72#8)] ∧ t.outBits = 7 ∧
    statusWord t = 0x0005000A#32 := by decide +kernel

/-- Vector DE5: five bits end inside the third code. -/
theorem test_decode_truncated :
    let t := resultOf (exec .decode (toDecode 3 5))
    t.mem = [(0x1000, 0x6E#8), (0x2000, 0x61#8), (0x2001, 0x62#8)] ∧ t.outBits = 5 ∧ t.outCount = 2 ∧
    statusWord t = 0x0005070E#32 := by decide +kernel

/-- Vector LC1: an illegal word issued after reset. -/
theorem test_illegal_word :
    let t := resultOf (step (State.reset.withFetchWord 32 0x100))
    statusWord t = 0x00000106#32 ∧ t.errInfo = 0x100#32 := by decide +kernel

/-- A step runs the word it is given: NOP, from the reset state. -/
theorem test_step_runs_nop :
    statusWord (resultOf (step (State.reset.withFetchWord 32 0))) = 0x00000002#32 := by decide +kernel

/-- Vectors LC5, LC6: a BUILD written while ENCODE runs is dropped; CMDOVR is cleared by a 1 in bit 5. -/
theorem test_busy_drops_command :
    let t := resultOf (exec .build { toEncode 1 with run := .encode 0 0 [], inputs := [⟨.after 0, .read 0 4⟩] })
    t.cmdovr = true ∧ t.run = .encode 0 0 [] ∧ (writeRegister offSTATUS 0x22 t).cmdovr = false := by decide +kernel

/-- R42's example: the LINK words of node 510 and of leaf 0 in the all-zero tree. -/
theorem test_link_words :
    linkWord 510 ⟨0, 508, 509, Config.noNode⟩ = 0x07FFFBFC#32 ∧
    linkWord 0 ⟨0, Config.noNode, Config.noNode, 256⟩ = 0x8403FFFF#32 := by decide

/-- Vector GC5: a code of 53 bits crosses a CODEW word. -/
theorem test_code_words :
    codeWord [true, true, false] 0 = 0xC0000000#32 ∧
    codeWord (List.replicate 44 true ++ [false, false, true, false, true, true, false, true, false]) 1 =
      0xFFF2D000#32 := by decide +kernel

/-- R95, R96: the encodings of `WR SRC_LEN, 11`, `RD STATUS` and `CMD FCOUNT`. -/
theorem test_host_lines :
    lineAct 0 (.wr .SRC_LEN 11) = some (.write 0x014 [0x0B#8, 0#8, 0#8, 0#8]) ∧
    lineAct 0 (.rd .STATUS) = some (.read 0x008 4) ∧
    lineAct 0 (.cmd .fcount) = some (.write 0x00C [0x01#8, 0#8, 0#8, 0#8]) := by decide

/-! ## States that meet the hypotheses of the statements -/

/-- The host writes a word to CMD at once. -/
def writesCmd (w : Word) (rest : List Input) (s : State) : State :=
  { s with inputs := { due := .after 0, act := .write (cmdAddr s.platform) (lanesOfWord w) } :: rest }

/-- A host that then reads STATUS at once. -/
def soon : List Input := [{ due := .after 0, act := .read 0x008 4 }]

/-- The reset state with the interrupt enabled. -/
def enabled : State := { State.reset with ie := true }

theorem enabled_inv : Inv enabled where
  memOk := by decide
  codesNeedTree := by decide
  doneNotBusy := by decide
  errExactlyCode := by decide
  codeDefined := by decide
  busyNoError := by decide
  infoNeedsError := by decide
  countsFit := by decide +kernel
  treeOfFreq := by intro h; exact absurd h (by decide)
  codesOfTree := by intro h; exact absurd h (by decide)
  running := ⟨rfl, rfl, rfl, rfl⟩
  lowIsReset := by intro h; exact absurd h (by decide)
  accessesOk := by decide
  racesOk := by decide
  dirtyOk := by decide
  coherentClean := by decide

theorem enabled_ready : Ready enabled := ⟨rfl, rfl, rfl⟩

theorem prepared_ready (src len dst cap count bits : Word) (mem : List Host.Cell) :
    Ready (prepared src len dst cap count bits mem) := ⟨rfl, rfl, rfl⟩

theorem prepared_plain (src len dst cap count bits : Word) (mem : List Host.Cell) (a n : Nat) :
    PlainSource (prepared src len dst cap count bits mem) a n ∧ PlainDest (prepared src len dst cap count bits mem) a n :=
  ⟨fun _ _ => ⟨.inl rfl, .inl rfl⟩, fun _ _ => .inl rfl⟩

theorem witness_ReservedWordsAreIllegal :
    (0x00000100#32).extractLsb' 8 24 ≠ 0#24 ∧ (0x00000006#32).extractLsb' 8 24 = 0#24 ∧
    6 ≤ ((0x00000006#32).extractLsb' 0 8).toNat := by decide

theorem witness_StepIssuesDecodedCommand :
    hasCome (.after 0) (writesCmd 4 [] enabled) = true ∧ decodeLanes (lanesOfWord 4) = .ok .encode ∧
    (writesCmd 4 [] enabled).inputs =
      { due := .after 0, act := .write (cmdAddr (writesCmd 4 [] enabled).platform) (lanesOfWord 4) } :: [] :=
  ⟨rfl, rfl, rfl⟩

theorem witness_AcceptanceWritesAndLatches :
    (writesCmd 2 soon enabled).rstLow = false ∧ (writesCmd 2 soon enabled).run = .idle ∧
    arrivesNow { writesCmd 2 soon enabled with inputs := soon } = true := ⟨rfl, rfl, rfl⟩

theorem witness_CommandWhileBusyIsDropped :
    (writesCmd 2 soon { enabled with run := .fcount }).rstLow = false ∧
    busy (writesCmd 2 soon { enabled with run := .fcount }) = true := ⟨rfl, rfl⟩

theorem witness_IllegalWordRaisesIllegalCmd :
    Ready { writesCmd 0xFF000001 [] enabled with inputs := [] } ∧
    decode 0xFF000001#32 = .error .reservedBits := ⟨⟨rfl, rfl, rfl⟩, rfl⟩

theorem witness_NopCompletesAndChangesNothingElse : Ready enabled := enabled_ready

/-- A state for each clause on FCOUNT, GENCODE and ENCODE, at the edge of its range: the last byte of the data space and
one more; eleven source bytes of which the last is the first of the destination. -/
theorem witness_ChecksFailInOrder_encode :
    (∃ s, Ready s ∧ 2 ^ 32 < s.params.srcAddr.toNat + s.params.srcLen.toNat) ∧
    (∃ s, Ready s ∧ s.treeValid = false) ∧ (∃ s, Ready s ∧ s.codesValid = false) ∧
    (∃ s, Ready s ∧ s.codesValid = true ∧ 2 ^ 32 < s.params.srcAddr.toNat + s.params.srcLen.toNat) ∧
    (∃ s, Ready s ∧ s.codesValid = true ∧ s.params.srcAddr.toNat + s.params.srcLen.toNat ≤ 2 ^ 32 ∧
      2 ^ 32 < s.params.dstAddr.toNat + s.params.dstCap.toNat) ∧
    (∃ s, Ready s ∧ s.codesValid = true ∧ s.params.srcAddr.toNat + s.params.srcLen.toNat ≤ 2 ^ 32 ∧
      s.params.dstAddr.toNat + s.params.dstCap.toNat ≤ 2 ^ 32 ∧ 0 < s.params.srcLen.toNat ∧ 0 < s.params.dstCap.toNat ∧
      s.params.srcAddr.toNat < s.params.dstAddr.toNat + s.params.dstCap.toNat ∧
      s.params.dstAddr.toNat < s.params.srcAddr.toNat + s.params.srcLen.toNat) :=
  ⟨⟨prepared 0xFFFFFFFF 2 0 0 0 0 [], ⟨rfl, rfl, rfl⟩, by decide⟩, ⟨enabled, enabled_ready, rfl⟩,
    ⟨enabled, enabled_ready, rfl⟩,
    ⟨{ prepared 0xFFFFFFFF 2 0 0 0 0 [] with treeValid := true, codesValid := true }, ⟨rfl, rfl, rfl⟩, rfl, by decide⟩,
    ⟨{ prepared 0xFFFFFFFF 1 0xFFFFFFF8 9 0 0 [] with treeValid := true, codesValid := true }, ⟨rfl, rfl, rfl⟩, rfl,
      by decide, by decide⟩,
    ⟨{ prepared 0x1000 11 0x100A 16 0 0 [] with treeValid := true, codesValid := true }, ⟨rfl, rfl, rfl⟩, rfl,
      by decide, by decide, by decide, by decide, by decide, by decide⟩⟩

/-- A state for each clause on DECODE, at the edge of its range: 9 bits from the last byte of the data space are two
bytes, 8 bits are one. -/
theorem witness_ChecksFailInOrder_decode :
    (∃ s, Ready s ∧ s.treeValid = true ∧
      2 ^ 32 < s.params.srcAddr.toNat + ((s.params.inBitsHi ++ s.params.inBitsLo).toNat + 7) / 8) ∧
    (∃ s, Ready s ∧ s.treeValid = true ∧
      s.params.srcAddr.toNat + ((s.params.inBitsHi ++ s.params.inBitsLo).toNat + 7) / 8 ≤ 2 ^ 32 ∧
      2 ^ 32 < s.params.dstAddr.toNat + s.params.dstCap.toNat) ∧
    (∃ s, Ready s ∧ s.treeValid = true ∧
      s.params.srcAddr.toNat + ((s.params.inBitsHi ++ s.params.inBitsLo).toNat + 7) / 8 ≤ 2 ^ 32 ∧
      s.params.dstAddr.toNat + s.params.dstCap.toNat ≤ 2 ^ 32 ∧
      0 < ((s.params.inBitsHi ++ s.params.inBitsLo).toNat + 7) / 8 ∧ 0 < s.params.dstCap.toNat ∧
      s.params.srcAddr.toNat < s.params.dstAddr.toNat + s.params.dstCap.toNat ∧
      s.params.dstAddr.toNat < s.params.srcAddr.toNat + ((s.params.inBitsHi ++ s.params.inBitsLo).toNat + 7) / 8) ∧
    (∃ s, Ready s ∧ s.treeValid = true ∧
      s.params.srcAddr.toNat + ((s.params.inBitsHi ++ s.params.inBitsLo).toNat + 7) / 8 ≤ 2 ^ 32 ∧
      s.params.dstAddr.toNat + s.params.dstCap.toNat ≤ 2 ^ 32 ∧
      ¬ (0 < ((s.params.inBitsHi ++ s.params.inBitsLo).toNat + 7) / 8 ∧ 0 < s.params.dstCap.toNat ∧
        s.params.srcAddr.toNat < s.params.dstAddr.toNat + s.params.dstCap.toNat ∧
        s.params.dstAddr.toNat < s.params.srcAddr.toNat + ((s.params.inBitsHi ++ s.params.inBitsLo).toNat + 7) / 8) ∧
      s.params.dstCap.toNat < s.params.symCount.toNat) :=
  ⟨⟨{ prepared 0xFFFFFFFF 0 0 0 0 9 [] with treeValid := true }, ⟨rfl, rfl, rfl⟩, rfl, by decide⟩,
    ⟨{ prepared 0xFFFFFFFF 0 0xFFFFFFFF 2 0 8 [] with treeValid := true }, ⟨rfl, rfl, rfl⟩, rfl, by decide, by decide⟩,
    ⟨{ prepared 0x1002 0 0x1000 11 0 24 [] with treeValid := true }, ⟨rfl, rfl, rfl⟩, rfl, by decide, by decide, by decide,
      by decide, by decide, by decide⟩,
    ⟨{ prepared 0x1000 0 0x1001 4 5 8 [] with treeValid := true }, ⟨rfl, rfl, rfl⟩, rfl, by decide, by decide, by decide,
      by decide⟩⟩

theorem witness_RaiseRecordsError : enabled.racedDst = [] := rfl

theorem witness_CommandsTerminate :
    Inv enabled ∧ Ready enabled ∧ ∀ a, kindAt enabled.platform a ≠ .silent :=
  ⟨enabled_inv, enabled_ready, fun _ h => nomatch (show Kind.memory = Kind.silent from h)⟩

/-- FCOUNT at an address that never answers, and ENCODE about to write there. -/
theorem witness_NoResponseLeavesBusy :
    let p : Platform := { Platform.reset with dataMap := [⟨0, 4, .silent⟩] }
    let s : State := { enabled with platform := p, lat := { Latched.reset with srcLen := 1 }, run := .fcount }
    let t : State :=
      { enabled with
        platform := p, outBits := 7, lat := { Latched.reset with dstCap := 1 }, run := .encode 0 0 [true] }
    (∃ u a k, move s = .read u a k ∧ kindAt u.platform a = .silent) ∧
    (∃ u a v k, move t = .write u a v k ∧ kindAt u.platform a = .silent) :=
  ⟨⟨_, _, _, rfl, rfl⟩, ⟨_, _, _, _, rfl, rfl⟩⟩

theorem witness_InterruptFollowsCompletion (i : Instr) :
    enabled.rstLow = false ∧ enabled.run = .idle ∧ ∃ t, exec i enabled = .next t :=
  ⟨rfl, rfl, _, exec_eq_issue i enabled⟩

theorem witness_AccessesInOrder :
    (toEncode 1).rstLow = false ∧ (toEncode 1).run = .idle ∧
    ∃ t, exec .encode (toEncode 1) = .next t ∧ t.accesses.length = 4 :=
  ⟨rfl, rfl, _, rfl, by decide +kernel⟩

theorem witness_FcountCountsBuffer :
    let s := prepared 0xFFFFFFFF 1 0 0 0 0 [(0xFFFFFFFF, 0x05#8)]
    Ready s ∧ s.params.srcAddr.toNat + s.params.srcLen.toNat ≤ 2 ^ 32 ∧
    PlainSource s s.params.srcAddr.toNat s.params.srcLen.toNat :=
  ⟨prepared_ready _ _ _ _ _ _ _, by decide, (prepared_plain _ _ _ _ _ _ _ _ _).1⟩

/-- Vector FC6: the third of five bytes gives a read error. -/
theorem witness_FcountStopsAtBusError :
    let s := { prepared 0x1000 5 0 0 0 0 [(0x1000, 0x10#8), (0x1001, 0x20#8)] with
      platform := { Platform.reset with dataMap := [⟨0x1002, 1, .readError⟩] } }
    Ready s ∧ s.params.srcAddr.toNat + s.params.srcLen.toNat ≤ 2 ^ 32 ∧ 2 < s.params.srcLen.toNat ∧
    PlainSource s s.params.srcAddr.toNat 2 ∧ failsRead s (s.params.srcAddr.toNat + 2) := by
  refine ⟨⟨rfl, rfl, rfl⟩, by decide, by decide, fun k hk => ?_, .inl (by decide)⟩
  match k, hk with
  | 0, _ => exact ⟨.inl (by decide), .inl rfl⟩
  | 1, _ => exact ⟨.inl (by decide), .inl rfl⟩

theorem witness_ExtractMinTakesLeast :
    (([⟨2, 507⟩, ⟨2, 242⟩, ⟨2, 226⟩] : List Key).map Key.node).Nodup ∧
    extractMin [⟨2, 507⟩, ⟨2, 242⟩, ⟨2, 226⟩] = some (⟨2, 226⟩, [⟨2, 507⟩, ⟨2, 242⟩]) := by decide

theorem witness_MergeMakesNode :
    let active : List Key := [⟨6, 509⟩, ⟨5, 225⟩]
    (254 < 255) ∧ (active.map Key.node).Nodup ∧ (∀ x ∈ active, x.node < 256 + 254) ∧
    ∃ nodes' active', mergeOnce 254 someNodes active = some (nodes', active') := by
  refine ⟨by decide, by decide, by decide, ?_⟩
  obtain ⟨n, a, h, -⟩ := mergeOnce_isSome 254 someNodes [⟨6, 509⟩, ⟨5, 225⟩] (by decide)
  exact ⟨n, a, h⟩

theorem witness_BuildLeavesTree : Ready enabled := enabled_ready

theorem witness_TreeHasShape :
    (∃ nodes, IsTreeOf (Vector.replicate 256 0) nodes) ∧ ∃ s, Inv s ∧ s.treeValid = true := by
  obtain ⟨nodes, h⟩ := exists_isTreeOf (Vector.replicate 256 0)
  exact ⟨⟨nodes, h⟩, { enabled with nodes := nodes, treeValid := true },
    { enabled_inv with
      codesNeedTree := fun _ => rfl
      treeOfFreq := fun _ => h
      codesOfTree := fun h => nomatch (show false = true from h)
      lowIsReset := fun h => nomatch (show false = true from h) }, rfl⟩

theorem witness_RootWeighsAllCounts :
    (∃ nodes, IsTreeOf (Vector.replicate 256 0) nodes) ∧ freqSum (Vector.replicate 256 0) < 2 ^ 32 :=
  ⟨exists_isTreeOf _, by decide +kernel⟩

/-- Two ready states of equal FREQ that hold different node tables. -/
theorem witness_BuildDependsOnFreqOnly :
    Ready enabled ∧ Ready { enabled with nodes := someNodes } ∧ enabled.freq = { enabled with nodes := someNodes }.freq :=
  ⟨enabled_ready, ⟨rfl, rfl, rfl⟩, rfl⟩

theorem witness_ZeroWeightsGiveCompleteTree : ∃ nodes, IsTreeOf (Vector.replicate 256 0) nodes := exists_isTreeOf _

/-- Vector TB2: only entry 128 is not zero. -/
theorem witness_SingleSymbolGetsCodeOne :
    let freq : Vector Word 256 := (Vector.replicate 256 0).setIfInBounds 128 1
    128 < 256 ∧ (∃ nodes, IsTreeOf freq nodes) ∧ ∀ j < 256, (freq[j]?).getD 0 ≠ 0 ↔ j = 128 := by
  refine ⟨by decide, exists_isTreeOf _, fun j hj => ?_⟩
  by_cases h : j = 128
  · subst h
    simp
  · simp [Ne.symm h, hj, h]

theorem witness_HeavierLeafIsNotDeeper :
    let freq : Vector Word 256 := (Vector.replicate 256 0).setIfInBounds 255 1
    (∃ nodes, IsTreeOf freq nodes) ∧ freqSum freq < 2 ^ 32 ∧ 255 < 256 ∧ 0 < 256 ∧
    ((freq[0]?).getD 0).toNat < ((freq[255]?).getD 0).toNat := by
  refine ⟨exists_isTreeOf _, ?_, by decide, by decide, ?_⟩ <;> decide +kernel

/-- A ready state with a tree. -/
theorem witness_GencodeDerivesPaths :
    ∃ s : State, Ready s ∧ s.treeValid = true ∧ IsTreeOf (Vector.replicate 256 0) s.nodes := by
  obtain ⟨nodes, h⟩ := exists_isTreeOf (Vector.replicate 256 0)
  exact ⟨{ enabled with nodes := nodes, treeValid := true }, ⟨rfl, rfl, rfl⟩, rfl, h⟩

theorem witness_CodesArePrefixFree :
    (∃ nodes, IsTreeOf (Vector.replicate 256 0) nodes) ∧ 0 < 256 ∧ 255 < 256 ∧ 0 ≠ 255 :=
  ⟨exists_isTreeOf _, by decide, by decide, by decide⟩

theorem witness_CodesFillCodeSpace :
    (∃ nodes, IsTreeOf (Vector.replicate 256 0) nodes) ∧ 255 ≤ (List.replicate 255 true).length :=
  ⟨exists_isTreeOf _, List.length_replicate.ge⟩

theorem plain_of_map {s : State} (h : s.platform.dataMap = []) (hc : s.platform.coherent = true) (a n : Nat) :
    PlainSource s a n ∧ PlainDest s a n := by
  have hk : ∀ x, kindAt s.platform x = .memory := fun x => by simp [kindAt, h]
  exact ⟨fun k _ => ⟨.inl (hk _), .inl hc⟩, fun k _ => .inl (hk _)⟩

/-- "abr" with the codes of vector GC2 fits one byte exactly. -/
theorem witness_EncodePacksCodes :
    let s := toEncode 1
    memWf s.mem ∧ Ready s ∧ s.codesValid = true ∧ rangeOK 0x1000 3 = true ∧ rangeOK 0x2000 1 = true ∧
    overlap 0x1000 3 0x2000 1 = false ∧ PlainSource s 0x1000 3 ∧ PlainDest s 0x2000 1 ∧
    (codeStream s (bytesAt s.mem 0x1000 3)).length = 7 :=
  ⟨by decide, ⟨rfl, rfl, rfl⟩, rfl, by decide, by decide, by decide, (plain_of_map rfl rfl _ _).1, (plain_of_map rfl rfl _ _).2,
    by decide +kernel⟩

theorem witness_EncodeOfEmptyBuffer :
    let s := { toEncode 0 with params := Params.reset }
    Ready s ∧ s.codesValid = true ∧ s.params.srcLen = 0 ∧
    rangeOK s.params.dstAddr.toNat s.params.dstCap.toNat = true := ⟨⟨rfl, rfl, rfl⟩, rfl, rfl, by decide⟩

/-- The seven bits of "abr" end in a partial byte that has no room; and eight times 'a' fill a
byte that has no room, before a ninth source byte that cannot be read. -/
theorem witness_EncodeOverflowsAtCapacity :
    let s := toEncode 0
    let u := eightAs 0 [⟨0x1008, 1, .readError⟩]
    (memWf s.mem ∧ Ready s ∧ s.codesValid = true ∧ rangeOK 0x1000 3 = true ∧ rangeOK 0x2000 0 = true ∧
      overlap 0x1000 3 0x2000 0 = false ∧ PlainSource s 0x1000 3 ∧ PlainDest s 0x2000 0 ∧
      (3 = s.params.srcLen.toNat ∧ 0 < ((codeStream s (bytesAt s.mem 0x1000 3)).length + 7) / 8)) ∧
    (memWf u.mem ∧ Ready u ∧ u.codesValid = true ∧ rangeOK 0x1000 9 = true ∧ rangeOK 0x2000 0 = true ∧
      overlap 0x1000 9 0x2000 0 = false ∧ 8 ≤ u.params.srcLen.toNat ∧ PlainSource u 0x1000 8 ∧ PlainDest u 0x2000 0 ∧
      8 * (0 + 1) ≤ (codeStream u (bytesAt u.mem 0x1000 8)).length ∧ failsRead u (0x1000 + 8)) :=
  ⟨⟨by decide, ⟨rfl, rfl, rfl⟩, rfl, by decide, by decide, by decide, (plain_of_map rfl rfl _ _).1,
      (plain_of_map rfl rfl _ _).2, rfl, by decide +kernel⟩,
    by decide, ⟨rfl, rfl, rfl⟩, rfl, by decide, by decide, by decide, by decide,
      fun k hk => ⟨.inl (by interval_cases k <;> decide), .inl rfl⟩, fun k hk => absurd hk (by omega), by decide +kernel,
      .inl (by decide)⟩

/-- The third source byte cannot be read; the only output byte cannot be written, once after the last source byte, and
once before a ninth source byte that cannot be read. -/
theorem witness_EncodeStopsAtBusError :
    let s := { toEncode 1 with platform := { Platform.reset with dataMap := [⟨0x1002, 1, .readError⟩] } }
    let u := { toEncode 1 with platform := { Platform.reset with dataMap := [⟨0x2000, 1, .writeError⟩] } }
    let v := eightAs 1 [⟨0x1008, 1, .readError⟩, ⟨0x2000, 1, .writeError⟩]
    (memWf s.mem ∧ Ready s ∧ s.codesValid = true ∧ rangeOK 0x1000 3 = true ∧ rangeOK 0x2000 1 = true ∧
      overlap 0x1000 3 0x2000 1 = false ∧ 2 < 3 ∧ PlainSource s 0x1000 2 ∧ failsRead s (0x1000 + 2) ∧
      (codeStream s (bytesAt s.mem 0x1000 2)).length / 8 = 0 ∧ PlainDest s 0x2000 0) ∧
    (memWf u.mem ∧ Ready u ∧ u.codesValid = true ∧ rangeOK 0x1000 3 = true ∧ rangeOK 0x2000 1 = true ∧
      overlap 0x1000 3 0x2000 1 = false ∧ PlainSource u 0x1000 3 ∧
      (3 = u.params.srcLen.toNat ∧ 0 < ((codeStream u (bytesAt u.mem 0x1000 3)).length + 7) / 8) ∧ 0 < 1 ∧
      PlainDest u 0x2000 0 ∧ failsWrite u (0x2000 + 0)) ∧
    (memWf v.mem ∧ Ready v ∧ v.codesValid = true ∧ rangeOK 0x1000 9 = true ∧ rangeOK 0x2000 1 = true ∧
      overlap 0x1000 9 0x2000 1 = false ∧ 8 ≤ v.params.srcLen.toNat ∧ PlainSource v 0x1000 8 ∧
      8 * (0 + 1) ≤ (codeStream v (bytesAt v.mem 0x1000 8)).length ∧ 0 < 1 ∧ PlainDest v 0x2000 0 ∧
      failsWrite v (0x2000 + 0) ∧ failsRead v (0x1000 + 8)) := by
  refine ⟨⟨by decide, ⟨rfl, rfl, rfl⟩, rfl, by decide, by decide, by decide, by decide, ?_, .inl (by decide), by decide +kernel,
    fun k hk => absurd hk (by omega)⟩, ⟨by decide, ⟨rfl, rfl, rfl⟩, rfl, by decide, by decide, by decide, ?_,
    ⟨rfl, by decide +kernel⟩, by decide, fun k hk => absurd hk (by omega), .inl (by decide)⟩, by decide, ⟨rfl, rfl, rfl⟩, rfl,
    by decide, by decide, by decide, by decide, ?_, by decide +kernel, by decide, fun k hk => absurd hk (by omega),
    .inl (by decide), .inl (by decide)⟩
  all_goals exact fun k hk => ⟨.inl (by interval_cases k <;> decide), .inl rfl⟩

/-- 'a' and 'b' are spelled by their codes in the links of vector TB3. -/
theorem spells_ab : Spells someNodes [225, 226] [false, true, true, false] :=
  ⟨[[false], [true, true, false]],
    .cons ⟨by decide, by unfold PathTo; decide +kernel⟩ (.cons ⟨by decide, by unfold PathTo; decide +kernel⟩ .nil), rfl⟩

theorem spells_abr : Spells someNodes [225, 226, 242] [false, true, true, false, true, true, true] :=
  ⟨[[false], [true, true, false], [true, true, true]],
    .cons ⟨by decide, by unfold PathTo; decide +kernel⟩ (.cons ⟨by decide, by unfold PathTo; decide +kernel⟩
      (.cons ⟨by decide, by unfold PathTo; decide +kernel⟩ .nil)), rfl⟩

theorem stays_eleven : StaysInternal someNodes [true, true] := by unfold StaysInternal; decide +kernel

theorem witness_DecodeWritesSymbols :
    let s := toDecode 2 4
    memWf s.mem ∧ Ready s ∧ s.treeValid = true ∧ rangeOK 0x1000 (bytesOfBits 4) = true ∧ rangeOK 0x2000 4 = true ∧
    overlap 0x1000 (bytesOfBits 4) 0x2000 4 = false ∧ [225, 226].length = s.params.symCount.toNat ∧
    s.params.symCount.toNat ≤ 4 ∧ Spells s.nodes [225, 226] [false, true, true, false] ∧
    (∀ k < 4, [false, true, true, false][k]? = some (memBit s.mem 0x1000 k)) ∧
    PlainSource s 0x1000 (bytesOfBits 4) ∧ PlainDest s 0x2000 2 :=
  ⟨by decide, ⟨rfl, rfl, rfl⟩, rfl, by decide, by decide, by decide, rfl, by decide, spells_ab, by decide +kernel,
    (plain_of_map rfl rfl _ _).1, (plain_of_map rfl rfl _ _).2⟩

/-- Six bits `011011` end inside the third code (as vector DE5). -/
theorem witness_DecodeRaisesTruncated :
    let s := toDecode 3 6
    memWf s.mem ∧ Ready s ∧ s.treeValid = true ∧ rangeOK 0x1000 (bytesOfBits 6) = true ∧ rangeOK 0x2000 4 = true ∧
    overlap 0x1000 (bytesOfBits 6) 0x2000 4 = false ∧ [225, 226].length < s.params.symCount.toNat ∧
    s.params.symCount.toNat ≤ 4 ∧ Spells s.nodes [225, 226] [false, true, true, false] ∧
    StaysInternal s.nodes [true, true] ∧
    (∀ k < 6, [false, true, true, false, true, true][k]? = some (memBit s.mem 0x1000 k)) ∧
    PlainSource s 0x1000 (bytesOfBits 6) ∧ PlainDest s 0x2000 2 :=
  ⟨by decide, ⟨rfl, rfl, rfl⟩, rfl, by decide, by decide, by decide, by decide, by decide, spells_ab, stays_eleven,
    by decide +kernel, (plain_of_map rfl rfl _ _).1, (plain_of_map rfl rfl _ _).2⟩

theorem witness_DecodeOfNoSymbols :
    let s := toDecode 0 1000
    Ready s ∧ s.treeValid = true ∧ s.params.symCount = 0 ∧ rangeOK 0x1000 (bytesOfBits 1000) = true ∧
    rangeOK 0x2000 4 = true ∧ overlap 0x1000 (bytesOfBits 1000) 0x2000 4 = false :=
  ⟨⟨rfl, rfl, rfl⟩, rfl, rfl, by decide, by decide, by decide⟩

/-- The second input byte cannot be read, after `abr` and one bit more of the first; in the other clause 'r' cannot be
written. -/
theorem witness_DecodeStopsAtBusError :
    let s := { prepared 0x1000 0 0x2000 4 4 16 [(0x1000, 0x6F#8)] with
      nodes := someNodes, treeValid := true, platform := { Platform.reset with dataMap := [⟨0x1001, 1, .readError⟩] } }
    let u := { toDecode 3 7 with platform := { Platform.reset with dataMap := [⟨0x2002, 1, .writeError⟩] } }
    (memWf s.mem ∧ Ready s ∧ s.treeValid = true ∧ rangeOK 0x1000 (bytesOfBits 16) = true ∧ rangeOK 0x2000 4 = true ∧
      overlap 0x1000 (bytesOfBits 16) 0x2000 4 = false ∧ [225, 226, 242].length < s.params.symCount.toNat ∧
      s.params.symCount.toNat ≤ 4 ∧ Spells s.nodes [225, 226, 242] [false, true, true, false, true, true, true] ∧
      PlainDest s 0x2000 3 ∧ StaysInternal s.nodes [true] ∧
      ([false, true, true, false, true, true, true] ++ [true]).length = 8 * 1 ∧ 8 * 1 < 16 ∧
      (∀ b < 8 * 1, ([false, true, true, false, true, true, true] ++ [true])[b]? = some (memBit s.mem 0x1000 b)) ∧
      PlainSource s 0x1000 1 ∧ failsRead s (0x1000 + 1)) ∧
    (memWf u.mem ∧ Ready u ∧ u.treeValid = true ∧ rangeOK 0x1000 (bytesOfBits 7) = true ∧ rangeOK 0x2000 4 = true ∧
      overlap 0x1000 (bytesOfBits 7) 0x2000 4 = false ∧ [225, 226].length < u.params.symCount.toNat ∧
      u.params.symCount.toNat ≤ 4 ∧ Spells u.nodes [225, 226] [false, true, true, false] ∧
      PlainDest u 0x2000 2 ∧ 242 < 256 ∧ PathTo u.nodes 242 [true, true, true] ∧
      (∀ b < 7, [false, true, true, false, true, true, true][b]? = some (memBit u.mem 0x1000 b)) ∧
      PlainSource u 0x1000 1 ∧ failsWrite u (0x2000 + 2)) := by
  refine ⟨⟨by decide, ⟨rfl, rfl, rfl⟩, rfl, by decide, by decide, by decide, by decide, by decide, spells_abr, ?_, ?_, by decide,
    by decide, by decide +kernel, ?_, .inl (by decide)⟩, by decide, ⟨rfl, rfl, rfl⟩, rfl, by decide, by decide, by decide, by decide,
    by decide, spells_ab, ?_, by decide, ?_, by decide +kernel, ?_, .inl (by decide)⟩
  · exact fun k hk => .inl (by interval_cases k <;> decide)
  · unfold StaysInternal; decide +kernel
  · exact fun k hk => ⟨.inl (by interval_cases k; decide), .inl rfl⟩
  · exact fun k hk => .inl (by interval_cases k <;> decide)
  · unfold PathTo; decide +kernel
  · exact fun k hk => ⟨.inl (by interval_cases k; decide), .inl rfl⟩

/-- ENCODE of one byte into 64 bytes of plain memory, on its way. -/
structure EncodesByte (lat : Latched) (u : State) : Prop where
  noError : u.err = false
  plain : u.platform = Platform.reset
  valid : u.codesValid = true
  wf : memWf u.mem
  raced : u.racedDst = []
  short : ∀ i, (codeAt u i).length ≤ 511
  progress :
    match u.run with
    | .idle => u.outCount.toNat ≤ 64
    | .start i => i = .encode ∧ u.lat = lat ∧ u.outBits = 0 ∧ u.outCount = 0
    | .encode k _ code =>
      u.lat = lat ∧ k ≤ 1 ∧ u.outBits.toNat + code.length ≤ 511 * k ∧ u.outCount.toNat = u.outBits.toNat / 8
    | _ => False

/-- The reset platform is all memory. -/
theorem kind_reset (a : Nat) : kindAt Platform.reset a = .memory := rfl

theorem encodesByte_step {lat : Latched} (hs : lat.srcLen = 1) (hd : lat.dstAddr = 0x2000) (hc : lat.dstCap = 64)
    (hcheck : ∀ u : State, u.codesValid = true → u.lat = lat → firstFailure .encode u = none) (u v : State)
    (h : EncodesByte lat u) (hv : engineStep u = some v) : EncodesByte lat v := by
  obtain ⟨he, hp, hval, hwf, hr, hsh, hprog⟩ := h
  cases hrun : u.run with
  | idle => simp [engineStep_idle hrun] at hv
  | start i =>
    simp only [hrun] at hprog
    obtain ⟨rfl, hl, hb, hn⟩ := hprog
    rw [engineStep_start hrun, hcheck u hval hl] at hv
    obtain rfl : enterEncode u = v := by simpa [enterMain] using hv
    exact ⟨he, hp, hval, hwf, hr, hsh, by simp [hl, hb, hn]⟩
  | encode k acc code =>
    simp only [hrun] at hprog
    obtain ⟨hl, hk, hb, hn⟩ := hprog
    have hcap : u.lat.dstCap.toNat = 64 := by rw [hl, hc]; rfl
    have hdst : u.lat.dstAddr.toNat = 0x2000 := by rw [hl, hd]; rfl
    have hlen : u.lat.srcLen.toNat = 1 := by rw [hl, hs]; rfl
    have wf' : ∀ x : Byte, memWf (memWrite u.mem (0x2000 + u.outCount.toNat) x) := fun x =>
      memWrite_wf _ _ _ (by unfold Config.dataSpace; omega) hwf
    have hplain : ∀ w : State, w.platform = Platform.reset → ∀ a, plainWrite w a := fun w hw a => .inl (by rw [hw]; rfl)
    have hroom : ¬ 64 ≤ u.outCount.toNat := by omega
    simp only [engineStep, move, hrun] at hv
    cases code with
    | cons b rest =>
      simp only [List.length_cons] at hb
      have hb1 : (u.outBits + 1).toNat = u.outBits.toNat + 1 := by
        rw [BitVec.toNat_add]
        exact Nat.mod_eq_of_lt (show _ + 1 < _ by omega)
      by_cases h8 : (u.outBits.toNat + 1) % 8 = 0
      · have hn1 : (u.outCount + 1).toNat = u.outCount.toNat + 1 := by
          rw [BitVec.toNat_add]
          exact Nat.mod_eq_of_lt (show _ + 1 < _ by omega)
        simp only [moveEncode, h8, if_true, emitByte, hcap, hroom, if_false, hdst] at hv
        rw [respondWrite_plain _ _ (hplain { u with outBits := u.outBits + 1 } hp _)] at hv
        obtain rfl := Option.some.inj hv
        exact ⟨he, hp, hval, wf' _, hr, hsh, hl, hk, by simp only [stored_outBits, logged_outBits, hb1]; omega,
          by simp only [stored_outCount, logged_outCount, stored_outBits, logged_outBits, hb1, hn1]; omega⟩
      · simp only [moveEncode, h8, if_false] at hv
        obtain rfl := Option.some.inj hv
        exact ⟨he, hp, hval, hwf, hr, hsh, hl, hk, by simp only [hb1]; omega, by simp only [hb1]; omega⟩
    | nil =>
      by_cases hread : k < 1
      · obtain rfl : k = 0 := by omega
        simp only [moveEncode, hlen, Nat.zero_lt_one, if_true] at hv
        rcases respondRead_cases hv with ⟨hf, -⟩ | rfl | ⟨-, -, rfl⟩
        · rw [failsRead, hp, kind_reset] at hf
          simp at hf
        all_goals
          refine ⟨he, hp, hval, hwf, hr, hsh, hl, Nat.le_refl 1, ?_, hn⟩
          simp only [takeSource, drawn_outBits, logged_outBits]
          have := hsh (symIndex (Config.freeByte u.draws))
          have := hsh (symIndex (memRead u.mem (u.lat.srcAddr.toNat + 0)))
          simp only [List.length_nil] at hb
          first
            | (change _ + (codeAt u (symIndex (Config.freeByte u.draws))).length ≤ _; omega)
            | (change _ + (codeAt u (symIndex (memRead u.mem (u.lat.srcAddr.toNat + 0)))).length ≤ _; omega)
      · simp only [moveEncode, hlen, hread, if_false] at hv
        simp only [List.length_nil] at hb
        have done : ∀ w : State, w.err = false → w.platform = Platform.reset → w.codesValid = true → memWf w.mem →
            w.racedDst = [] → w.codes = u.codes → w.outCount.toNat ≤ 64 → EncodesByte lat (complete w) :=
          fun w h1 h2 h3 h4 h5 h6 h7 => ⟨h1, h2, h3, by simpa [h5, scrambled] using h4, rfl,
            fun i => by simpa [codeAt, h6] using hsh i, h7⟩
        by_cases hpad : u.outBits.toNat % 8 ≠ 0
        · have hn1 : (u.outCount + 1).toNat = u.outCount.toNat + 1 := by
            rw [BitVec.toNat_add]
            exact Nat.mod_eq_of_lt (show _ + 1 < _ by omega)
          rw [if_pos hpad] at hv
          simp only [emitByte, hcap, hroom, if_false, hdst] at hv
          rw [respondWrite_plain _ _ (hplain u hp _)] at hv
          obtain rfl := Option.some.inj hv
          exact done _ he hp hval (wf' _) hr rfl (by simp only [stored_outCount, logged_outCount, hn1]; omega)
        · rw [if_neg hpad] at hv
          obtain rfl := Option.some.inj hv
          exact done _ he hp hval hwf hr rfl (by omega)
  | _ => simp [hrun] at hprog

/-- A ready state whose code table is the one of its tree, with these parameters and this memory. -/
theorem exists_coded (p : Params) (m : List Host.Cell) (hm : memWf m) :
    ∃ s : State, Inv s ∧ Ready s ∧ s.codesValid = true ∧ s.params = p ∧ s.mem = m ∧ s.inputs = [] ∧
      s.platform = Platform.reset ∧ s.treeValid = true ∧ ∀ i, (codeAt s i).length ≤ 511 := by
  obtain ⟨nodes, h⟩ := exists_isTreeOf (Vector.replicate 256 0)
  refine ⟨{ enabled with
      params := p, mem := m, nodes := nodes, treeValid := true, codesValid := true
      codes := Vector.ofFn (fun i => (leafCode nodes i.val).getD []) },
    { enabled_inv with
      memOk := hm
      codesNeedTree := fun _ => rfl
      treeOfFreq := fun _ => h
      codesOfTree := fun _ i hi => ?_
      lowIsReset := fun h => nomatch (show false = true from h) }, ⟨rfl, rfl, rfl⟩, rfl, rfl, rfl, rfl, rfl, rfl, fun i => ?_⟩
  · obtain ⟨code, hc⟩ := leafCode_isSome h i hi
    simp [hi, hc]
  · by_cases hi : i < 256
    · obtain ⟨code, hc, hl⟩ := leafCode_isSome h i hi
      simpa [codeAt, hi, hc] using hl.le
    · simp [codeAt, hi]

theorem halves_append (w : Quad) : w.extractLsb' 32 32 ++ w.extractLsb' 0 32 = w := by
  rw [BitVec.extractLsb'_append_extractLsb'_eq_extractLsb' (by decide)]
  simp

/-- One byte at `0x1000` into 64 bytes at `0x2000`. -/
def packsOne : Params :=
  { srcAddr := 0x1000, srcLen := 1, dstAddr := 0x2000, dstCap := 64, symCount := 1, inBitsLo := 0, inBitsHi := 0 }

/-- One byte is packed, and DECODE is given what that made. -/
theorem witness_DecodeInvertsEncode :
    ∃ s t u : State, Inv s ∧ Ready s ∧ s.codesValid = true ∧ s.params = packsOne ∧
      PlainSource s 0x1000 1 ∧ PlainDest s 0x2000 64 ∧ exec .encode s = .next t ∧ t.err = false ∧
      memWf u.mem ∧ Ready u ∧ u.treeValid = true ∧ u.nodes = s.nodes ∧ u.params.srcAddr = s.params.dstAddr ∧
      u.params.inBitsHi ++ u.params.inBitsLo = t.outBits ∧ u.params.symCount = s.params.srcLen ∧
      u.params.dstAddr = 0x8000 ∧ u.params.dstCap = 1 ∧
      (∀ k < t.outCount.toNat, memRead u.mem (0x2000 + k) = memRead t.mem (0x2000 + k)) ∧
      rangeOK 0x8000 1 = true ∧ overlap 0x2000 t.outCount.toNat 0x8000 1 = false ∧
      PlainSource u 0x2000 t.outCount.toNat ∧ PlainDest u 0x8000 1 := by
  obtain ⟨s, hi, hr, hc, hp, hm, hin, hpl, ht, hlen⟩ := exists_coded packsOne [(0x1000, 0x61#8)] (by decide)
  have hcheck : ∀ u : State, u.codesValid = true → u.lat = latch packsOne → firstFailure .encode u = none := by
    intro u hv hl
    simp only [firstFailure, checkState, hv, hl]
    decide
  have hstart : EncodesByte (latch packsOne) (accept (encode .encode) (.start .encode) s) :=
    ⟨rfl, hpl, by simp [accept, codesAfterAccept, clearsTables, encode, hc], hi.memOk, rfl, hlen,
      ⟨rfl, by rw [← hp]; rfl, rfl, rfl⟩⟩
  have h := settle_keeps (encodesByte_step rfl rfl rfl hcheck) _ hstart
  refine ⟨s, _, { s with
    mem := (settle (accept (encode .encode) (.start .encode) s)).mem
    params := { packsOne with
      srcAddr := 0x2000, dstAddr := 0x8000, dstCap := 1
      inBitsLo := (settle (accept (encode .encode) (.start .encode) s)).outBits.extractLsb' 0 32
      inBitsHi := (settle (accept (encode .encode) (.start .encode) s)).outBits.extractLsb' 32 32 } },
    hi, hr, hc, hp, (plain_of_map (by rw [hpl]; rfl) (by rw [hpl]; rfl) _ _).1,
    (plain_of_map (by rw [hpl]; rfl) (by rw [hpl]; rfl) _ _).2, exec_idle .encode hr.1 hr.2.1, h.noError, h.wf, hr, ht,
    rfl, by rw [hp]; rfl, ?_, by rw [hp]; rfl, rfl, rfl, fun _ _ => rfl, rfl, ?_,
    (plain_of_map (by simp only [hpl]; rfl) (by simp only [hpl]; rfl) _ _).1,
    (plain_of_map (by simp only [hpl]; rfl) (by simp only [hpl]; rfl) _ _).2⟩
  · exact halves_append _
  · have : (settle (accept (encode .encode) (.start .encode) s)).outCount.toNat ≤ 64 := by
      have hp := h.progress
      split at hp <;> first | exact hp | omega | skip
      · obtain ⟨-, -, -, hn⟩ := hp; rw [hn]; decide
      · exact hp.elim
    simp [overlap]
    omega

theorem witness_TableCommandsFrame :
    enabled.rstLow = false ∧ enabled.run = .idle ∧ ∃ t, exec .fcount enabled = .next t := ⟨rfl, rfl, _, rfl⟩

theorem witness_StreamCommandsFrame :
    (toEncode 1).rstLow = false ∧ (toEncode 1).run = .idle ∧
    ∃ t, exec .encode (toEncode 1) = .next t ∧ t.outCount = 1 :=
  ⟨rfl, rfl, _, rfl, by decide +kernel⟩

theorem witness_ParameterRegistersReadBack :
    { enabled with run := .fcount }.rstLow = false ∧ 0x014 ∈ [0x010, 0x014, 0x018, 0x01C, 0x020, 0x024, 0x028] := by
  decide

theorem witness_WindowsShowArrays :
    (toEncode 1).rstLow = false ∧ (toEncode 1).run = .idle ∧ (toEncode 1).treeValid = true ∧
    (toEncode 1).codesValid = true ∧ (codeAt (toEncode 1) 226).length = 3 :=
  ⟨rfl, rfl, rfl, rfl, by decide +kernel⟩

theorem witness_UnspecifiedReadsAreFree :
    busy { enabled with run := .fcount } = true ∧ enabled.treeValid = false ∧ enabled.codesValid = false ∧
    (0x1FF4 < 0x1FF8 ∧ 0x7FFC < 0x8000 ∧ 0x028 < 0x02C) := by decide

theorem witness_ReservedOffsetsIgnoreWrites :
    enabled.rstLow = false ∧ (0x03C ≤ 0x3FC ∧ 0x3FC < 0x400) ∧ (0x1FF8 ≤ 0x3FFC ∧ 0x3FFC < 0x4000) := by decide

theorem witness_PortRefusesOtherAccesses :
    enabled.rstLow = false ∧ enabled.platform.hufeBase ≤ 0x008 ∧ 0x008 < enabled.platform.hufeBase + 0x8000 ∧ (2 ≠ 4) ∧
    hasCome (.after 0) enabled = true ∧ [0x01#8].length ≠ 4 := by decide

theorem witness_ResetValues : ∃ s t : State, s.rstLow = false ∧ s.run = .fcount ∧ t = resetEngine s :=
  ⟨{ enabled with run := .fcount }, _, rfl, rfl, rfl⟩

theorem witness_SoftResetRestoresReset :
    { toEncode 1 with run := .fcount }.rstLow = false ∧ (0x3#32).getLsbD 1 = true ∧ (0x1#32).getLsbD 1 = false := by
  decide

/-- A reset that finds ENCODE about to write its byte, with a byte of the destination raced; and an idle engine. -/
theorem witness_ResetEndsRunningCommand :
    let s := { toEncode 1 with
      lat := latch (toEncode 1).params, outBits := 7, run := .encode 3 0x6E#8 [], racedDst := [0x2000] }
    memWf s.mem ∧ busy s = true ∧ 0x2000 ∈ s.racedDst ∧ (∃ t v k, move s = .write t 0x2000 v k) ∧
    (toEncode 1).run = .idle ∧ (toEncode 1).racedDst = [] :=
  ⟨by decide, rfl, by decide, ⟨_, _, _, rfl⟩, rfl, rfl⟩

theorem low_inv : Inv { State.reset with rstLow := true } where
  memOk := by decide
  codesNeedTree := by decide
  doneNotBusy := by decide
  errExactlyCode := by decide
  codeDefined := by decide
  busyNoError := by decide
  infoNeedsError := by decide
  countsFit := by decide +kernel
  treeOfFreq := by intro h; exact absurd h (by decide)
  codesOfTree := by intro h; exact absurd h (by decide)
  running := ⟨rfl, rfl, rfl, rfl⟩
  lowIsReset := fun _ => ⟨rfl, rfl, rfl, rfl, rfl, rfl, rfl, rfl, rfl, rfl, rfl, rfl, rfl, rfl⟩
  accessesOk := by decide
  racesOk := by decide
  dirtyOk := by decide
  coherentClean := by decide

theorem witness_HardResetHoldsEngine :
    { State.reset with rstLow := true }.rstLow = true ∧ Inv { State.reset with rstLow := true } := ⟨rfl, low_inv⟩

theorem witness_HostWaitsForDone :
    enabled.rstLow = false ∧ { enabled with inputs := [⟨.wait, .read 8 4⟩] }.done = false ∧
    { enabled with inputs := [⟨.waitOk, .read 8 4⟩], done := true, err := true }.err = true := ⟨rfl, rfl, rfl⟩

/-- ENCODE runs, from "abr" to four bytes at `0x2000`. -/
theorem witness_RacedBytesAreFree :
    let s := { toEncode 4 with lat := latch (toEncode 4).params, run := .encode 0 0 [] }
    memWf s.mem ∧ (∀ x ∈ s.racedDst, x < 2 ^ 32) ∧ kindAt s.platform 0x1002 = .memory ∧ inSource s 0x1002 = true ∧
    inDest s 0x2003 = true ∧ inDest s 0x2004 = false := by
  refine ⟨?_, ?_, rfl, ?_, ?_, ?_⟩ <;> decide

/-- A platform whose master port is not coherent. -/
def incoherent : State := { enabled with platform := { Platform.reset with coherent := false } }

/-- ENCODE of "abr" about to write its byte, without a coherent port. -/
def aboutToWrite : State :=
  { toEncode 1 with
    platform := { Platform.reset with coherent := false }, lat := latch (toEncode 1).params, outBits := 7
    run := .encode 3 0x6E#8 [] }

/-- The last byte of the data space with both kinds of port; the command after it writes elsewhere. -/
theorem witness_CacheMaintenanceRestoresOrder :
    (kindAt aboutToWrite.platform 0xFFFFFFFF = .memory ∧ aboutToWrite.rstLow = false ∧
      0xFFFFFFFF ∉ aboutToWrite.racedDst ∧ memWf aboutToWrite.mem ∧ aboutToWrite.platform.coherent = false ∧
      inDest (accept 4 (.start .encode) (pollStatus (complete (stored 0xFFFFFFFF 1 aboutToWrite)))) 0xFFFFFFFF = false) ∧
    (kindAt (toEncode 1).platform 0x2000 = .memory ∧ (toEncode 1).rstLow = false ∧ 0x2000 ∉ (toEncode 1).racedDst ∧
      memWf (toEncode 1).mem ∧ (toEncode 1).platform.coherent = true) :=
  ⟨⟨rfl, rfl, by decide, by decide, rfl, by decide +kernel⟩, rfl, rfl, by decide, by decide, rfl⟩

/-- An idle engine with a coherent port and without one. -/
theorem witness_CleaningRestoresIssueOrder :
    (incoherent.run = .idle ∧ incoherent.platform.coherent = false ∧ kindAt incoherent.platform 0xFFFFFFFF = .memory ∧
      duringAhead (accept 1 (.start .fcount) incoherent) incoherent.inputs = false ∧ memWf incoherent.mem) ∧
    (enabled.run = .idle ∧ enabled.platform.coherent = true ∧ kindAt enabled.platform 0 = .memory ∧
      duringAhead (accept 0 (.start .nop) enabled) enabled.inputs = false ∧ memWf enabled.mem) :=
  ⟨⟨rfl, rfl, rfl, rfl, by decide⟩, rfl, rfl, rfl, rfl, by decide⟩

theorem witness_StepKeepsInvariant : Inv enabled ∧ ∃ t, step enabled = .next t :=
  ⟨enabled_inv, _, rfl⟩

/-- A parameter register and the last word of the block, written and read at once. -/
theorem witness_RegisterPortTransfersWords :
    (0x7FFC < 0x8000 ∧ 0x7FFC % 4 = 0) ∧ (0x014 < 0x8000 ∧ 0x014 % 4 = 0 ∧ 0x014 ≠ 0x00C) ∧
    hasCome (.after 0) enabled = true ∧ hasCome (.during 0) enabled = true ∧
    hasCome .wait { enabled with done := true } = true := by decide

theorem witness_ResetPinHoldsAndReleases :
    hasCome (.after 0) { enabled with run := .fcount } = true ∧ hasCome (.after 0) { State.reset with rstLow := true } = true ∧
    Inv { State.reset with rstLow := true, inputs := [⟨.after 0, .resetHigh⟩] } :=
  ⟨rfl, rfl, { low_inv with }⟩

/-- R74: a store that is due while FCOUNT runs clouds the read of its byte, and FCOUNT still runs when it comes; one that
is not comes after FCOUNT has read the byte in memory (R71). -/
theorem test_race_is_due_during :
    let s := prepared 0x1000 1 0 0 0 0 [(0x1000, 0x05#8)]
    let t := resultOf (exec .fcount { s with inputs := [⟨.during 9, .store 0x1000 0x06#8⟩] })
    let u := resultOf (exec .fcount { s with inputs := [⟨.after 0, .store 0x1000 0x06#8⟩] })
    busy t = true ∧ t.draws = 1 ∧ busy u = false ∧ u.draws = 0 ∧ freqAt u 133 = 1 := by decide +kernel

/-- R74, R121: a command that meets a byte that never answers still runs when the store comes; its read before that was
any byte. -/
theorem test_race_with_stuck_command :
    let s := { prepared 0x1000 2 0 0 0 0 [(0x1000, 0x05#8)] with
      platform := { Platform.reset with dataMap := [⟨0x1001, 1, .silent⟩] } }
    let t := resultOf (exec .fcount { s with inputs := [⟨.after 0, .store 0x1000 0x06#8⟩] })
    let u := resultOf (exec .fcount { s with inputs := [⟨.after 9, .store 0x1000 0x06#8⟩] })
    busy t = true ∧ t.accesses = [] ∧ busy u = true ∧ u.accesses = [.read 0x1000] ∧ u.draws = 1 := by decide +kernel

/-- R72, R77: the host invalidates ENCODE's output before it has read DONE = 1, and again after it: only the second frees
the byte from the host's caches, and only then is a load promised it. -/
theorem test_invalidate_after_done :
    let t := resultOf (exec .encode { toEncode 1 with platform := { Platform.reset with coherent := false } })
    let early := hostInvalidate 0x2000 1 t
    let late := hostInvalidate 0x2000 1 (portRead 0x008 4 early)
    t.unseen = [0x2000] ∧ early.hostStale = [0x2000] ∧ loadClouded early 0x2000 = true ∧ late.hostStale = [] ∧
    (hostLoad 0x2000 late).response = .byte 0x6E#8 := by decide +kernel

/-- R74, R77: the host writes a dirty byte back that ENCODE has not written yet: the byte races. -/
theorem test_clean_while_busy_races :
    let s := { toEncode 4 with
      platform := { Platform.reset with coherent := false }, lat := latch (toEncode 4).params, run := .encode 0 0 []
      hostDirty := [0x2003, 0x3000] }
    (hostClean 0x2000 0x2000 s).racedDst = [0x2003] ∧ (hostClean 0x2000 0x2000 s).hostDirty = [] := by decide +kernel

/-- FCOUNT of two bytes, just accepted, before a host store to the first of them. -/
def countsTwo (regions : List Region) : State :=
  { enabled with
    lat := latch { Params.reset with srcLen := 2 }, run := .start .fcount
    platform := { Platform.reset with dataMap := regions }, inputs := [⟨.after 9, .store 0 0x06#8⟩] }

theorem countsTwo_inv (regions : List Region) : Inv (countsTwo regions) :=
  { enabled_inv with
    doneNotBusy := fun h => nomatch (show false = true from h)
    busyNoError := fun _ => ⟨rfl, rfl, rfl⟩
    running := ⟨rfl, rfl, fun _ => ⟨rfl, rfl⟩, fun h => nomatch h⟩
    lowIsReset := fun h => nomatch (show false = true from h)
    coherentClean := fun _ => ⟨rfl, rfl, rfl⟩ }

/-- The store finds FCOUNT stuck at its second byte, or ended. -/
theorem witness_RacesAreForeseen :
    let s := countsTwo [⟨1, 1, .silent⟩]
    let u := countsTwo []
    (Inv s ∧ busy s = true ∧ inSource s 0 = true ∧ kindAt s.platform 0 = .memory ∧ busy (settle s) = true) ∧
    (Inv u ∧ busy u = true ∧ inSource u 0 = true ∧ kindAt u.platform 0 = .memory ∧ busy (settle u) = false ∧
      0 ∉ u.racedSrc ∧ u.platform.coherent = true) :=
  ⟨⟨countsTwo_inv _, rfl, by decide, by decide, by decide +kernel⟩, countsTwo_inv _, rfl, by decide, by decide,
    by decide +kernel, by decide, rfl⟩

/-- R97: `CMD NOP`, WAITOK and no line after it polls STATUS. -/
theorem test_last_wait_polls :
    hostActions 0 (fun _ => 7) 0 (.after 3) [.cmd .nop, .waitOk] =
      [⟨.after 3, .write 0x00C [0#8, 0#8, 0#8, 0#8]⟩, ⟨.waitOk, .read 0x008 4⟩] := by decide

end Sys2Proof.Machine.Tests
end

section
/-! PROOF. The register map (spec/10_state.md R21 to R47): which reads are exact, what each group of offsets shows, and
the statements on STATUS, the result registers, the windows and reset. -/

namespace Sys2Proof.Machine

/-! ## Exact and unspecified reads -/

theorem readRegister_exact {s : State} {off : Nat} (h : readUnspecified s off = false) :
    readRegister s off = (registerWord s off, s) := by
  simp [readRegister, h]

theorem readRegister_free {s : State} {off : Nat} (h : readUnspecified s off = true) :
    readRegister s off = (Config.freeWord s.draws, drawn s) := by
  simp [readRegister, h]

theorem inFreqWindow_iff (off : Nat) : inFreqWindow off = true ↔ 0x400 ≤ off ∧ off < 0x800 := by
  simp [inFreqWindow, inRange]

theorem inNodeWindow_iff (off : Nat) : inNodeWindow off = true ↔ 0x1000 ≤ off ∧ off < 0x1FF8 := by
  simp [inNodeWindow, inRange]

theorem inCodeWindow_iff (off : Nat) : inCodeWindow off = true ↔ 0x4000 ≤ off ∧ off < 0x8000 := by
  simp [inCodeWindow, inRange]

theorem resultOffset_iff (off : Nat) : resultOffset off = true ↔
    off ∈ [0x02C, 0x030, 0x034, 0x038] ∨ (0x400 ≤ off ∧ off < 0x800) ∨ (0x1000 ≤ off ∧ off < 0x1FF8) ∨
      (0x4000 ≤ off ∧ off < 0x8000) := by
  simp only [resultOffset, Bool.or_eq_true, beq_iff_eq, inFreqWindow_iff, inNodeWindow_iff, inCodeWindow_iff,
    offOUT_COUNT, offOUT_BITS_LO, offOUT_BITS_HI, offERR_INFO, List.mem_cons, List.not_mem_nil, or_false, or_assoc]

/-- R47: the offsets below OUT_COUNT and the reserved ones. -/
theorem resultOffset_eq_false {off : Nat}
    (h : off < 0x02C ∨ (0x03C ≤ off ∧ off < 0x400) ∨ (0x800 ≤ off ∧ off < 0x1000) ∨ (0x1FF8 ≤ off ∧ off < 0x4000)) :
    resultOffset off = false := by
  rw [Bool.eq_false_iff, ne_eq, resultOffset_iff]
  simp only [List.mem_cons, List.not_mem_nil, or_false]
  omega

/-- R46, R47: the unspecified reads while `rst_n` is high. -/
theorem readUnspecified_iff {s : State} (hl : s.rstLow = false) (off : Nat) : readUnspecified s off = true ↔
    (busy s = true ∧ resultOffset off = true) ∨ (s.treeValid = false ∧ inNodeWindow off = true) ∨
      (s.codesValid = false ∧ inCodeWindow off = true) := by
  simp [readUnspecified, hl, or_assoc]

/-- R47: below the result registers and at a reserved offset every read is exact, at any time. -/
theorem readRegister_of_not_result {s : State} {off : Nat} (hl : s.rstLow = false) (h : resultOffset off = false) :
    readRegister s off = (registerWord s off, s) := by
  apply readRegister_exact
  rw [Bool.eq_false_iff] at h ⊢
  intro hu
  rw [readUnspecified_iff hl] at hu
  rw [ne_eq, resultOffset_iff] at h
  rw [resultOffset_iff, inNodeWindow_iff, inCodeWindow_iff] at hu
  tauto

/-- R47: while idle only the NODE and the CODE window can be unspecified. -/
theorem readRegister_idle {s : State} {off : Nat} (hl : s.rstLow = false) (hi : s.run = .idle)
    (hn : inNodeWindow off = true → s.treeValid = true) (hc : inCodeWindow off = true → s.codesValid = true) :
    readRegister s off = (registerWord s off, s) := by
  apply readRegister_exact
  rw [Bool.eq_false_iff]
  intro hu
  rw [readUnspecified_iff hl] at hu
  rcases hu with ⟨hb, -⟩ | ⟨ht, hw⟩ | ⟨ht, hw⟩
  · exact (busy_eq_true_iff s).mp hb hi
  · simp [hn hw] at ht
  · simp [hc hw] at ht

/-- R39: past the last register only the three windows hold anything. -/
theorem registerWord_past_registers (s : State) {off : Nat} (h : 0x03C ≤ off) :
    registerWord s off =
      if inFreqWindow off then freqAt s ((off - 0x400) / 4)
      else if inNodeWindow off then nodeWord s (off - 0x1000)
      else if inCodeWindow off then codeWindowWord s (off - 0x4000)
      else 0 := by
  have hne : ∀ r ≤ 0x038, off ≠ r := by omega
  unfold registerWord
  iterate 14 rw [if_neg (hne _ (by decide))]

/-- R35: a reserved offset reads 0. -/
theorem registerWord_reserved (s : State) {off : Nat}
    (h : (0x03C ≤ off ∧ off < 0x400) ∨ (0x800 ≤ off ∧ off < 0x1000) ∨ (0x1FF8 ≤ off ∧ off < 0x4000)) :
    registerWord s off = 0 := by
  rw [registerWord_past_registers s (by omega), if_neg (by rw [inFreqWindow_iff]; omega),
    if_neg (by rw [inNodeWindow_iff]; omega), if_neg (by rw [inCodeWindow_iff]; omega)]

/-- R39: only CTRL, STATUS and the parameter registers take a write. -/
theorem writeRegister_readOnly (s : State) {off : Nat} (v : Word) (h : off = 0 ∨ 0x02C ≤ off) :
    writeRegister off v s = s := by
  have hne : ∀ r, 0 < r ∧ r ≤ 0x028 → off ≠ r := by omega
  unfold writeRegister
  by_cases hl : s.rstLow = true
  · rw [if_pos hl]
  · rw [if_neg hl]
    iterate 9 rw [if_neg (hne _ (by decide))]

/-- Settles O45. -/
theorem unspecifiedReadsAreFree : Obligations.UnspecifiedReadsAreFree := by
  intro s off hl
  refine ⟨fun h => readRegister_free ?_, fun h => readRegister_of_not_result hl (resultOffset_eq_false h)⟩
  rwa [readUnspecified_iff hl, resultOffset_iff, inNodeWindow_iff, inCodeWindow_iff]

/-- Settles O46. -/
theorem reservedOffsetsIgnoreWrites : Obligations.ReservedOffsetsIgnoreWrites := by
  intro s off v hl
  refine ⟨fun h => ?_, readRegister_of_not_result hl (by decide), writeRegister_readOnly s v⟩
  by_cases hcmd : off = 0x00C
  · subst hcmd
    exact readRegister_of_not_result hl (by decide)
  · have hres : (0x03C ≤ off ∧ off < 0x400) ∨ (0x800 ≤ off ∧ off < 0x1000) ∨ (0x1FF8 ≤ off ∧ off < 0x4000) := by omega
    rw [readRegister_of_not_result hl (resultOffset_eq_false (.inr hres)), registerWord_reserved s hres]

/-! ## STATUS and CTRL -/

theorem statusWord_bits (s : State) :
    (statusWord s).getLsbD 0 = busy s ∧ (statusWord s).getLsbD 1 = s.done ∧ (statusWord s).getLsbD 2 = s.err ∧
    (statusWord s).getLsbD 3 = s.treeValid ∧ (statusWord s).getLsbD 4 = s.codesValid ∧
    (statusWord s).getLsbD 5 = s.cmdovr := by
  unfold statusWord
  refine ⟨?_, ?_, ?_, ?_, ?_, ?_⟩ <;> simp only [BitVec.getLsbD_append, BitVec.getLsbD_ofBool] <;> simp

theorem statusWord_fields (s : State) :
    (statusWord s).extractLsb' 6 2 = 0#2 ∧ (statusWord s).extractLsb' 8 4 = s.errcode ∧
    (statusWord s).extractLsb' 12 4 = 0#4 ∧ (statusWord s).extractLsb' 16 8 = s.lastcmd ∧
    (statusWord s).extractLsb' 24 8 = 0#8 := by
  unfold statusWord
  refine ⟨?_, ?_, ?_, ?_, ?_⟩ <;> repeat rw [BitVec.extractLsb'_append_eq_of_le (by decide)]
  case refine_5 => rfl
  all_goals rw [BitVec.extractLsb'_append_eq_of_add_le (by decide)]
  case refine_2 => exact BitVec.extractLsb'_eq_self
  case refine_4 => exact BitVec.extractLsb'_eq_self
  all_goals rfl

theorem ctrlWord_fields (s : State) : (ctrlWord s).getLsbD 0 = s.ie ∧ (ctrlWord s).extractLsb' 1 31 = 0#31 := by
  unfold ctrlWord
  constructor
  · simp only [BitVec.getLsbD_append, BitVec.getLsbD_ofBool]; simp
  · rw [BitVec.extractLsb'_append_eq_of_le (by decide)]; rfl

/-- R23: a write of STATUS is a write-one-to-clear of DONE and CMDOVR. -/
theorem writeRegister_status {s : State} (hl : s.rstLow = false) (v : Word) :
    writeRegister offSTATUS v s =
      { s with
        done := if v.getLsbD 1 then false else s.done
        cmdovr := if v.getLsbD 5 then false else s.cmdovr } := by
  have hw : writeRegister offSTATUS v s = writeStatus v s := by simp [writeRegister, hl, offSTATUS, offCTRL]
  rw [hw, writeStatus]
  cases v.getLsbD 1 <;> cases v.getLsbD 5 <;> simp

/-- Settles O42. -/
theorem statusWordAndClear : Obligations.StatusWordAndClear := by
  intro s v
  obtain ⟨hbusy, hdone, herr, htree, hcodes, hovr⟩ := statusWord_bits s
  obtain ⟨hlow, hcode, hmid, hlast, hhigh⟩ := statusWord_fields s
  obtain ⟨hie, hrest⟩ := ctrlWord_fields s
  exact ⟨hbusy, hdone, herr, htree, hcodes, hovr, hlow, hcode, hmid, hlast, hhigh, hie, hrest, fun hl =>
    ⟨readRegister_of_not_result hl (by decide), readRegister_status hl, writeRegister_status hl v⟩⟩

/-! ## Reset -/

theorem resetEngine_rstLow (s : State) : (resetEngine s).rstLow = s.rstLow := by
  rw [resetEngine, resetRegisters_rstLow]
  rcases flightLanded_cases s with h | h | ⟨t, a, v, k, -, h⟩ <;> rw [h] <;> rfl

theorem resetRegisters_engineReset (s : State) : EngineReset (resetRegisters s) := by
  simp [EngineReset]

theorem EngineReset.busy_eq {t : State} (h : EngineReset t) : busy t = false := (busy_eq_false_iff t).mpr h.1

theorem EngineReset.statusWord_eq {t : State} (h : EngineReset t) : statusWord t = 0 := by
  have hb := h.busy_eq
  obtain ⟨-, -, hdone, herr, htree, hcodes, hovr, hcode, hlast, -⟩ := h
  simp [statusWord, hb, hdone, herr, htree, hcodes, hovr, hcode, hlast]

theorem EngineReset.ctrlWord_eq {t : State} (h : EngineReset t) : ctrlWord t = 0 := by
  obtain ⟨-, hie, -⟩ := h
  simp [ctrlWord, hie]

theorem EngineReset.irq_eq {t : State} (h : EngineReset t) : irq t = false := by
  obtain ⟨-, hie, -⟩ := h
  simp [irq, hie]

theorem EngineReset.freqAt_eq {t : State} (h : EngineReset t) {i : Nat} (hi : i < 256) : freqAt t i = 0 := by
  obtain ⟨-, -, -, -, -, -, -, -, -, -, -, -, -, hfreq⟩ := h
  simp [freqAt, hfreq, hi]

/-- R50: after a reset every register but ID is 0. -/
theorem EngineReset.registerWord_eq {t : State} (h : EngineReset t) {off : Nat} (hpos : 0 < off) (hoff : off < 0x03C) :
    registerWord t off = 0 := by
  have hstatus := h.statusWord_eq
  have hctrl := h.ctrlWord_eq
  obtain ⟨-, -, -, -, -, -, -, -, -, hparams, hcount, hbits, hinfo, -⟩ := h
  have hwin : inFreqWindow off = false ∧ inNodeWindow off = false ∧ inCodeWindow off = false := by
    simp only [Bool.eq_false_iff, ne_eq, inFreqWindow_iff, inNodeWindow_iff, inCodeWindow_iff]
    omega
  simp [registerWord, hstatus, hctrl, hparams, Params.reset, hcount, hbits, hinfo, hwin, offID, hpos.ne']

/-- Settles O48. -/
theorem resetValues : Obligations.ResetValues := by
  intro t ht
  have hreset : EngineReset t ∧ t.rstLow = false := by
    rcases ht with rfl | ⟨s, hl, rfl⟩
    · exact ⟨⟨rfl, rfl, rfl, rfl, rfl, rfl, rfl, rfl, rfl, rfl, rfl, rfl, rfl, rfl⟩, rfl⟩
    · exact ⟨resetRegisters_engineReset _, (resetEngine_rstLow s).trans hl⟩
  obtain ⟨hr, hl⟩ := hreset
  refine ⟨hr, hr.statusWord_eq, hr.irq_eq, hl, fun i hi => hr.freqAt_eq hi,
    readRegister_of_not_result hl (by decide), fun off hoff => ?_⟩
  have hrange : 0 < off ∧ off < 0x03C := by
    simp only [List.mem_cons, List.not_mem_nil, or_false] at hoff; omega
  rw [readRegister_idle hl hr.1, hr.registerWord_eq hrange.1 hrange.2]
  · rw [inNodeWindow_iff]; omega
  · rw [inCodeWindow_iff]; omega

/-! ## The windows -/

theorem readRegister_freq {s : State} (hl : s.rstLow = false) (hi : s.run = .idle) {i : Nat} (h : i < 256) :
    readRegister s (0x400 + 4 * i) = (freqAt s i, s) := by
  rw [readRegister_idle hl hi (by rw [inNodeWindow_iff]; omega) (by rw [inCodeWindow_iff]; omega),
    registerWord_past_registers s (by omega), if_pos (by rw [inFreqWindow_iff]; omega)]
  congr 2
  omega

/-- R42: with TREE_VALID = 1 the NODE window is exact while idle. -/
theorem readRegister_node {s : State} (hl : s.rstLow = false) (hi : s.run = .idle) (ht : s.treeValid = true) {d : Nat}
    (h : d < 0xFF8) : readRegister s (0x1000 + d) = (nodeWord s d, s) := by
  rw [readRegister_idle hl hi (fun _ => ht) (by rw [inCodeWindow_iff]; omega),
    registerWord_past_registers s (by omega), if_neg (by rw [inFreqWindow_iff]; omega),
    if_pos (by rw [inNodeWindow_iff]; omega), Nat.add_sub_cancel_left]

/-- R45: with CODES_VALID = 1 the CODE window is exact while idle. -/
theorem readRegister_code {s : State} (hl : s.rstLow = false) (hi : s.run = .idle) (hc : s.codesValid = true) {d : Nat}
    (h : d < 0x4000) : readRegister s (0x4000 + d) = (codeWindowWord s d, s) := by
  rw [readRegister_idle hl hi (by rw [inNodeWindow_iff]; omega) (fun _ => hc),
    registerWord_past_registers s (by omega), if_neg (by rw [inFreqWindow_iff]; omega),
    if_neg (by rw [inNodeWindow_iff]; omega), if_pos (by rw [inCodeWindow_iff]; omega), Nat.add_sub_cancel_left]

theorem nodeWord_weight (s : State) (n : Nat) : nodeWord s (8 * n) = (nodeAt s.nodes n).weight := by
  simp [nodeWord]

theorem nodeWord_link (s : State) (n : Nat) : nodeWord s (8 * n + 4) = linkWord n (nodeAt s.nodes n) := by
  have hd : (8 * n + 4) / 8 = n := by omega
  have hm : (8 * n + 4) % 8 = 4 := by omega
  simp [nodeWord, hd, hm]

theorem linkWord_fields (n : Nat) (e : Node) :
    (linkWord n e).extractLsb' 0 9 = e.left ∧ (linkWord n e).extractLsb' 9 9 = e.right ∧
    (linkWord n e).extractLsb' 18 9 = e.parent ∧ (linkWord n e).extractLsb' 27 4 = 0#4 ∧
    (linkWord n e).getLsbD 31 = decide (n < 256) := by
  unfold linkWord
  refine ⟨?_, ?_, ?_, ?_, ?_⟩
  case refine_5 => simp only [BitVec.getLsbD_append, BitVec.getLsbD_ofBool]; simp
  all_goals
    repeat rw [BitVec.extractLsb'_append_eq_of_le (by decide)]
    rw [BitVec.extractLsb'_append_eq_of_add_le (by decide)]
  case refine_4 => rfl
  all_goals exact BitVec.extractLsb'_eq_self

theorem codeWindowWord_len (s : State) (i : Nat) : codeWindowWord s (64 * i) = lenWord (codeAt s i) := by
  simp [codeWindowWord]

theorem codeWindowWord_codew (s : State) (i : Nat) {j : Nat} (hj : j < 8) :
    codeWindowWord s (64 * i + (4 + 4 * j)) = codeWord (codeAt s i) j := by
  have hd : (64 * i + (4 + 4 * j)) / 64 = i := by omega
  have hm : (64 * i + (4 + 4 * j)) % 64 = 4 + 4 * j := by omega
  have hq : (4 + 4 * j) / 4 - 1 = j := by omega
  simp only [codeWindowWord, hd, hm, hq]
  rw [if_neg (by omega), if_pos (by omega)]

theorem codeWindowWord_pad (s : State) (i : Nat) {j : Nat} (hj : j < 7) :
    codeWindowWord s (64 * i + (0x24 + 4 * j)) = 0 := by
  have hm : (64 * i + (0x24 + 4 * j)) % 64 = 0x24 + 4 * j := by omega
  simp only [codeWindowWord, hm]
  rw [if_neg (by omega), if_neg (by omega)]

theorem toNat_lenWord {code : List Bool} (h : code.length ≤ 255) : (lenWord code).toNat = code.length := by
  simp only [lenWord, BitVec.toNat_append, BitVec.toNat_ofNat]
  simp
  omega

/-- Bits read as a number: the last one is bit 0, and what was read before them stands above. -/
theorem testBit_bitsToNat (bits : List Bool) (acc i : Nat) :
    (bitsToNat bits acc).testBit i =
      if i < bits.length then (bits[bits.length - 1 - i]?).getD false else acc.testBit (i - bits.length) := by
  induction bits generalizing acc with
  | nil => rfl
  | cons b rest ih =>
    rw [bitsToNat, ih, List.length_cons]
    by_cases hlt : i < rest.length
    · rw [if_pos hlt, if_pos (by omega), show rest.length + 1 - 1 - i = (rest.length - 1 - i) + 1 by omega,
        List.getElem?_cons_succ]
    · rw [if_neg hlt]
      by_cases heq : i = rest.length
      · subst heq; cases b <;> simp
      · rw [if_neg (by omega), show i - rest.length = (i - (rest.length + 1)) + 1 by omega]
        cases b <;> simp [Nat.testBit_succ, Nat.mul_add_div]

/-- R45: bit `31 - m` of CODEW[j] is bit `32*j + m` of the code, 0 past its end. -/
theorem codeWord_bit (code : List Bool) (j : Nat) {m : Nat} (hm : m < 32) :
    (codeWord code j).getLsbD (31 - m) = (code[32 * j + m]?).getD false := by
  have hlen : ((code.drop (32 * j)).take 32).length ≤ 32 := List.length_take_le _ _
  have hbit : code[32 * j + m]? = ((code.drop (32 * j)).take 32)[m]? := by
    rw [List.getElem?_take_of_lt hm, List.getElem?_drop]
  rw [codeWord, hbit]
  generalize (code.drop (32 * j)).take 32 = bits at hlen ⊢
  rw [BitVec.getLsbD_ofNat, Nat.testBit_mul_two_pow, testBit_bitsToNat]
  by_cases hin : m < bits.length
  · rw [if_pos (by omega), decide_eq_true (by omega), decide_eq_true (by omega),
      show bits.length - 1 - (31 - m - (32 - bits.length)) = m by omega]
    rfl
  · have hpad : ¬ 32 - bits.length ≤ 31 - m := by omega
    simp [hpad, List.getElem?_eq_none (Nat.not_lt.mp hin)]

/-- Settles O44. -/
theorem windowsShowArrays : Obligations.WindowsShowArrays := by
  intro s hl hi
  have hresult : ∀ off < 0x400, readRegister s off = (registerWord s off, s) := fun off h =>
    readRegister_idle hl hi (by rw [inNodeWindow_iff]; omega) (by rw [inCodeWindow_iff]; omega)
  refine ⟨hresult _ (by decide), hresult _ (by decide), hresult _ (by decide), hresult _ (by decide),
    fun i => readRegister_freq hl hi, fun ht n hn => ⟨?_, linkWord n (nodeAt s.nodes n), ?_, linkWord_fields n _⟩,
    fun hc i hi' hlen => ⟨⟨lenWord (codeAt s i), ?_, toNat_lenWord hlen⟩,
      fun j hj => ⟨codeWord (codeAt s i) j, ?_, fun m => codeWord_bit _ j⟩, fun j hj => ?_⟩⟩
  · rw [readRegister_node hl hi ht (by omega), nodeWord_weight]
  · rw [show 0x1004 + 8 * n = 0x1000 + (8 * n + 4) by omega, readRegister_node hl hi ht (by omega), nodeWord_link]
  · rw [readRegister_code hl hi hc (by omega), codeWindowWord_len]
  · rw [show 0x4004 + 64 * i + 4 * j = 0x4000 + (64 * i + (4 + 4 * j)) by omega,
      readRegister_code hl hi hc (by omega), codeWindowWord_codew s i hj]
  · rw [show 0x4024 + 64 * i + 4 * j = 0x4000 + (64 * i + (0x24 + 4 * j)) by omega,
      readRegister_code hl hi hc (by omega), codeWindowWord_pad s i hj]

end Sys2Proof.Machine
end

section
/-! PROOF. The tree BUILD leaves (spec/10_state.md R43): after every merge the nodes made so far are a forest whose roots
are the active nodes, and after the last merge one root is left, from which each node has exactly one path. -/

namespace Sys2Proof.Machine

/-! ## The forest of the nodes made so far -/

/-- R43: node `n` has two distinct children, made before it, and the sum of their weights. -/
def JoinsChildren (nodes : Vector Node 511) (n : Nat) : Prop :=
  (nodeAt nodes n).left ≠ (nodeAt nodes n).right ∧ (nodeAt nodes n).left.toNat < n ∧ (nodeAt nodes n).right.toNat < n ∧
  (nodeAt nodes n).weight =
    (nodeAt nodes (nodeAt nodes n).left.toNat).weight + (nodeAt nodes (nodeAt nodes n).right.toNat).weight

/-- R43: the parent link of node `n` and the child links of node `p` say the same. -/
def LinksAgree (nodes : Vector Node 511) (n p : Nat) : Prop :=
  (nodeAt nodes n).parent.toNat = p ↔ (nodeAt nodes p).left.toNat = n ∨ (nodeAt nodes p).right.toNat = n

/-- R43 for the nodes below `m`: each has its weight and children, and its parent or a place in the active set. -/
structure Forest (freq : Vector Word 256) (nodes : Vector Node 511) (active : List Key) (m : Nat) : Prop where
  leaf : ∀ n < 256, (nodeAt nodes n).left = Config.noNode ∧ (nodeAt nodes n).right = Config.noNode ∧
    (nodeAt nodes n).weight = (freq[n]?).getD 0
  internal : ∀ n, 256 ≤ n → n < m → JoinsChildren nodes n
  parent : ∀ n < m, ∀ p, 256 ≤ p → p < m → LinksAgree nodes n p
  /-- The roots of the forest are the active nodes. -/
  active_root : ∀ n ∈ active.map Key.node, n < m ∧ (nodeAt nodes n).parent = Config.noNode
  hasParent : ∀ n < m, n ∉ active.map Key.node → 256 ≤ (nodeAt nodes n).parent.toNat ∧ (nodeAt nodes n).parent.toNat < m

theorem mem_nodes_leafKeys (freq : Vector Word 256) (n : Nat) : n ∈ (leafKeys freq).map Key.node ↔ n < 256 := by
  simp [leafKeys]

theorem forest_withLeaves (freq : Vector Word 256) (old : Vector Node 511) :
    Forest freq (withLeaves freq old) (leafKeys freq) 256 where
  leaf n hn := by rw [nodeAt_withLeaves_leaf _ _ _ hn]; exact ⟨rfl, rfl, rfl⟩
  internal n h h' := by omega
  parent n hn p h h' := by omega
  active_root n hn := by
    rw [mem_nodes_leafKeys] at hn
    rw [nodeAt_withLeaves_leaf _ _ _ hn]; exact ⟨hn, rfl⟩
  hasParent n hn hna := absurd ((mem_nodes_leafKeys freq n).mpr hn) hna

theorem toNat_ofNat_link {n : Nat} (h : n < 511) : (BitVec.ofNat 9 n).toNat = n := by
  rw [BitVec.toNat_ofNat]; omega

/-! ## One merge -/

/-- What a merge of two roots into node `m` leaves in each field of each node. -/
structure MergeFields (old new : Vector Node 511) (m a b : Nat) : Prop where
  weight : ∀ x ≠ m, (nodeAt new x).weight = (nodeAt old x).weight
  left : ∀ x ≠ m, (nodeAt new x).left = (nodeAt old x).left
  right : ∀ x ≠ m, (nodeAt new x).right = (nodeAt old x).right
  parent : ∀ x, x ≠ m → x ≠ a → x ≠ b → (nodeAt new x).parent = (nodeAt old x).parent
  parent_child : ∀ x, x = a ∨ x = b → (nodeAt new x).parent.toNat = m
  made_weight : (nodeAt new m).weight = (nodeAt old a).weight + (nodeAt old b).weight
  made_left : (nodeAt new m).left.toNat = a
  made_right : (nodeAt new m).right.toNat = b
  made_parent : (nodeAt new m).parent = Config.noNode

theorem mergeInto_fields (nodes : Vector Node 511) {m : Nat} {a b : Key} (hm : m < 511) (ha : a.node < m)
    (hb : b.node < m) (hab : a.node ≠ b.node) : MergeFields nodes (mergeInto nodes m a b) m a.node b.node := by
  have hat := fun x => nodeAt_mergeInto nodes m x a b hm ha hb hab
  have hmade := hat m
  rw [if_pos rfl] at hmade
  have hother : ∀ x ≠ m, nodeAt (mergeInto nodes m a b) x =
      if x = a.node ∨ x = b.node then { nodeAt nodes x with parent := BitVec.ofNat 9 m } else nodeAt nodes x :=
    fun x hx => (hat x).trans (if_neg hx)
  refine ⟨fun x hx => ?_, fun x hx => ?_, fun x hx => ?_, fun x hx hxa hxb => ?_, fun x hx => ?_, ?_, ?_, ?_, ?_⟩
  · rw [hother x hx]; split <;> rfl
  · rw [hother x hx]; split <;> rfl
  · rw [hother x hx]; split <;> rfl
  · rw [hother x hx, if_neg (by simp [hxa, hxb])]
  · rw [hother x (by omega), if_pos hx]; exact toNat_ofNat_link hm
  · rw [hmade]
  · rw [hmade]; exact toNat_ofNat_link (by omega)
  · rw [hmade]; exact toNat_ofNat_link (by omega)
  · rw [hmade]

section
variable {freq : Vector Word 256} {old new : Vector Node 511} {active others : List Key} {m a b : Nat}

theorem Forest.parent_of_root (h : Forest freq old active m) {n : Nat} (hn : n ∈ active.map Key.node) :
    (nodeAt old n).parent.toNat = 511 := by
  obtain ⟨-, hroot⟩ := h.active_root n hn
  rw [hroot]
  rfl

/-- No node has a parent that is still to be made. -/
theorem Forest.parent_ne (h : Forest freq old active m) (hm : m < 511) {n : Nat} (hn : n < m) :
    (nodeAt old n).parent.toNat ≠ m := by
  by_cases ha : n ∈ active.map Key.node
  · have := h.parent_of_root ha
    omega
  · obtain ⟨-, hlt⟩ := h.hasParent n hn ha
    exact hlt.ne

theorem Forest.joinsChildren_merge (h : Forest freq old active m) (f : MergeFields old new m a b) (ha : a < m)
    (hb : b < m) (hab : a ≠ b) {n : Nat} (hn : 256 ≤ n) (hn' : n < m + 1) : JoinsChildren new n := by
  unfold JoinsChildren
  by_cases hnm : n = m
  · subst hnm
    rw [f.made_left, f.made_right, f.made_weight, f.weight a ha.ne, f.weight b hb.ne]
    refine ⟨fun he => hab ?_, ha, hb, rfl⟩
    rw [← f.made_left, he, f.made_right]
  · obtain ⟨hne, hl, hr, hw⟩ := h.internal n hn (by omega)
    rw [f.left n hnm, f.right n hnm, f.weight n hnm, f.weight _ (by omega), f.weight _ (by omega)]
    exact ⟨hne, hl, hr, hw⟩

/-- The made node's children are the two merged ones. -/
theorem Forest.linksAgree_made (h : Forest freq old active m) (f : MergeFields old new m a b) (hm : m < 511)
    (ha : a < m) (hb : b < m) {n : Nat} (hn : n < m + 1) : LinksAgree new n m := by
  unfold LinksAgree
  rw [f.made_left, f.made_right]
  by_cases hab : n = a ∨ n = b
  · exact iff_of_true (f.parent_child n hab) (by omega)
  · refine iff_of_false ?_ (by omega)
    by_cases hnm : n = m
    · rw [hnm, f.made_parent]
      exact hm.ne'
    · rw [f.parent n hnm (by omega) (by omega)]
      exact h.parent_ne hm (by omega)

/-- The children of an older node are what they were, and neither the made node nor one of the merged roots. -/
theorem Forest.linksAgree_older (h : Forest freq old active m) (f : MergeFields old new m a b) (hm : m < 511)
    (ha : a ∈ active.map Key.node) (hb : b ∈ active.map Key.node) {n p : Nat} (hn : n < m + 1) (hp : 256 ≤ p)
    (hpm : p < m) : LinksAgree new n p := by
  unfold LinksAgree
  rw [f.left p hpm.ne, f.right p hpm.ne]
  by_cases hnm : n = m
  · obtain ⟨-, hl, hr, -⟩ := h.internal p hp hpm
    rw [hnm, f.made_parent, show Config.noNode.toNat = 511 from rfl]
    omega
  · refine Iff.trans ?_ (h.parent n (by omega) p hp hpm)
    by_cases hab : n = a ∨ n = b
    · have hroot : (nodeAt old n).parent.toNat = 511 := by
        rcases hab with rfl | rfl
        · exact h.parent_of_root ha
        · exact h.parent_of_root hb
      rw [f.parent_child n hab, hroot]
      omega
    · rw [f.parent n hnm (by omega) (by omega)]

/-- R140: a merge of two roots keeps the forest, with the made node as a root in their place. -/
theorem Forest.merge {w : Word} (h : Forest freq old active m) (hm : 256 ≤ m) (hm' : m < 511)
    (hp : (active.map Key.node).Perm (a :: b :: others.map Key.node)) (hnd : (active.map Key.node).Nodup)
    (f : MergeFields old new m a b) : Forest freq new ({ weight := w, node := m } :: others) (m + 1) := by
  have hnd' := hp.nodup_iff.mp hnd
  simp only [List.nodup_cons, List.mem_cons, not_or] at hnd'
  obtain ⟨⟨hab, hao⟩, hbo, -⟩ := hnd'
  have hamem : a ∈ active.map Key.node := hp.mem_iff.mpr (by simp)
  have hbmem : b ∈ active.map Key.node := hp.mem_iff.mpr (by simp)
  obtain ⟨ha, -⟩ := h.active_root a hamem
  obtain ⟨hb, -⟩ := h.active_root b hbmem
  refine ⟨fun n hn => ?_, fun n => h.joinsChildren_merge f ha hb hab, fun n hn p hp₁ hp₂ => ?_, fun n hn => ?_,
    fun n hn hna => ?_⟩
  · rw [f.left n (by omega), f.right n (by omega), f.weight n (by omega)]
    exact h.leaf n hn
  · rcases Nat.lt_or_eq_of_le (Nat.le_of_lt_succ hp₂) with hpm | rfl
    · exact h.linksAgree_older f hm' hamem hbmem hn hp₁ hpm
    · exact h.linksAgree_made f hm' ha hb hn
  · rcases List.mem_cons.mp hn with rfl | hn
    · exact ⟨Nat.lt_succ_self _, f.made_parent⟩
    · obtain ⟨hlt, hroot⟩ := h.active_root n (hp.mem_iff.mpr (by simp [hn]))
      refine ⟨by omega, ?_⟩
      rwa [f.parent n hlt.ne (fun he => hao (he ▸ hn)) (fun he => hbo (he ▸ hn))]
  · obtain ⟨hnm, hno⟩ := not_or.mp (mt List.mem_cons.mpr hna)
    by_cases hab' : n = a ∨ n = b
    · rw [f.parent_child n hab']; omega
    · obtain ⟨h₁, h₂⟩ := not_or.mp hab'
      rw [f.parent n hnm h₁ h₂]
      obtain ⟨hlo, hhi⟩ := h.hasParent n (by simp only at hnm; omega) (by simp [hp.mem_iff, h₁, h₂, hno])
      omega

end

/-- R140: after `k` merges the nodes below `256 + k` are a forest. -/
theorem forest_treeAfter {freq : Vector Word 256} {old nodes : Vector Node 511} {active : List Key} {k : Nat}
    (hk : k ≤ 255) (h : treeAfter freq old k = some (nodes, active)) : Forest freq nodes active (256 + k) := by
  induction k generalizing nodes active with
  | zero =>
    simp only [treeAfter, Option.some.injEq, Prod.mk.injEq] at h
    obtain ⟨rfl, rfl⟩ := h
    exact forest_withLeaves freq old
  | succ k ih =>
    simp only [treeAfter] at h
    cases ht : treeAfter freq old k with
    | none => simp [ht] at h
    | some p =>
      obtain ⟨nodes₀, active₀⟩ := p
      simp only [ht] at h
      obtain ⟨hnd, hlt⟩ := treeAfter_active (by omega) ht
      obtain ⟨a, rest, b, others, -, -, hp, rfl, rfl⟩ := mergeOnce_eq_some h
      have hp' := hp.map Key.node
      have hab : a.node ≠ b.node := by
        have := hp'.nodup_iff.mp hnd
        simp only [List.map_cons, List.nodup_cons, List.mem_cons, not_or] at this
        exact this.1.1
      exact (ih (by omega) ht).merge (by omega) (by omega) hp' hnd
        (mergeInto_fields nodes₀ (by omega) (hlt a (hp.mem_iff.mpr (by simp))) (hlt b (hp.mem_iff.mpr (by simp))) hab)

/-! ## Paths -/

theorem pathTo_nil {nodes : Vector Node 511} {n : Nat} : PathTo nodes n [] ↔ n = Config.root := by
  simp [PathTo, walkDown, eq_comm]

/-- A path takes its last step from an internal node to a child of it. -/
theorem pathTo_concat {nodes : Vector Node 511} {n : Nat} {bits : List Bool} {b : Bool} :
    PathTo nodes n (bits ++ [b]) ↔ ∃ p, 256 ≤ p ∧ PathTo nodes p bits ∧ childOf nodes p b = n := by
  have hlast : walkDown nodes Config.root (bits ++ [b]) = childOf nodes (walkDown nodes Config.root bits) b := by
    simp [walkDown]
  have htake : ∀ k ≤ bits.length, (bits ++ [b]).take k = bits.take k := fun k hk => List.take_append_of_le_length hk
  unfold PathTo
  rw [hlast]
  constructor
  · rintro ⟨hn, hint⟩
    refine ⟨_, ?_, ⟨rfl, fun k hk => ?_⟩, hn⟩
    · have := hint bits.length (by simp)
      rwa [htake _ (Nat.le_refl _), List.take_length] at this
    · rw [← htake k hk.le]
      exact hint k (by simp; omega)
  · rintro ⟨p, hp, ⟨rfl, hint⟩, hn⟩
    refine ⟨hn, fun k hk => ?_⟩
    rw [List.length_append, List.length_singleton] at hk
    rw [htake k (by omega)]
    rcases Nat.lt_or_eq_of_le (Nat.le_of_lt_succ hk) with hk | rfl
    · exact hint k hk
    · rwa [List.take_length]

/-! ## The tree after the last merge -/

/-- After the last merge the root alone is active. -/
theorem treeAfter_last_active {freq : Vector Word 256} {old nodes : Vector Node 511} {active : List Key}
    (h : treeAfter freq old 255 = some (nodes, active)) : active.map Key.node = [Config.root] := by
  have hf := forest_treeAfter (Nat.le_refl 255) h
  obtain ⟨nodes', active', h', hlen⟩ := treeAfter_isSome freq old 255 (Nat.le_refl 255)
  obtain ⟨-, rfl⟩ := Prod.mk.inj (Option.some.inj (h.symm.trans h'))
  obtain ⟨x, rfl⟩ := List.length_eq_one_iff.mp hlen
  have hroot : Config.root ∈ [x].map Key.node := by
    by_contra hna
    obtain ⟨h₁, h₂⟩ := hf.hasParent Config.root (by decide) hna
    rcases treeAfter_parent (Nat.le_refl 255) h Config.root (by decide) with hp | ⟨hlo, hhi⟩
    · rw [hp] at h₂; exact absurd h₂ (by decide)
    · exact absurd hlo (Nat.not_lt.mpr (Nat.le_of_lt_succ hhi))
  simpa [eq_comm] using hroot

/-- R43: a tree is a forest of all the nodes whose only root is the root. -/
theorem exists_forest_of_isTreeOf {freq : Vector Word 256} {nodes : Vector Node 511} (h : IsTreeOf freq nodes) :
    ∃ active, Forest freq nodes active 511 ∧ active.map Key.node = [Config.root] := by
  obtain ⟨old, active, ht⟩ := h
  exact ⟨active, forest_treeAfter (Nat.le_refl 255) ht, treeAfter_last_active ht⟩

section
variable {freq : Vector Word 256} {nodes : Vector Node 511} {active : List Key}

theorem Forest.childOf_lt (h : Forest freq nodes active 511) {n : Nat} (b : Bool) (hn : 256 ≤ n) (hn' : n ≤ Config.root) :
    childOf nodes n b < n := by
  obtain ⟨-, hl, hr, -⟩ := h.internal n hn (Nat.lt_succ_of_le hn')
  cases b
  · exact hl
  · exact hr

theorem Forest.parent_childOf (h : Forest freq nodes active 511) {n : Nat} (b : Bool) (hn : 256 ≤ n)
    (hn' : n ≤ Config.root) : (nodeAt nodes (childOf nodes n b)).parent.toNat = n := by
  have hlt := (h.childOf_lt b hn hn').trans (Nat.lt_succ_of_le hn')
  refine (h.parent _ hlt n hn (Nat.lt_succ_of_le hn')).mpr ?_
  cases b
  · exact .inl rfl
  · exact .inr rfl

theorem Forest.childOf_injective (h : Forest freq nodes active 511) {n : Nat} {b c : Bool} (hn : 256 ≤ n)
    (hn' : n ≤ Config.root) (he : childOf nodes n b = childOf nodes n c) : b = c := by
  obtain ⟨hne, -⟩ := h.internal n hn (Nat.lt_succ_of_le hn')
  have hne' : childOf nodes n false ≠ childOf nodes n true := fun e => hne (BitVec.eq_of_toNat_eq e)
  cases b <;> cases c
  · rfl
  · exact absurd he hne'
  · exact absurd he.symm hne'
  · rfl

theorem Forest.hasParent_of_lt_root (h : Forest freq nodes active 511) (hroot : active.map Key.node = [Config.root])
    {n : Nat} (hn : n < Config.root) :
    256 ≤ (nodeAt nodes n).parent.toNat ∧ (nodeAt nodes n).parent.toNat ≤ Config.root := by
  have hna : n ∉ active.map Key.node := by rw [hroot]; simpa using hn.ne
  exact (h.hasParent n (hn.trans (by decide)) hna).imp_right Nat.le_of_lt_succ

/-- Every node but the root is a child of its parent, an internal node. -/
theorem Forest.exists_childOf (h : Forest freq nodes active 511) (hroot : active.map Key.node = [Config.root]) {n : Nat}
    (hn : n < Config.root) : ∃ p b, 256 ≤ p ∧ p ≤ Config.root ∧ childOf nodes p b = n := by
  obtain ⟨hlo, hhi⟩ := h.hasParent_of_lt_root hroot hn
  rcases (h.parent n (hn.trans (by decide)) _ hlo (Nat.lt_succ_of_le hhi)).mp rfl with hl | hr
  · exact ⟨_, false, hlo, hhi, hl⟩
  · exact ⟨_, true, hlo, hhi, hr⟩

theorem Forest.le_root_of_pathTo (h : Forest freq nodes active 511) {n : Nat} {bits : List Bool}
    (hp : PathTo nodes n bits) : n ≤ Config.root := by
  induction bits using List.reverseRecOn generalizing n with
  | nil => exact (pathTo_nil.mp hp).le
  | append_singleton bits b ih =>
    obtain ⟨p, hint, hpath, rfl⟩ := pathTo_concat.mp hp
    exact (h.childOf_lt b hint (ih hpath)).le.trans (ih hpath)

/-- The last step of a path comes from the node's parent. -/
theorem Forest.pathTo_concat_parent (h : Forest freq nodes active 511) {n : Nat} {bits : List Bool} {b : Bool}
    (hp : PathTo nodes n (bits ++ [b])) :
    ∃ p, 256 ≤ p ∧ n < p ∧ p ≤ Config.root ∧ (nodeAt nodes n).parent.toNat = p ∧ PathTo nodes p bits ∧
      childOf nodes p b = n := by
  obtain ⟨p, hint, hpath, rfl⟩ := pathTo_concat.mp hp
  have hle := h.le_root_of_pathTo hpath
  exact ⟨p, hint, h.childOf_lt b hint hle, hle, h.parent_childOf b hint hle, hpath, rfl⟩

theorem Forest.path_unique (h : Forest freq nodes active 511) {n : Nat} {bits other : List Bool}
    (hp : PathTo nodes n bits) (hq : PathTo nodes n other) : other = bits := by
  induction bits using List.reverseRecOn generalizing n other with
  | nil =>
    cases other using List.reverseRecOn with
    | nil => rfl
    | append_singleton other c =>
      obtain ⟨p, -, hlt, hle, -⟩ := h.pathTo_concat_parent hq
      have := pathTo_nil.mp hp
      omega
  | append_singleton bits b ih =>
    obtain ⟨p, hint, hlt, hle, hpar, hpath, hchild⟩ := h.pathTo_concat_parent hp
    cases other using List.reverseRecOn with
    | nil =>
      have := pathTo_nil.mp hq
      omega
    | append_singleton other c =>
      obtain ⟨q, -, -, -, hpar', hpath', hchild'⟩ := h.pathTo_concat_parent hq
      obtain rfl : p = q := hpar.symm.trans hpar'
      rw [ih hpath hpath', h.childOf_injective hint hle (hchild.trans hchild'.symm)]

theorem Forest.exists_path (h : Forest freq nodes active 511) (hroot : active.map Key.node = [Config.root]) {n : Nat}
    (hn : n ≤ Config.root) : ∃ bits, PathTo nodes n bits := by
  induction hd : Config.root - n using Nat.strong_induction_on generalizing n with
  | _ d ih =>
    rcases hn.eq_or_lt with rfl | hlt
    · exact ⟨[], pathTo_nil.mpr rfl⟩
    · obtain ⟨p, b, hint, hle, rfl⟩ := h.exists_childOf hroot hlt
      have hdown := h.childOf_lt b hint hle
      obtain ⟨bits, hpath⟩ := ih (Config.root - p) (by omega) hle rfl
      exact ⟨bits ++ [b], pathTo_concat.mpr ⟨p, hint, hpath, rfl⟩⟩

end

theorem treeShape_of_isTreeOf {freq : Vector Word 256} {nodes : Vector Node 511} (ht : IsTreeOf freq nodes) :
    TreeShape freq nodes := by
  obtain ⟨active, h, hroot⟩ := exists_forest_of_isTreeOf ht
  exact {
    leaf := h.leaf
    internal := fun n hn hn' => h.internal n hn (Nat.lt_succ_of_le hn')
    rootParent := (h.active_root Config.root (by simp [hroot])).2
    parent := fun n hn p hp hp' => h.parent n (hn.trans (by decide)) p hp (Nat.lt_succ_of_le hp')
    hasParent := fun n hn => h.hasParent_of_lt_root hroot hn
    path := fun n hn => (h.exists_path hroot hn).imp fun bits hp => ⟨hp, fun other hq => h.path_unique hp hq⟩ }

/-- Settles O21: the table is a forest after every merge, and a tree after the last. -/
theorem treeHasShape : Obligations.TreeHasShape :=
  ⟨fun _ _ => treeShape_of_isTreeOf, fun _ hinv hvalid => treeShape_of_isTreeOf (hinv.treeOfFreq hvalid)⟩

end Sys2Proof.Machine
end

section
/-! PROOF. The encoding of commands (spec/30_encoding.md R90 to R94, spec/20_memory.md R62): a word is its four byte
lanes and its two fields, so the decoder inverts the encoder, and no other word or list of lanes selects a command. -/

namespace Sys2Proof

/-! ## Words, byte lanes and fields

R62, R90: bit by bit. -/

@[simp] theorem lanesOfWord_wordOfLanes (b0 b1 b2 b3 : Byte) :
    lanesOfWord (wordOfLanes b0 b1 b2 b3) = [b0, b1, b2, b3] := by
  unfold lanesOfWord wordOfLanes
  congr <;> ext <;> grind

@[simp] theorem wordOfLanes_lanesOfWord (w : Word) :
    wordOfLanes (w.extractLsb' 0 8) (w.extractLsb' 8 8) (w.extractLsb' 16 8) (w.extractLsb' 24 8) = w := by
  unfold wordOfLanes
  ext
  grind

theorem rsvdField_append_opField (w : Word) : rsvdField w ++ opField w = w := by
  unfold rsvdField opField
  ext
  grind

/-- R90: a command word has no field but the opcode and the reserved bits. -/
theorem word_eq_of_fields {v w : Word} (hop : opField v = opField w) (hrsvd : rsvdField v = rsvdField w) : v = w := by
  rw [← rsvdField_append_opField v, hop, hrsvd, rsvdField_append_opField]

/-! ## The opcode map -/

@[simp] theorem rsvdField_encode (i : Instr) : rsvdField (encode i) = 0#24 := by
  cases i <;> rfl

@[simp] theorem opcodeMap_encode (i : Instr) : opcodeMap (opField (encode i)) = some i := by
  cases i <;> rfl

theorem opcodeMap_eq_some_iff {op : BitVec 8} {i : Instr} : opcodeMap op = some i ↔ op = opField (encode i) := by
  constructor
  · intro h
    unfold opcodeMap at h
    split_ifs at h <;> cases h <;> assumption
  · rintro rfl
    exact opcodeMap_encode i

/-! ## Decoding -/

theorem decode_eq_ok_iff {w : Word} {i : Instr} :
    decode w = .ok i ↔ rsvdField w = 0#24 ∧ opcodeMap (opField w) = some i := by
  unfold decode
  split_ifs with hrsvd
  · cases hop : opcodeMap (opField w) <;> simp [hrsvd]
  · simp [hrsvd]

/-- R91: a word selects a command exactly when it equals its command word. -/
theorem decode_eq_ok_iff_eq_encode {w : Word} {i : Instr} : decode w = .ok i ↔ w = encode i := by
  rw [decode_eq_ok_iff, opcodeMap_eq_some_iff]
  constructor
  · rintro ⟨hrsvd, hop⟩
    exact word_eq_of_fields hop (hrsvd.trans (rsvdField_encode i).symm)
  · rintro rfl
    exact ⟨rsvdField_encode i, rfl⟩

@[simp] theorem decodeLanes_lanesOfWord (w : Word) : decodeLanes (lanesOfWord w) = decode w :=
  congrArg decode (wordOfLanes_lanesOfWord w)

/-- R94: lanes select a command only as the four lanes of a word. -/
theorem eq_lanesOfWord_of_decodeLanes {lanes : List Byte} {i : Instr} (h : decodeLanes lanes = .ok i) :
    ∃ w, lanes = lanesOfWord w := by
  unfold decodeLanes at h
  split at h
  · exact ⟨_, (lanesOfWord_wordOfLanes ..).symm⟩
  · cases h

/-- R91, R94: lanes select a command exactly when they carry its command word. -/
theorem decodeLanes_eq_ok_iff {lanes : List Byte} {i : Instr} :
    decodeLanes lanes = .ok i ↔ lanes = lanesOfWord (encode i) := by
  constructor
  · intro h
    obtain ⟨w, rfl⟩ := eq_lanesOfWord_of_decodeLanes h
    rw [decodeLanes_lanesOfWord, decode_eq_ok_iff_eq_encode] at h
    rw [h]
  · rintro rfl
    rw [decodeLanes_lanesOfWord, decode_eq_ok_iff_eq_encode]

/-- Settles O2: lanes decode only through the word they carry, and a word only through its two fields. -/
theorem lanesDecodeExactlyEncoded : Obligations.LanesDecodeExactlyEncoded :=
  ⟨fun _ _ => decodeLanes_eq_ok_iff, rfl, rfl, rfl, rfl, rfl, rfl⟩

end Sys2Proof
end

section
/-! PROOF. An illegal command word (spec/40_command.md R116): the host's write of it to CMD is accepted as any other, and
the command's one step raises ILLEGAL_CMD. -/

namespace Sys2Proof.Machine

/-! ## The host's write to CMD -/

@[simp] theorem issuedWord_lanesOfWord (w : Word) : issuedWord (lanesOfWord w) = w :=
  wordOfLanes_lanesOfWord w

/-- R31, R97: a four-lane write to CMD that has come issues its lanes. -/
theorem nextEvent_cmdWrite {s : State} {due : Due} {lanes : List Byte} {rest : List Input}
    (hin : s.inputs = { due := due, act := .write (cmdAddr s.platform) lanes } :: rest) (hcome : hasCome due s = true)
    (hlen : lanes.length = 4) :
    nextEvent s = .command lanes { awaited due s with inputs := rest, response := .written } := by
  obtain ⟨r, hev⟩ := nextEvent_of_hasCome hin hcome
  exact hev.trans (portWrite_cmd (s := { awaited due s with inputs := rest, response := r }) hlen)

/-- R31, R116: the step at the write of an illegal word issues that word. -/
theorem step_illegalWord {s : State} {w : Word} {due : Due} {rest : List Input} {e : Reject}
    (hin : s.inputs = { due := due, act := .write (cmdAddr s.platform) (lanesOfWord w) } :: rest)
    (hcome : hasCome due s = true) (hill : decode w = .error e) :
    step s = .next (issueIllegal w { awaited due s with inputs := rest, response := .written }) := by
  unfold step
  rw [nextEvent_cmdWrite hin hcome rfl]
  simp [hill]

/-! ## The command of an illegal word -/

/-- R116: the first and only step. -/
theorem engineStep_illegal {s : State} {w : Word} (h : s.run = .illegal w) :
    engineStep s = some (raiseError .illegalCmd w s) := by
  simp [engineStep, move, h]

theorem settle_illegal {s : State} {w : Word} (h : s.run = .illegal w) (hu : undisturbed s = true) :
    settle s = raiseError .illegalCmd w s := by
  have hbound : stepBound s = 1 := by simp [stepBound, h]
  rw [settle_undisturbed hu, hbound, runEngine_succ_of_step 0 (engineStep_illegal h), runEngine]

theorem issueIllegal_ready {s : State} (w : Word) (h : Ready s) :
    issueIllegal w s = raiseError .illegalCmd w (accept w (.illegal w) s) := by
  obtain ⟨hhigh, hidle, hu⟩ := h
  rw [issueIllegal, issue_idle hhigh hidle, settle_illegal (accept_run ..) hu]

theorem ne_encode_of_illegal {w : Word} {e : Reject} (hill : decode w = .error e) (i : Instr) : w ≠ encode i := by
  rintro rfl
  simp [decode_eq_ok_iff_eq_encode.mpr rfl] at hill

/-- R111: only FCOUNT, BUILD and GENCODE clear a valid flag at acceptance. -/
theorem validFlags_of_illegal {w : Word} {e : Reject} (hill : decode w = .error e) (tree codes : Bool) :
    treeAfterAccept w tree = tree ∧ codesAfterAccept w tree codes = codes := by
  have hf : w ≠ 1#32 := ne_encode_of_illegal hill .fcount
  have hb : w ≠ 2#32 := ne_encode_of_illegal hill .build
  have hg : w ≠ 3#32 := ne_encode_of_illegal hill .gencode
  simp [treeAfterAccept, codesAfterAccept, clearsTables, hf, hb, hg]

/-- R116: with the host waiting, the step leaves what acceptance and then the error write. -/
theorem step_illegalWord_ready {s : State} {w : Word} {due : Due} {rest : List Input} {e : Reject}
    (hin : s.inputs = { due := due, act := .write (cmdAddr s.platform) (lanesOfWord w) } :: rest)
    (hcome : hasCome due s = true) (hready : Ready { s with inputs := rest }) (hill : decode w = .error e) :
    step s = .next (raiseError .illegalCmd w
      (accept w (.illegal w) { awaited due s with inputs := rest, response := .written })) :=
  (step_illegalWord hin hcome hill).trans (congrArg Host.Outcome.next (issueIllegal_ready w hready))

/-- Settles O7: acceptance clears no flag for such a word and empties the set of raced bytes, so the error, the one step
after it, leaves memory and the arrays alone. -/
theorem illegalWordRaisesIllegalCmd : Obligations.IllegalWordRaisesIllegalCmd := by
  intro s w due rest e hin hcome hready hill
  obtain ⟨htree, hcodes⟩ := validFlags_of_illegal hill s.treeValid s.codesValid
  exact ⟨_, step_illegalWord_ready hin hcome hready hill, by simp [EndedBy, errorNumber, htree, hcodes, scrambled]⟩

end Sys2Proof.Machine
end

section
/-! PROOF. FCOUNT (spec/41_frequency.md R130 to R135): the state after `k` source bytes in closed form, one engine step
from each such state to the next, and the two ends of the loop. -/

namespace Sys2Proof.Machine

/-! ## Occurrences and the table of counts -/

theorem symIndex_lt (b : Byte) : symIndex b < 256 := (b ^^^ 0x80#8).isLt

theorem occurrences_concat (i : Nat) (bytes : List Byte) (r : Byte) :
    occurrences i (bytes ++ [r]) = occurrences i bytes + if symIndex r = i then 1 else 0 := by
  by_cases h : symIndex r = i <;> simp [occurrences, h]

theorem occurrences_eq_count (i : Nat) (bytes : List Byte) : occurrences i bytes = (bytes.map symIndex).count i := by
  rw [occurrences, ← List.countP_eq_length_filter, List.count, List.countP_map]
  rfl

theorem occurrences_le_length (i : Nat) (bytes : List Byte) : occurrences i bytes ≤ bytes.length :=
  List.length_filter_le ..

/-- Every byte counts in exactly one of the 256 entries. -/
theorem sum_occurrences (bytes : List Byte) : ∑ i ∈ Finset.range 256, occurrences i bytes = bytes.length := by
  simp_rw [occurrences_eq_count, ← Multiset.coe_count]
  rw [Multiset.sum_count_eq_card] <;> simp [symIndex_lt]

theorem bytesAt_length (m : List Host.Cell) (a n : Nat) : (bytesAt m a n).length = n := by simp [bytesAt]

theorem bytesAt_succ (m : List Host.Cell) (a n : Nat) : bytesAt m a (n + 1) = bytesAt m a n ++ [memRead m (a + n)] := by
  simp [bytesAt, List.range_succ]

/-- R131: the frequency table of a buffer, each count as the 32-bit word the engine holds. -/
def countsOf (bytes : List Byte) : Vector Word 256 := Vector.ofFn fun i => BitVec.ofNat 32 (occurrences i bytes)

theorem countsOf_getElem (bytes : List Byte) {i : Nat} (h : i < 256) :
    (countsOf bytes)[i] = BitVec.ofNat 32 (occurrences i bytes) := by simp [countsOf]

theorem countsOf_nil : countsOf [] = Vector.replicate 256 0 := by
  ext i hi : 1
  simp [countsOf_getElem, occurrences]

theorem countsOf_getD (bytes : List Byte) {i : Nat} (h : i < 256) :
    ((countsOf bytes)[i]?).getD 0 = BitVec.ofNat 32 (occurrences i bytes) := by simp [h, countsOf_getElem]

/-- One more byte adds 1 to the entry it counts in. -/
theorem countsOf_concat (bytes : List Byte) (r : Byte) :
    countsOf (bytes ++ [r]) =
      (countsOf bytes).setIfInBounds (symIndex r) (((countsOf bytes)[symIndex r]?).getD 0 + 1) := by
  ext i hi : 1
  rw [countsOf_getD _ (symIndex_lt r), Vector.getElem_setIfInBounds, countsOf_getElem, countsOf_getElem,
    occurrences_concat, BitVec.ofNat_add]
  split
  · next h => rw [h]; rfl
  · exact BitVec.add_zero _

/-- R134: no counter overflows. -/
theorem toNat_count {bytes : List Byte} (h : bytes.length < 2 ^ 32) (i : Nat) :
    (BitVec.ofNat 32 (occurrences i bytes)).toNat = occurrences i bytes := by
  have := occurrences_le_length i bytes
  rw [BitVec.toNat_ofNat, Nat.mod_eq_of_lt (by omega)]

theorem freqSum_countsOf {bytes : List Byte} (h : bytes.length < 2 ^ 32) : freqSum (countsOf bytes) = bytes.length := by
  have hlist : (countsOf bytes).toList.map BitVec.toNat = List.ofFn fun i : Fin 256 => occurrences i bytes := by
    simp only [countsOf, Vector.toList_ofFn, List.map_ofFn, Function.comp_def, toNat_count h]
  rw [freqSum, hlist, List.sum_ofFn, Fin.sum_univ_eq_sum_range (occurrences · bytes), sum_occurrences]

/-! ## One step of the loop -/

/-- R130: the loop reads byte `k` while there is one. -/
theorem engineStep_fcount_reads {s : State} (hrun : s.run = .fcount) (h : s.outCount.toNat < s.lat.srcLen.toNat) :
    engineStep s = respondRead s (s.lat.srcAddr.toNat + s.outCount.toNat) countByte := by
  simp [engineStep, move, moveFcount, hrun, h]

/-- R130: after the last byte the command completes. -/
theorem engineStep_fcount_completes {s : State} (hrun : s.run = .fcount) (h : s.lat.srcLen.toNat ≤ s.outCount.toNat) :
    engineStep s = some (complete s) := by
  simp [engineStep, move, moveFcount, hrun, Nat.not_lt.mpr h]

/-- R119: FCOUNT has one check, the source range. -/
theorem firstFailure_fcount {s : State} (h : s.lat.srcAddr.toNat + s.lat.srcLen.toNat ≤ 2 ^ 32) :
    firstFailure .fcount s = none := by
  have hsrc : rangeOK s.lat.srcAddr.toNat (sourceLen .fcount s.lat) = true := decide_eq_true h
  have hdst : rangeOK s.lat.dstAddr.toNat (destLen .fcount s.lat) = true := decide_eq_true s.lat.dstAddr.isLt.le
  have hshare : overlap s.lat.srcAddr.toNat (sourceLen .fcount s.lat) s.lat.dstAddr.toNat (destLen .fcount s.lat) =
      false := by simp [overlap, destLen]
  simp [firstFailure, checkState, capacityOK, hsrc, hdst, hshare]

/-! ## The states of the loop -/

/-- R130: FCOUNT, issued in state `s`, once it has counted `k` source bytes. -/
def counting (s : State) (k : Nat) : State :=
  { enterFcount (accept (encode .fcount) (.start .fcount) s) with
    freq := countsOf (bytesAt s.mem s.params.srcAddr.toNat k)
    outCount := BitVec.ofNat 32 k
    accesses := ((List.range k).map (fun j => Access.read (s.params.srcAddr.toNat + j))).reverse ++ s.accesses }

theorem counting_zero (s : State) : counting s 0 = enterFcount (accept (encode .fcount) (.start .fcount) s) := by
  simp [counting, bytesAt, countsOf_nil, enterFcount, accept]

/-- R130, R131: byte `k`, read and counted. -/
theorem counting_succ (s : State) (k : Nat) :
    countByte (logged (.read (s.params.srcAddr.toNat + k)) (counting s k)) (memRead s.mem (s.params.srcAddr.toNat + k)) =
      counting s (k + 1) := by
  simp [counting, countByte, freqAt, bytesAt_succ, countsOf_concat, List.range_succ, BitVec.ofNat_add]

theorem counting_outCount_toNat (s : State) {k : Nat} (h : k ≤ s.params.srcLen.toNat) :
    (counting s k).outCount.toNat = k :=
  (BitVec.toNat_ofNat k 32).trans (Nat.mod_eq_of_lt (h.trans_lt s.params.srcLen.isLt))

theorem freqAt_counting (s : State) {k i : Nat} (hk : k ≤ s.params.srcLen.toNat) (hi : i < 256) :
    (freqAt (counting s k) i).toNat = occurrences i (bytesAt s.mem s.params.srcAddr.toNat k) := by
  have hlen : (bytesAt s.mem s.params.srcAddr.toNat k).length < 2 ^ 32 :=
    (bytesAt_length ..).trans_lt (hk.trans_lt s.params.srcLen.isLt)
  rw [← toNat_count hlen, ← countsOf_getD _ hi]
  rfl

/-- R134, R135: the counts sum to the number of bytes read. -/
theorem freqSum_counting (s : State) {k : Nat} (hk : k ≤ s.params.srcLen.toNat) : freqSum (counting s k).freq = k := by
  have hlen := bytesAt_length s.mem s.params.srcAddr.toNat k
  exact (freqSum_countsOf (hlen.trans_lt (hk.trans_lt s.params.srcLen.isLt))).trans hlen

/-- R111: FCOUNT clears both valid flags at its acceptance. -/
theorem counting_flags (s : State) (k : Nat) :
    (counting s k).treeValid = false ∧ (counting s k).codesValid = false := by
  constructor <;> simp [counting, encode, treeAfterAccept, codesAfterAccept, clearsTables]

theorem engineStep_counting {s : State} {k : Nat} (h : k < s.params.srcLen.toNat) :
    engineStep (counting s k) = respondRead (counting s k) (s.params.srcAddr.toNat + k) countByte := by
  have hcount := counting_outCount_toNat s h.le
  have hstep := engineStep_fcount_reads (s := counting s k) rfl (hcount.trans_lt h)
  rwa [hcount] at hstep

theorem engineStep_counting_plain {s : State} {k : Nat} (hu : undisturbed s = true) (hk : k < s.params.srcLen.toNat)
    (hplain : plainRead s (s.params.srcAddr.toNat + k)) : engineStep (counting s k) = some (counting s (k + 1)) := by
  obtain ⟨hkind, hclean⟩ := hplain
  rw [engineStep_counting hk, ← counting_succ]
  exact respondRead_plain countByte hkind (List.not_mem_nil) (storeAhead_of_undisturbed hu _ _) hclean

theorem runEngine_counting {s : State} (hu : undisturbed s = true) (n : Nat) {k : Nat} (hk : k ≤ s.params.srcLen.toNat)
    (hplain : PlainSource s s.params.srcAddr.toNat k) : runEngine (k + n) (counting s 0) = runEngine n (counting s k) := by
  induction k generalizing n with
  | zero => rw [Nat.zero_add]
  | succ k ih =>
    calc runEngine (k + 1 + n) (counting s 0)
        = runEngine (k + (n + 1)) (counting s 0) := by rw [Nat.add_right_comm, Nat.add_assoc]
      _ = runEngine (n + 1) (counting s k) := ih (n + 1) (by omega) fun j hj => hplain j (by omega)
      _ = runEngine n (counting s (k + 1)) :=
        runEngine_succ_of_step n (engineStep_counting_plain hu hk (hplain k k.lt_succ_self))

/-! ## The command -/

/-- R113, R119, R130: while the bytes before byte `k` are read plainly, FCOUNT comes to have counted them, with the steps
for the other bytes and the completion left. -/
theorem exec_fcount_counting {s : State} {k : Nat} (hready : Ready s)
    (hrange : s.params.srcAddr.toNat + s.params.srcLen.toNat ≤ 2 ^ 32) (hk : k ≤ s.params.srcLen.toNat)
    (hplain : PlainSource s s.params.srcAddr.toNat k) :
    exec .fcount s = .next (runEngine (s.params.srcLen.toNat - k + 1) (counting s k)) := by
  obtain ⟨hhigh, hidle, hu⟩ := hready
  have hstart : engineStep (accept (encode .fcount) (.start .fcount) s) = some (counting s 0) := by
    rw [engineStep_start rfl, firstFailure_fcount hrange, counting_zero]
    rfl
  have hbound : stepBound (accept (encode .fcount) (.start .fcount) s) = k + (s.params.srcLen.toNat - k + 1) + 1 := by
    change s.params.srcLen.toNat + 2 = _
    omega
  rw [exec_idle .fcount hhigh hidle, settle_undisturbed (s := accept ..) hu, hbound, runEngine_succ_of_step _ hstart,
    runEngine_counting hu _ hk hplain]

/-- R114, R130: FCOUNT of a buffer whose bytes are read plainly counts them all and completes. -/
theorem exec_fcount_completes {s : State} (hready : Ready s)
    (hrange : s.params.srcAddr.toNat + s.params.srcLen.toNat ≤ 2 ^ 32)
    (hplain : PlainSource s s.params.srcAddr.toNat s.params.srcLen.toNat) :
    exec .fcount s = .next (complete (counting s s.params.srcLen.toNat)) := by
  have hstep : engineStep (counting s s.params.srcLen.toNat) = some (complete (counting s s.params.srcLen.toNat)) :=
    engineStep_fcount_completes rfl (counting_outCount_toNat s le_rfl).ge
  rw [exec_fcount_counting hready hrange le_rfl hplain, runEngine_succ_of_step _ hstep, runEngine_idle _ rfl]

/-- R133: FCOUNT raises BUS_ERROR at the first byte whose read fails. -/
theorem exec_fcount_fails {s : State} {k : Nat} (hready : Ready s)
    (hrange : s.params.srcAddr.toNat + s.params.srcLen.toNat ≤ 2 ^ 32) (hk : k < s.params.srcLen.toNat)
    (hplain : PlainSource s s.params.srcAddr.toNat k) (hfail : failsRead s (s.params.srcAddr.toNat + k)) :
    exec .fcount s = .next (raiseError .busError (BitVec.ofNat 32 (s.params.srcAddr.toNat + k))
      (logged (.read (s.params.srcAddr.toNat + k)) (counting s k))) := by
  have hstep := (engineStep_counting hk).trans (respondRead_fails countByte hfail)
  rw [exec_fcount_counting hready hrange hk.le hplain, runEngine_succ_of_step _ hstep, runEngine_idle _ rfl]

/-- Settles O16: the loop comes to the state that has counted the whole buffer, and completion keeps its table. -/
theorem fcountCountsBuffer : Obligations.FcountCountsBuffer := by
  intro s hready hrange hplain
  obtain ⟨htree, hcodes⟩ := counting_flags s s.params.srcLen.toNat
  have hcount : (counting s s.params.srcLen.toNat).outCount = s.params.srcLen :=
    BitVec.eq_of_toNat_eq (counting_outCount_toNat s le_rfl)
  have hempty : s.params.srcLen = 0 → (counting s s.params.srcLen.toNat).accesses = s.accesses := fun h => by
    simp [counting, h]
  exact ⟨_, exec_fcount_completes hready hrange hplain, ⟨rfl, rfl, rfl, rfl, rfl⟩, rfl, htree, hcodes, hcount, rfl,
    freqSum_counting s le_rfl, hempty, fun i hi => freqAt_counting s le_rfl hi⟩

/-- Settles O17: the loop comes to the state that has counted the bytes before byte `k`, where the read raises the error,
which keeps the table and OUT_COUNT. -/
theorem fcountStopsAtBusError : Obligations.FcountStopsAtBusError := by
  intro s k hready hrange hk hplain hfail
  obtain ⟨htree, hcodes⟩ := counting_flags s k
  exact ⟨_, exec_fcount_fails hready hrange hk hplain hfail, ⟨rfl, rfl, rfl, rfl, rfl⟩, htree, hcodes,
    counting_outCount_toNat s hk.le, fun i hi => freqAt_counting s hk.le hi⟩

end Sys2Proof.Machine
end

section
/-! PROOF. The priority structure and one merge (spec/42_tree_builder.md R141 to R144): `ExtractMin` takes the least
key, so a merge joins the two least active nodes, and what the leaves meet and merges keep holds after each merge. -/

namespace Sys2Proof.Machine

/-! ## The least member -/

theorem keyBefore_iff (x y : Key) : keyBefore x y = true ↔
    x.weight.toNat < y.weight.toNat ∨ (x.weight.toNat = y.weight.toNat ∧ x.node < y.node) := decide_eq_true_iff

theorem not_keyBefore_symm {x y : Key} (h : keyBefore x y = true) : ¬ keyBefore y x = true := fun h' => by
  simpa [keyBefore_irrefl] using keyBefore_trans h h'

/-- R141: `ExtractMin` takes the new head or what it takes of the rest, whichever comes first. -/
theorem extractMin_cons_eq_some {x m : Key} {rest others : List Key} (h : extractMin (x :: rest) = some (m, others)) :
    (m = x ∧ rest = [] ∧ others = []) ∨ ∃ m' others', extractMin rest = some (m', others') ∧
      ((keyBefore x m' = true ∧ m = x ∧ others = rest) ∨
        (¬ keyBefore x m' = true ∧ m = m' ∧ others = x :: others')) := by
  simp only [extractMin] at h
  cases hrest : extractMin rest with
  | none => simp_all [extractMin_eq_none]
  | some p =>
    obtain ⟨m', others'⟩ := p
    simp only [hrest] at h
    split at h <;> simp_all

/-- R142: what `ExtractMin` takes comes before all it leaves. -/
theorem extractMin_before {active others : List Key} {m : Key} (hnd : (active.map Key.node).Nodup)
    (h : extractMin active = some (m, others)) : ∀ x ∈ others, keyBefore m x = true := by
  induction active generalizing m others with
  | nil => simp [extractMin] at h
  | cons y rest ih =>
    obtain ⟨hy, hnd'⟩ := List.nodup_cons.mp hnd
    rcases extractMin_cons_eq_some h with ⟨-, -, rfl⟩ | ⟨m', others', hrest, ⟨hb, rfl, rfl⟩ | ⟨hb, rfl, rfl⟩⟩
    · simp
    · intro x hx
      rcases List.mem_cons.mp ((extractMin_perm hrest).mem_iff.mp hx) with rfl | hx
      · exact hb
      · exact keyBefore_trans hb (ih hnd' hrest x hx)
    · have hm : m ∈ rest := (extractMin_perm hrest).mem_iff.mpr List.mem_cons_self
      have hne : y.node ≠ m.node := fun he => hy (he ▸ List.mem_map_of_mem hm)
      intro x hx
      rcases List.mem_cons.mp hx with rfl | hx
      · exact (keyBefore_or _ _ hne).resolve_left hb
      · exact ih hnd' hrest x hx

/-- Settles O18: the member taken and the others are the active set, and it comes before each of them. -/
theorem extractMinTakesLeast : Obligations.ExtractMinTakesLeast := by
  intro active others m hnd h
  have hp := extractMin_perm h
  refine ⟨hp.mem_iff.mpr List.mem_cons_self, ?_, fun x hx => (keyBefore_iff m x).mp (extractMin_before hnd h x hx)⟩
  simpa using (hp.erase m).symm

/-! ## The two least members -/

/-- R143: `a` and then `b` are the two least active nodes, all made before node `m`, and `others` is the rest. -/
structure LeastTwo (active : List Key) (m : Nat) (a b : Key) (others : List Key) : Prop where
  perm : active.Perm (a :: b :: others)
  distinct : (active.map Key.node).Nodup
  first : keyBefore a b = true
  second : ∀ x ∈ others, keyBefore b x = true
  older : ∀ x ∈ active, x.node < m

/-- R142: two calls of `ExtractMin` take the two least members. -/
theorem leastTwo_of_extractMin {active rest others : List Key} {m : Nat} {a b : Key}
    (hnd : (active.map Key.node).Nodup) (hlt : ∀ x ∈ active, x.node < m) (ha : extractMin active = some (a, rest))
    (hb : extractMin rest = some (b, others)) : LeastTwo active m a b others where
  perm := (extractMin_perm ha).trans ((extractMin_perm hb).cons a)
  distinct := hnd
  first := extractMin_before hnd ha b ((extractMin_perm hb).mem_iff.mpr List.mem_cons_self)
  second := extractMin_before (((extractMin_perm ha).map Key.node).nodup_iff.mp hnd).of_cons hb
  older := hlt

/-- R140, R143: what a merge takes and what it makes. -/
theorem mergeOnce_leastTwo {k : Nat} {nodes nodes' : Vector Node 511} {active active' : List Key}
    (hnd : (active.map Key.node).Nodup) (hlt : ∀ x ∈ active, x.node < 256 + k)
    (h : mergeOnce k nodes active = some (nodes', active')) :
    ∃ a b others, LeastTwo active (256 + k) a b others ∧ nodes' = mergeInto nodes (256 + k) a b ∧
      active' = { weight := (nodeAt nodes' (256 + k)).weight, node := 256 + k } :: others := by
  obtain ⟨a, rest, b, others, ha, hb, -, hnodes, hactive⟩ := mergeOnce_eq_some h
  exact ⟨a, b, others, leastTwo_of_extractMin hnd hlt ha hb, hnodes, hactive⟩

section
variable {nodes : Vector Node 511} {active others : List Key} {m : Nat} {a b : Key}

theorem LeastTwo.mem_iff (h : LeastTwo active m a b others) (x : Key) : x ∈ active ↔ x = a ∨ x = b ∨ x ∈ others := by
  simp [h.perm.mem_iff]

theorem LeastTwo.fst_mem (h : LeastTwo active m a b others) : a ∈ active := (h.mem_iff a).mpr (.inl rfl)

theorem LeastTwo.snd_mem (h : LeastTwo active m a b others) : b ∈ active := (h.mem_iff b).mpr (.inr (.inl rfl))

theorem LeastTwo.other_mem (h : LeastTwo active m a b others) {x : Key} (hx : x ∈ others) : x ∈ active :=
  (h.mem_iff x).mpr (.inr (.inr hx))

theorem LeastTwo.nodup (h : LeastTwo active m a b others) : (a.node :: b.node :: others.map Key.node).Nodup :=
  (h.perm.map Key.node).nodup_iff.mp h.distinct

theorem LeastTwo.ne (h : LeastTwo active m a b others) : a.node ≠ b.node := fun he =>
  (List.nodup_cons.mp h.nodup).1 (he ▸ List.mem_cons_self)

theorem LeastTwo.mem_others (h : LeastTwo active m a b others) (n : Nat) :
    n ∈ others.map Key.node ↔ n ∈ active.map Key.node ∧ n ≠ a.node ∧ n ≠ b.node := by
  obtain ⟨ha, hb, -⟩ := by simpa only [List.nodup_cons, List.mem_cons, not_or] using h.nodup
  rw [(h.perm.map Key.node).mem_iff]
  simp only [List.map_cons, List.mem_cons]
  constructor
  · exact fun hn => ⟨.inr (.inr hn), fun he => ha.2 (he ▸ hn), fun he => hb (he ▸ hn)⟩
  · rintro ⟨hn | hn | hn, hna, hnb⟩
    · exact absurd hn hna
    · exact absurd hn hnb
    · exact hn

theorem LeastTwo.nodeAt_merge (h : LeastTwo active m a b others) (hm : m < 511) (x : Nat) :
    nodeAt (mergeInto nodes m a b) x =
      if x = m then
        { weight := (nodeAt nodes a.node).weight + (nodeAt nodes b.node).weight
          left := BitVec.ofNat 9 a.node
          right := BitVec.ofNat 9 b.node
          parent := Config.noNode }
      else if x = a.node ∨ x = b.node then { nodeAt nodes x with parent := BitVec.ofNat 9 m }
      else nodeAt nodes x :=
  nodeAt_mergeInto nodes m x a b hm (h.older a h.fst_mem) (h.older b h.snd_mem) h.ne

theorem LeastTwo.mergeFields (h : LeastTwo active m a b others) (hm : m < 511) :
    MergeFields nodes (mergeInto nodes m a b) m a.node b.node :=
  mergeInto_fields nodes hm (h.older a h.fst_mem) (h.older b h.snd_mem) h.ne

end

/-- Settles O19: a merge takes the two least members, and what it leaves in each node is read off `mergeInto`. -/
theorem mergeMakesNode : Obligations.MergeMakesNode := by
  intro k nodes nodes' active active' hk hnd hlt h
  obtain ⟨a, b, others, hl, rfl, rfl⟩ := mergeOnce_leastTwo hnd hlt h
  have hm : 256 + k < 511 := by omega
  have ha := hl.older a hl.fst_mem
  have hb := hl.older b hl.snd_mem
  have f := hl.mergeFields (nodes := nodes) hm
  have hat := hl.nodeAt_merge (nodes := nodes) hm
  refine ⟨a, b, others, hl.perm, hl.first, hl.second, f.made_weight, f.made_left, f.made_right, f.made_parent, ?_, ?_,
    fun x hxa hxb hxm => ?_, List.Perm.refl _⟩
  · rw [hat, if_neg ha.ne, if_pos (.inl rfl)]
  · rw [hat, if_neg hb.ne, if_pos (.inr rfl)]
  · rw [hat, if_neg hxm, if_neg (by simp [hxa, hxb])]

/-! ## Induction over the merges -/

theorem treeAfter_succ_eq_some {freq : Vector Word 256} {old nodes : Vector Node 511} {active : List Key} {k : Nat}
    (h : treeAfter freq old (k + 1) = some (nodes, active)) :
    ∃ nodes₀ active₀, treeAfter freq old k = some (nodes₀, active₀) ∧
      mergeOnce k nodes₀ active₀ = some (nodes, active) := by
  simp only [treeAfter] at h
  cases ht : treeAfter freq old k with
  | none => simp [ht] at h
  | some p => exact ⟨p.1, p.2, rfl, by simpa [ht] using h⟩

/-- R141: the key of an active node holds the node's weight. -/
def KeysHold (nodes : Vector Node 511) (active : List Key) : Prop :=
  ∀ x ∈ active, (nodeAt nodes x.node).weight = x.weight

theorem keysHold_withLeaves (freq : Vector Word 256) (old : Vector Node 511) :
    KeysHold (withLeaves freq old) (leafKeys freq) := by
  intro x hx
  obtain ⟨n, hn, rfl⟩ := List.mem_map.mp hx
  rw [nodeAt_withLeaves_leaf _ _ _ (List.mem_range.mp hn)]
  rfl

theorem KeysHold.merge {nodes : Vector Node 511} {active others : List Key} {m : Nat} {a b : Key}
    (h : KeysHold nodes active) (hl : LeastTwo active m a b others) (hm : m < 511) :
    (nodeAt (mergeInto nodes m a b) m).weight = a.weight + b.weight ∧
      KeysHold (mergeInto nodes m a b) ({ weight := a.weight + b.weight, node := m } :: others) := by
  have f := hl.mergeFields (nodes := nodes) hm
  have hmade : (nodeAt (mergeInto nodes m a b) m).weight = a.weight + b.weight := by
    rw [f.made_weight, h a hl.fst_mem, h b hl.snd_mem]
  refine ⟨hmade, fun x hx => ?_⟩
  rcases List.mem_cons.mp hx with rfl | hx
  · exact hmade
  · rw [f.weight _ (hl.older x (hl.other_mem hx)).ne, h x (hl.other_mem hx)]

/-- R140: merge `k` of BUILD. -/
structure MergeStep (freq : Vector Word 256) (nodes : Vector Node 511) (active : List Key) (k : Nat) (a b : Key)
    (others : List Key) : Prop where
  made_lt : 256 + k < 511
  forest : Forest freq nodes active (256 + k)
  keys : KeysHold nodes active
  least : LeastTwo active (256 + k) a b others
  /-- R141: `256 - k` nodes are active, two of which are taken. -/
  card : others.length + k = 254

theorem MergeStep.mergeFields {freq : Vector Word 256} {nodes : Vector Node 511} {active others : List Key} {k : Nat}
    {a b : Key} (h : MergeStep freq nodes active k a b others) :
    MergeFields nodes (mergeInto nodes (256 + k) a b) (256 + k) a.node b.node := h.least.mergeFields h.made_lt

theorem keysHold_treeAfter {freq : Vector Word 256} {old nodes : Vector Node 511} {active : List Key} {k : Nat}
    (hk : k ≤ 255) (h : treeAfter freq old k = some (nodes, active)) : KeysHold nodes active := by
  induction k generalizing nodes active with
  | zero =>
    simp only [treeAfter, Option.some.injEq, Prod.mk.injEq] at h
    obtain ⟨rfl, rfl⟩ := h
    exact keysHold_withLeaves freq old
  | succ k ih =>
    obtain ⟨nodes₀, active₀, ht, hmerge⟩ := treeAfter_succ_eq_some h
    obtain ⟨hnd, hlt⟩ := treeAfter_active (by omega) ht
    obtain ⟨a, b, others, hl, rfl, rfl⟩ := mergeOnce_leastTwo hnd hlt hmerge
    obtain ⟨hmade, hkeys⟩ := (ih (by omega) ht).merge hl (by omega)
    rwa [hmade]

theorem length_active_treeAfter {freq : Vector Word 256} {old nodes : Vector Node 511} {active : List Key} {k : Nat}
    (hk : k ≤ 255) (h : treeAfter freq old k = some (nodes, active)) : active.length = 256 - k := by
  obtain ⟨nodes', active', h', hlen⟩ := treeAfter_isSome freq old k hk
  obtain ⟨-, rfl⟩ := Prod.mk.inj (Option.some.inj (h.symm.trans h'))
  exact hlen

/-- R140: the table after `k + 1` merges comes from the one after `k`. -/
theorem exists_mergeStep {freq : Vector Word 256} {old nodes : Vector Node 511} {active : List Key} {k : Nat}
    (hk : k < 255) (h : treeAfter freq old (k + 1) = some (nodes, active)) :
    ∃ nodes₀ active₀ a b others, treeAfter freq old k = some (nodes₀, active₀) ∧
      MergeStep freq nodes₀ active₀ k a b others ∧ nodes = mergeInto nodes₀ (256 + k) a b ∧
      active = { weight := a.weight + b.weight, node := 256 + k } :: others := by
  obtain ⟨nodes₀, active₀, ht, hmerge⟩ := treeAfter_succ_eq_some h
  obtain ⟨hnd, hlt⟩ := treeAfter_active hk.le ht
  obtain ⟨a, b, others, hl, rfl, rfl⟩ := mergeOnce_leastTwo hnd hlt hmerge
  have hm : 256 + k < 511 := by omega
  have hkeys := keysHold_treeAfter hk.le ht
  have hlen : active₀.length = others.length + 2 := hl.perm.length_eq
  have hcard := length_active_treeAfter hk.le ht
  exact ⟨nodes₀, active₀, a, b, others, ht, ⟨hm, forest_treeAfter hk.le ht, hkeys, hl, by omega⟩, rfl,
    by rw [(hkeys.merge hl hm).1]⟩

/-- What holds of the leaves and is kept by every merge holds after any number of merges. -/
theorem treeAfter_induction {freq : Vector Word 256} {old : Vector Node 511}
    {P : Nat → Vector Node 511 → List Key → Prop} (hleaves : P 0 (withLeaves freq old) (leafKeys freq))
    (hmerge : ∀ k nodes active a b others, MergeStep freq nodes active k a b others → P k nodes active →
      P (k + 1) (mergeInto nodes (256 + k) a b) ({ weight := a.weight + b.weight, node := 256 + k } :: others))
    {k : Nat} (hk : k ≤ 255) {nodes : Vector Node 511} {active : List Key}
    (h : treeAfter freq old k = some (nodes, active)) : P k nodes active := by
  induction k generalizing nodes active with
  | zero =>
    simp only [treeAfter, Option.some.injEq, Prod.mk.injEq] at h
    obtain ⟨rfl, rfl⟩ := h
    exact hleaves
  | succ k ih =>
    obtain ⟨nodes₀, active₀, a, b, others, ht, hs, rfl, rfl⟩ := exists_mergeStep hk h
    exact hmerge k _ _ a b others hs (ih (by omega) ht)

end Sys2Proof.Machine
end

section
/-! PROOF. BUILD (spec/42_tree_builder.md R140, R149): one engine step per merge, to the tree of the frequency table,
which does not depend on the node table BUILD found. -/

namespace Sys2Proof.Machine

/-! ## The states of the loop -/

/-- R140: BUILD, issued in state `s`, after `k` merges that left this node table and active set. -/
def building (s : State) (nodes : Vector Node 511) (active : List Key) (k : Nat) : State :=
  { enterBuild (accept (encode .build) (.start .build) s) with nodes := nodes, run := .build active k }

/-- R140: the state BUILD leaves. -/
def built (s : State) (nodes : Vector Node 511) (active : List Key) : State :=
  complete { building s nodes active 255 with treeValid := true }

/-- R119: no check of BUILD can fail. -/
theorem firstFailure_build (s : State) : firstFailure .build s = none := by
  have hsrc : rangeOK s.lat.srcAddr.toNat (sourceLen .build s.lat) = true := decide_eq_true s.lat.srcAddr.isLt.le
  have hdst : rangeOK s.lat.dstAddr.toNat (destLen .build s.lat) = true := decide_eq_true s.lat.dstAddr.isLt.le
  have hshare : overlap s.lat.srcAddr.toNat (sourceLen .build s.lat) s.lat.dstAddr.toNat (destLen .build s.lat) =
      false := by simp [overlap, destLen]
  simp [firstFailure, checkState, capacityOK, hsrc, hdst, hshare]

theorem engineStep_building_merges {s : State} {nodes nodes' : Vector Node 511} {active active' : List Key} {k : Nat}
    (hk : k < 255) (h : mergeOnce k nodes active = some (nodes', active')) :
    engineStep (building s nodes active k) = some (building s nodes' active' (k + 1)) := by
  simp [engineStep, move, moveBuild, building, hk, h]

theorem engineStep_building_completes (s : State) (nodes : Vector Node 511) (active : List Key) :
    engineStep (building s nodes active 255) = some (built s nodes active) := by
  simp [engineStep, move, moveBuild, building, built]

theorem runEngine_building {s : State} (n : Nat) {k : Nat} (hk : k ≤ 255) {nodes : Vector Node 511} {active : List Key}
    (h : treeAfter s.freq s.nodes k = some (nodes, active)) :
    runEngine (k + n) (enterBuild (accept (encode .build) (.start .build) s)) =
      runEngine n (building s nodes active k) := by
  induction k generalizing n nodes active with
  | zero =>
    simp only [treeAfter, Option.some.injEq, Prod.mk.injEq] at h
    obtain ⟨rfl, rfl⟩ := h
    rw [Nat.zero_add]
    rfl
  | succ k ih =>
    obtain ⟨nodes₀, active₀, ht, hmerge⟩ := treeAfter_succ_eq_some h
    rw [show k + 1 + n = k + (n + 1) by omega, ih (n + 1) (by omega) ht,
      runEngine_succ_of_step n (engineStep_building_merges hk hmerge)]

/-- R113, R140: BUILD takes the step of the checks, 255 merges and the completion. -/
theorem exec_build {s : State} (hready : Ready s) {nodes : Vector Node 511} {active : List Key}
    (h : treeAfter s.freq s.nodes 255 = some (nodes, active)) : exec .build s = .next (built s nodes active) := by
  obtain ⟨hhigh, hidle, hu⟩ := hready
  have hstart : engineStep (accept (encode .build) (.start .build) s) =
      some (enterBuild (accept (encode .build) (.start .build) s)) := by
    rw [engineStep_start rfl, firstFailure_build]
    rfl
  have hbound : stepBound (accept (encode .build) (.start .build) s) = 255 + 1 + 1 := rfl
  rw [exec_idle .build hhigh hidle, settle_undisturbed (s := accept ..) hu, hbound, runEngine_succ_of_step _ hstart,
    runEngine_building 1 le_rfl h, runEngine_succ_of_step _ (engineStep_building_completes s nodes active), runEngine]

/-- Settles O20: the loop takes the table through its 255 merges, and acceptance and completion write the rest. -/
theorem buildLeavesTree : Obligations.BuildLeavesTree := by
  intro s hready
  obtain ⟨nodes, active, h, -⟩ := treeAfter_isSome s.freq s.nodes 255 le_rfl
  have hcodes : (built s nodes active).codesValid = false := by
    simp [built, building, encode, codesAfterAccept, clearsTables]
  exact ⟨_, exec_build hready h, ⟨rfl, rfl, rfl, rfl, rfl⟩, rfl, rfl, hcodes, rfl, rfl, rfl, rfl, rfl, _, _, h⟩

/-! ## The old node table -/

/-- R149: a merge of the same active set reads and leaves the same on two tables that agree on the nodes made so far. -/
theorem mergeOnce_agree {k : Nat} {nodes nodes' made made' : Vector Node 511} {active next next' : List Key}
    (hk : k < 255) (hlt : ∀ x ∈ active, x.node < 256 + k) (hnd : (active.map Key.node).Nodup)
    (hagree : ∀ x < 256 + k, nodeAt nodes' x = nodeAt nodes x) (h : mergeOnce k nodes active = some (made, next))
    (h' : mergeOnce k nodes' active = some (made', next')) :
    next' = next ∧ ∀ x < 256 + (k + 1), nodeAt made' x = nodeAt made x := by
  obtain ⟨a, rest, b, others, ha, hb, -, rfl, rfl⟩ := mergeOnce_eq_some h
  obtain ⟨a', rest', b', others', ha', hb', -, rfl, rfl⟩ := mergeOnce_eq_some h'
  obtain ⟨rfl, rfl⟩ := Prod.mk.inj (Option.some.inj (ha.symm.trans ha'))
  obtain ⟨rfl, rfl⟩ := Prod.mk.inj (Option.some.inj (hb.symm.trans hb'))
  have hm : 256 + k < 511 := by omega
  have hl := leastTwo_of_extractMin hnd hlt ha hb
  have hmade : ∀ x < 256 + (k + 1),
      nodeAt (mergeInto nodes' (256 + k) a b) x = nodeAt (mergeInto nodes (256 + k) a b) x := fun x hx => by
    rw [hl.nodeAt_merge hm, hl.nodeAt_merge hm, hagree _ (hl.older a hl.fst_mem), hagree _ (hl.older b hl.snd_mem)]
    by_cases hxm : x = 256 + k
    · rw [if_pos hxm, if_pos hxm]
    · rw [if_neg hxm, if_neg hxm, hagree x (by omega)]
  exact ⟨by rw [hmade _ (by omega)], hmade⟩

/-- R149: two runs of merges from one frequency table have equal active sets and agree on the nodes made so far. -/
theorem treeAfter_agree {freq : Vector Word 256} {old old' nodes nodes' : Vector Node 511} {active active' : List Key}
    {k : Nat} (hk : k ≤ 255) (h : treeAfter freq old k = some (nodes, active))
    (h' : treeAfter freq old' k = some (nodes', active')) :
    active' = active ∧ ∀ x < 256 + k, nodeAt nodes' x = nodeAt nodes x := by
  induction k generalizing nodes nodes' active active' with
  | zero =>
    simp only [treeAfter, Option.some.injEq, Prod.mk.injEq] at h h'
    obtain ⟨rfl, rfl⟩ := h
    obtain ⟨rfl, rfl⟩ := h'
    exact ⟨rfl, fun x hx => by rw [nodeAt_withLeaves_leaf _ _ _ hx, nodeAt_withLeaves_leaf _ _ _ hx]⟩
  | succ k ih =>
    obtain ⟨nodes₀, active₀, ht, hmerge⟩ := treeAfter_succ_eq_some h
    obtain ⟨nodes₁, active₁, ht', hmerge'⟩ := treeAfter_succ_eq_some h'
    obtain ⟨rfl, hagree⟩ := ih (by omega) ht ht'
    obtain ⟨hnd, hlt⟩ := treeAfter_active (by omega) ht
    exact mergeOnce_agree hk hlt hnd hagree hmerge hmerge'

theorem nodes_ext {nodes nodes' : Vector Node 511} (h : ∀ x < 511, nodeAt nodes x = nodeAt nodes' x) :
    nodes = nodes' := by
  ext1 x hx
  simpa [nodeAt, hx] using h x hx

/-- R149: a frequency table has one tree. -/
theorem isTreeOf_unique {freq : Vector Word 256} {nodes nodes' : Vector Node 511} (h : IsTreeOf freq nodes)
    (h' : IsTreeOf freq nodes') : nodes = nodes' := by
  obtain ⟨old, active, ht⟩ := h
  obtain ⟨old', active', ht'⟩ := h'
  exact nodes_ext (treeAfter_agree le_rfl ht' ht).2

/-- Settles O23: both leave the one tree of the frequency table. -/
theorem buildDependsOnFreqOnly : Obligations.BuildDependsOnFreqOnly := by
  intro s u hs hu hfreq
  obtain ⟨t, ht, -, -, -, -, -, -, -, -, -, htree⟩ := buildLeavesTree s hs
  obtain ⟨v, hv, -, -, -, -, -, -, -, -, -, hvtree⟩ := buildLeavesTree u hu
  exact ⟨t, v, ht, hv, isTreeOf_unique htree (hfreq ▸ hvtree)⟩

end Sys2Proof.Machine
end

section
/-! PROOF. The weights of the tree BUILD leaves (spec/42_tree_builder.md R146): the active weights sum to all the counts
after every merge, so no sum of two of them overflows. -/

namespace Sys2Proof.Machine

/-! ## The weights of the active set -/

/-- The sum of the weights of some keys, as a number. -/
def keySum (keys : List Key) : Nat := (keys.map fun x => x.weight.toNat).sum

theorem keySum_cons (x : Key) (keys : List Key) : keySum (x :: keys) = x.weight.toNat + keySum keys := List.sum_cons

theorem keySum_perm {keys keys' : List Key} (h : keys.Perm keys') : keySum keys = keySum keys' := (h.map _).sum_eq

theorem weight_le_keySum {x : Key} {keys : List Key} (h : x ∈ keys) : x.weight.toNat ≤ keySum keys :=
  List.le_sum_of_mem (List.mem_map_of_mem h)

theorem keySum_leafKeys (freq : Vector Word 256) : keySum (leafKeys freq) = freqSum freq := by
  have hlist : (leafKeys freq).map (fun x => x.weight.toNat) = freq.toList.map BitVec.toNat := by
    apply List.ext_getElem
    · simp [leafKeys]
    · intro n h h'
      have hn : n < 256 := by simpa using h'
      simp [leafKeys, hn]
  rw [keySum, hlist, freqSum]

theorem LeastTwo.keySum_eq {active others : List Key} {m : Nat} {a b : Key} (h : LeastTwo active m a b others) :
    keySum active = a.weight.toNat + b.weight.toNat + keySum others := by
  rw [keySum_perm h.perm, keySum_cons, keySum_cons, Nat.add_assoc]

/-! ## No overflow -/

/-- R146: node `n` weighs what its children weigh together, as numbers. -/
def WeightsAdd (nodes : Vector Node 511) (n : Nat) : Prop :=
  (nodeAt nodes n).weight.toNat =
    (nodeAt nodes (nodeAt nodes n).left.toNat).weight.toNat + (nodeAt nodes (nodeAt nodes n).right.toNat).weight.toNat

/-- R146 for the nodes below `m`: the active weights sum to all the counts, no node weighs more, no sum overflowed. -/
structure Weighed (total : Nat) (nodes : Vector Node 511) (active : List Key) (m : Nat) : Prop where
  sum : keySum active = total
  bounded : ∀ n < m, (nodeAt nodes n).weight.toNat ≤ total
  adds : ∀ n, 256 ≤ n → n < m → WeightsAdd nodes n

theorem weighed_withLeaves (freq : Vector Word 256) (old : Vector Node 511) :
    Weighed (freqSum freq) (withLeaves freq old) (leafKeys freq) 256 where
  sum := keySum_leafKeys freq
  bounded n hn := by
    obtain ⟨x, hx, rfl⟩ := List.mem_map.mp ((mem_nodes_leafKeys freq n).mpr hn)
    rw [keysHold_withLeaves freq old x hx, ← keySum_leafKeys]
    exact weight_le_keySum hx
  adds n h h' := by omega

/-- R146: the weights of the two least members are added without overflow. -/
theorem Weighed.toNat_add {total : Nat} {nodes : Vector Node 511} {active others : List Key} {m : Nat} {a b : Key}
    (h : Weighed total nodes active m) (hfit : total < 2 ^ 32) (hl : LeastTwo active m a b others) :
    (a.weight + b.weight).toNat = a.weight.toNat + b.weight.toNat := by
  have := hl.keySum_eq.symm.trans h.sum
  rw [BitVec.toNat_add, Nat.mod_eq_of_lt (by omega)]

theorem Weighed.merge {total : Nat} {freq : Vector Word 256} {nodes : Vector Node 511} {active others : List Key}
    {k : Nat} {a b : Key} (h : Weighed total nodes active (256 + k)) (hfit : total < 2 ^ 32)
    (hs : MergeStep freq nodes active k a b others) :
    Weighed total (mergeInto nodes (256 + k) a b) ({ weight := a.weight + b.weight, node := 256 + k } :: others)
      (256 + (k + 1)) := by
  have f := hs.mergeFields
  have ha := hs.least.older a hs.least.fst_mem
  have hb := hs.least.older b hs.least.snd_mem
  have hsum : a.weight.toNat + b.weight.toNat + keySum others = total := hs.least.keySum_eq.symm.trans h.sum
  have hadd := h.toNat_add hfit hs.least
  have hmade := (hs.keys.merge hs.least hs.made_lt).1
  refine ⟨by rw [keySum_cons, hadd, hsum], fun n hn => ?_, fun n hn hn' => ?_⟩
  · by_cases hnm : n = 256 + k
    · rw [hnm, hmade, hadd]; omega
    · rw [f.weight n hnm]; exact h.bounded n (by omega)
  · unfold WeightsAdd
    by_cases hnm : n = 256 + k
    · rw [hnm, f.made_left, f.made_right, f.weight _ ha.ne, f.weight _ hb.ne, hmade, hadd,
        hs.keys a hs.least.fst_mem, hs.keys b hs.least.snd_mem]
    · obtain ⟨-, hl, hr, -⟩ := hs.forest.internal n hn (by omega)
      rw [f.left n hnm, f.right n hnm, f.weight n hnm, f.weight _ (by omega), f.weight _ (by omega)]
      exact h.adds n hn (by omega)

theorem weighed_treeAfter {freq : Vector Word 256} {old nodes : Vector Node 511} {active : List Key} {k : Nat}
    (hfit : freqSum freq < 2 ^ 32) (hk : k ≤ 255) (h : treeAfter freq old k = some (nodes, active)) :
    Weighed (freqSum freq) nodes active (256 + k) :=
  treeAfter_induction (P := fun k nodes active => Weighed (freqSum freq) nodes active (256 + k))
    (weighed_withLeaves freq old) (fun _ _ _ _ _ _ hs hw => hw.merge hfit hs) hk h

/-- Settles O22: after the last merge the root alone is active, so it weighs all the counts. -/
theorem rootWeighsAllCounts : Obligations.RootWeighsAllCounts := by
  rintro freq nodes ⟨old, active, h⟩ hfit
  have hw := weighed_treeAfter hfit le_rfl h
  obtain ⟨x, rfl, hroot⟩ := List.map_eq_singleton_iff.mp (treeAfter_last_active h)
  have hx : x.weight.toNat = freqSum freq := by simpa [keySum] using hw.sum
  refine ⟨?_, fun n hn => ⟨hw.bounded n (Nat.lt_succ_of_le hn), fun hint => hw.adds n hint (Nat.lt_succ_of_le hn)⟩⟩
  rw [← hroot, keysHold_treeAfter le_rfl h x List.mem_cons_self, hx]

end Sys2Proof.Machine
end

section
/-! PROOF. The order of the merges (spec/42_tree_builder.md R151): what has the lower key is merged no later, so its
path from the root, which is its code, is no shorter. -/

namespace Sys2Proof.Machine

/-! ## Codes and paths -/

section
variable {freq : Vector Word 256} {nodes : Vector Node 511} {active : List Key}

theorem Forest.add_length_le_root (h : Forest freq nodes active 511) {n : Nat} {bits : List Bool}
    (hp : PathTo nodes n bits) : n + bits.length ≤ Config.root := by
  induction bits using List.reverseRecOn generalizing n with
  | nil => exact (pathTo_nil.mp hp).le
  | append_singleton bits b ih =>
    obtain ⟨p, -, hlt, -, -, hpath, -⟩ := h.pathTo_concat_parent hp
    have := ih hpath
    rw [List.length_append, List.length_singleton]
    omega

/-- R160, R161: the bit GENCODE reads at a node is the one that leads to it from its parent. -/
theorem Forest.bit_of_childOf (h : Forest freq nodes active 511) {n p : Nat} {b : Bool} (hint : 256 ≤ p)
    (hle : p ≤ Config.root) (hchild : childOf nodes p b = n) :
    (!((nodeAt nodes p).left == BitVec.ofNat 9 n)) = b := by
  obtain ⟨hne, -⟩ := h.internal p hint (Nat.lt_succ_of_le hle)
  subst hchild
  cases b <;> simp [childOf, hne]

/-- R160, R163: the walk up from a node gives its path, followed by the bits read before. -/
theorem Forest.codeUp_of_pathTo (h : Forest freq nodes active 511) (hroot : active.map Key.node = [Config.root])
    {n fuel : Nat} {bits : List Bool} (hp : PathTo nodes n bits) (hfuel : bits.length < fuel) (suffix : List Bool) :
    codeUp nodes fuel n suffix = some (bits ++ suffix) := by
  induction bits using List.reverseRecOn generalizing n fuel suffix with
  | nil =>
    obtain ⟨fuel, rfl⟩ := Nat.exists_eq_succ_of_ne_zero hfuel.ne_bot
    obtain rfl := pathTo_nil.mp hp
    obtain ⟨-, hparent⟩ := h.active_root Config.root (by simp [hroot])
    simp [codeUp, hparent]
  | append_singleton bits b ih =>
    obtain ⟨fuel, rfl⟩ := Nat.exists_eq_succ_of_ne_zero (Nat.ne_zero_of_lt hfuel)
    obtain ⟨p, hint, -, hle, rfl, hpath, hchild⟩ := h.pathTo_concat_parent hp
    have hparent : (nodeAt nodes n).parent ≠ Config.noNode := fun he =>
      absurd (he ▸ hle : Config.noNode.toNat ≤ Config.root) (by decide)
    rw [List.length_append, List.length_singleton] at hfuel
    rw [codeUp, if_neg hparent, ih hpath (by omega), h.bit_of_childOf hint hle hchild, List.append_assoc,
      List.singleton_append]

end

/-- R163: the code of a leaf is its path from the root. -/
theorem leafCode_of_pathTo {freq : Vector Word 256} {nodes : Vector Node 511} (ht : IsTreeOf freq nodes) {i : Nat}
    {bits : List Bool} (hp : PathTo nodes i bits) : leafCode nodes i = some bits := by
  obtain ⟨active, h, hroot⟩ := exists_forest_of_isTreeOf ht
  have hlen : i + bits.length ≤ 510 := h.add_length_le_root hp
  simpa [leafCode] using h.codeUp_of_pathTo hroot hp (fuel := 511) (by omega) []

/-! ## The order of the merges -/

/-- R141: the key of node `n`. -/
def nodeKey (nodes : Vector Node 511) (n : Nat) : Key := { weight := (nodeAt nodes n).weight, node := n }

theorem nodeKey_before_iff (nodes : Vector Node 511) (x y : Nat) :
    keyBefore (nodeKey nodes x) (nodeKey nodes y) = true ↔
      (nodeAt nodes x).weight.toNat < (nodeAt nodes y).weight.toNat ∨
        ((nodeAt nodes x).weight.toNat = (nodeAt nodes y).weight.toNat ∧ x < y) := keyBefore_iff _ _

/-- R151 for the nodes below `m`: of two nodes the one of lower key has the earlier parent; a root, whose parent link is
`NONE`, comes last. -/
def ParentsOrdered (nodes : Vector Node 511) (m : Nat) : Prop :=
  ∀ x < m, ∀ y < m, keyBefore (nodeKey nodes x) (nodeKey nodes y) = true →
    (nodeAt nodes x).parent.toNat ≤ (nodeAt nodes y).parent.toNat

theorem parentsOrdered_withLeaves (freq : Vector Word 256) (old : Vector Node 511) :
    ParentsOrdered (withLeaves freq old) 256 := by
  intro x hx y hy _
  rw [nodeAt_withLeaves_leaf _ _ _ hx, nodeAt_withLeaves_leaf _ _ _ hy]
  exact le_rfl

theorem KeysHold.nodeKey_eq {nodes : Vector Node 511} {active : List Key} (h : KeysHold nodes active) {x : Key}
    (hx : x ∈ active) : nodeKey nodes x.node = x := by
  rw [nodeKey, h x hx]

section
variable {freq : Vector Word 256} {nodes : Vector Node 511} {active others : List Key} {k : Nat} {a b : Key}

/-- The nodes that come no earlier than a root are roots too. -/
theorem ParentsOrdered.mem_active (h : ParentsOrdered nodes (256 + k)) (hs : MergeStep freq nodes active k a b others)
    {x : Key} (hx : x ∈ active) {n : Nat} (hn : n < 256 + k) (hb : keyBefore x (nodeKey nodes n) = true) :
    n ∈ active.map Key.node := by
  by_contra hna
  have hroot := hs.forest.parent_of_root (List.mem_map_of_mem (f := Key.node) hx)
  have hle := h x.node (hs.least.older x hx) n hn (by rwa [hs.keys.nodeKey_eq hx])
  obtain ⟨-, hlt⟩ := hs.forest.hasParent n hn hna
  have := hs.made_lt
  omega

/-- A root that comes after both merged ones stays a root. -/
theorem ParentsOrdered.parent_of_later (h : ParentsOrdered nodes (256 + k))
    (hs : MergeStep freq nodes active k a b others) {n : Nat} (hn : n < 256 + k)
    (hb : keyBefore b (nodeKey nodes n) = true) :
    (nodeAt (mergeInto nodes (256 + k) a b) n).parent.toNat = 511 := by
  have hroot := hs.forest.parent_of_root (h.mem_active hs hs.least.snd_mem hn hb)
  have hna : n ≠ a.node := by
    rintro rfl
    rw [hs.keys.nodeKey_eq hs.least.fst_mem] at hb
    exact not_keyBefore_symm hs.least.first hb
  have hnb : n ≠ b.node := by
    rintro rfl
    rw [hs.keys.nodeKey_eq hs.least.snd_mem, keyBefore_irrefl] at hb
    exact Bool.false_ne_true hb
  rw [hs.mergeFields.parent n hn.ne hna hnb, hroot]

/-- A root's parent is the made node, or still to be made. -/
theorem MergeStep.le_parent_of_root (hs : MergeStep freq nodes active k a b others) {n : Nat}
    (hn : n ∈ active.map Key.node) : 256 + k ≤ (nodeAt (mergeInto nodes (256 + k) a b) n).parent.toNat := by
  obtain ⟨hlt, -⟩ := hs.forest.active_root n hn
  by_cases hab : n = a.node ∨ n = b.node
  · exact (hs.mergeFields.parent_child n hab).ge
  · obtain ⟨hna, hnb⟩ := not_or.mp hab
    rw [hs.mergeFields.parent n hlt.ne hna hnb, hs.forest.parent_of_root hn]
    exact hs.made_lt.le

/-- What has a parent keeps it. -/
theorem MergeStep.parent_of_not_root (hs : MergeStep freq nodes active k a b others) {n : Nat} (hn : n < 256 + k)
    (hna : n ∉ active.map Key.node) :
    (nodeAt (mergeInto nodes (256 + k) a b) n).parent = (nodeAt nodes n).parent :=
  hs.mergeFields.parent n hn.ne (fun he => hna (he ▸ List.mem_map_of_mem hs.least.fst_mem))
    (fun he => hna (he ▸ List.mem_map_of_mem hs.least.snd_mem))

/-- R151: a merge takes its two nodes before every other root, and the node it makes comes after both. -/
theorem ParentsOrdered.merge (h : ParentsOrdered nodes (256 + k)) (hs : MergeStep freq nodes active k a b others)
    (hadd : (a.weight + b.weight).toNat = a.weight.toNat + b.weight.toNat) :
    ParentsOrdered (mergeInto nodes (256 + k) a b) (256 + (k + 1)) := by
  have f := hs.mergeFields
  have hkey : ∀ n ≠ 256 + k, nodeKey (mergeInto nodes (256 + k) a b) n = nodeKey nodes n := fun n hn => by
    rw [nodeKey, nodeKey, f.weight n hn]
  intro x hx y hy hxy
  have hlink := (nodeAt (mergeInto nodes (256 + k) a b) x).parent.isLt
  by_cases hym : y = 256 + k
  · rw [hym, f.made_parent]
    exact Nat.le_of_lt_succ hlink
  have hy' : y < 256 + k := by omega
  rw [hkey y hym] at hxy
  by_cases hlater : keyBefore b (nodeKey nodes y) = true
  · rw [h.parent_of_later hs hy' hlater]
    exact Nat.le_of_lt_succ hlink
  have hxm : x ≠ 256 + k := by
    rintro rfl
    have hmade : keyBefore b (nodeKey (mergeInto nodes (256 + k) a b) (256 + k)) = true := by
      have hlt := hs.least.older b hs.least.snd_mem
      rw [keyBefore_iff, nodeKey, (hs.keys.merge hs.least hs.made_lt).1]
      simp only [hadd]
      omega
    exact hlater (keyBefore_trans hmade hxy)
  have hx' : x < 256 + k := by omega
  rw [hkey x hxm] at hxy
  by_cases hya : y ∈ active.map Key.node
  · refine le_trans ?_ (hs.le_parent_of_root hya)
    by_cases hxa : x ∈ active.map Key.node
    · have hab : x = a.node ∨ x = b.node := by
        obtain ⟨z, hz, rfl⟩ := List.mem_map.mp hxa
        rw [hs.keys.nodeKey_eq hz] at hxy
        rcases (hs.least.mem_iff z).mp hz with rfl | rfl | hz
        · exact .inl rfl
        · exact .inr rfl
        · exact absurd (keyBefore_trans (hs.least.second z hz) hxy) hlater
      exact (f.parent_child x hab).le
    · rw [hs.parent_of_not_root hx' hxa]
      exact (hs.forest.hasParent x hx' hxa).2.le
  · have hxa : x ∉ active.map Key.node := fun hxa => by
      obtain ⟨z, hz, rfl⟩ := List.mem_map.mp hxa
      rw [hs.keys.nodeKey_eq hz] at hxy
      exact hya (h.mem_active hs hz hy' hxy)
    rw [hs.parent_of_not_root hx' hxa, hs.parent_of_not_root hy' hya]
    exact h x hx' y hy' hxy

end

theorem parentsOrdered_treeAfter {freq : Vector Word 256} {old nodes : Vector Node 511} {active : List Key} {k : Nat}
    (hfit : freqSum freq < 2 ^ 32) (hk : k ≤ 255) (h : treeAfter freq old k = some (nodes, active)) :
    ParentsOrdered nodes (256 + k) := by
  have hboth := treeAfter_induction
    (P := fun k nodes active => Weighed (freqSum freq) nodes active (256 + k) ∧ ParentsOrdered nodes (256 + k))
    ⟨weighed_withLeaves freq old, parentsOrdered_withLeaves freq old⟩
    (fun _ _ _ _ _ _ hs ⟨hw, ho⟩ => ⟨hw.merge hfit hs, ho.merge hs (hw.toNat_add hfit hs.least)⟩) hk h
  exact hboth.2

/-! ## The depth of a leaf -/

section
variable {freq : Vector Word 256} {nodes : Vector Node 511} {active : List Key}

/-- The children of the node made first have the lower keys. -/
theorem Forest.weight_childOf_le (h : Forest freq nodes active 511) (hord : ParentsOrdered nodes 511) {p q : Nat}
    (b : Bool) (hp : 256 ≤ p) (hpq : p < q) (hq : q ≤ Config.root) :
    (nodeAt nodes (childOf nodes p b)).weight.toNat ≤ (nodeAt nodes (childOf nodes q b)).weight.toNat := by
  have hp' : p ≤ Config.root := hpq.le.trans hq
  have hlt := fun n (hn : 256 ≤ n) (hn' : n ≤ Config.root) =>
    (h.childOf_lt b hn hn').trans (Nat.lt_succ_of_le hn')
  by_contra hw
  have hle := hord _ (hlt q (hp.trans hpq.le) hq) _ (hlt p hp hp')
    ((nodeKey_before_iff nodes _ _).mpr (.inl (Nat.lt_of_not_le hw)))
  rw [h.parent_childOf b (hp.trans hpq.le) hq, h.parent_childOf b hp hp'] at hle
  omega

/-- R151: the node made first weighs no more. -/
theorem Forest.weight_le_of_lt (h : Forest freq nodes active 511) (hord : ParentsOrdered nodes 511)
    (hadds : ∀ n, 256 ≤ n → n < 511 → WeightsAdd nodes n) {p q : Nat} (hp : 256 ≤ p) (hpq : p < q)
    (hq : q ≤ Config.root) : (nodeAt nodes p).weight.toNat ≤ (nodeAt nodes q).weight.toNat := by
  have hq' : q < 511 := Nat.lt_succ_of_le hq
  rw [hadds p hp (hpq.trans hq'), hadds q (hp.trans hpq.le) hq']
  exact Nat.add_le_add (h.weight_childOf_le hord false hp hpq hq) (h.weight_childOf_le hord true hp hpq hq)

/-- R151: of two nodes the one that does not have the lower key is no deeper: its parent does not have the lower key
either, and no key is above the root's. -/
theorem Forest.length_le_of_not_keyBefore (h : Forest freq nodes active 511) (hord : ParentsOrdered nodes 511)
    (hadds : ∀ n, 256 ≤ n → n < 511 → WeightsAdd nodes n)
    (hmax : ∀ n ≤ Config.root, (nodeAt nodes n).weight.toNat ≤ (nodeAt nodes Config.root).weight.toNat) {x y : Nat}
    {p q : List Bool} (hp : PathTo nodes x p) (hq : PathTo nodes y q)
    (hxy : ¬ keyBefore (nodeKey nodes x) (nodeKey nodes y) = true) : p.length ≤ q.length := by
  induction q using List.reverseRecOn generalizing x y p with
  | nil =>
    obtain rfl := pathTo_nil.mp hq
    have hx := h.le_root_of_pathTo hp
    obtain rfl : x = Config.root := by
      have := hmax x hx
      rw [nodeKey_before_iff] at hxy
      omega
    rw [h.path_unique hq hp]
  | append_singleton q c ih =>
    cases p using List.reverseRecOn with
    | nil => exact Nat.zero_le _
    | append_singleton p b =>
      obtain ⟨u, hu, hxu, hur, hparx, hpathx, -⟩ := h.pathTo_concat_parent hp
      obtain ⟨v, hv, hyv, hvr, hpary, hpathy, -⟩ := h.pathTo_concat_parent hq
      have hvu : v ≤ u := by
        by_cases he : x = y
        · rw [← hparx, ← hpary, he]
        · have hyx := (keyBefore_or (nodeKey nodes x) (nodeKey nodes y) he).resolve_left hxy
          have := hord y (hyv.trans (Nat.lt_succ_of_le hvr)) x (hxu.trans (Nat.lt_succ_of_le hur)) hyx
          rwa [hparx, hpary] at this
      have huv : ¬ keyBefore (nodeKey nodes u) (nodeKey nodes v) = true := by
        rw [nodeKey_before_iff]
        rcases hvu.eq_or_lt with rfl | hlt
        · omega
        · have := h.weight_le_of_lt hord hadds hv hlt hur
          omega
      rw [List.length_append, List.length_append]
      exact Nat.add_le_add_right (ih hpathx hpathy huv) 1

end

/-- Settles O26: the heavier leaf does not have the lower key, and the code of a leaf is its path. -/
theorem heavierLeafIsNotDeeper : Obligations.HeavierLeafIsNotDeeper := by
  intro freq nodes i j ht hfit hi hj hlt
  obtain ⟨hroot, hweights⟩ := rootWeighsAllCounts freq nodes ht hfit
  have hshape := treeShape_of_isTreeOf ht
  obtain ⟨p, hp, -⟩ := hshape.path i (hi.le.trans (by decide))
  obtain ⟨q, hq, -⟩ := hshape.path j (hj.le.trans (by decide))
  have hbefore : ¬ keyBefore (nodeKey nodes i) (nodeKey nodes j) = true := by
    obtain ⟨-, -, hwi⟩ := hshape.leaf i hi
    obtain ⟨-, -, hwj⟩ := hshape.leaf j hj
    rw [nodeKey_before_iff, hwi, hwj]
    omega
  have hcode_i := leafCode_of_pathTo ht hp
  have hcode_j := leafCode_of_pathTo ht hq
  obtain ⟨old, active, h⟩ := ht
  exact ⟨p, q, hp, hq, hcode_i, hcode_j,
    (forest_treeAfter le_rfl h).length_le_of_not_keyBefore (parentsOrdered_treeAfter hfit le_rfl h)
      (weighed_treeAfter hfit le_rfl h).adds (fun n hn => hroot ▸ (hweights n hn).1) hp hq hbefore⟩

end Sys2Proof.Machine
end

section
/-! PROOF. Two trees in closed form (spec/42_tree_builder.md R148, R150): with every count 0 merge `k` takes nodes `2k`
and `2k + 1`, and a single symbol's leaf is taken in the last merge alone. -/

namespace Sys2Proof.Machine

/-! ## Every count 0 -/

/-- R150: with every count 0, the state of BUILD after `k` merges. -/
structure ZeroForest (nodes : Vector Node 511) (active : List Key) (k : Nat) : Prop where
  active_iff : ∀ n, n ∈ active.map Key.node ↔ 2 * k ≤ n ∧ n < 256 + k
  weight : ∀ x ∈ active, x.weight = 0
  children : ∀ j < k, (nodeAt nodes (256 + j)).left.toNat = 2 * j ∧ (nodeAt nodes (256 + j)).right.toNat = 2 * j + 1

theorem zeroForest_withLeaves (old : Vector Node 511) :
    ZeroForest (withLeaves (Vector.replicate 256 0) old) (leafKeys (Vector.replicate 256 0)) 0 where
  active_iff n := by rw [mem_nodes_leafKeys]; omega
  weight x hx := by
    obtain ⟨n, hn, rfl⟩ := List.mem_map.mp hx
    simp [List.mem_range.mp hn]
  children j hj := by omega

section
variable {freq : Vector Word 256} {nodes : Vector Node 511} {active others : List Key} {k : Nat} {a b : Key}

theorem ZeroForest.node_lt (h : ZeroForest nodes active k) {x y : Key} (hx : x ∈ active) (hy : y ∈ active)
    (hb : keyBefore x y = true) : x.node < y.node := by
  rw [keyBefore_iff, h.weight x hx, h.weight y hy] at hb
  omega

/-- R142: among equal weights the two smallest node indices are taken. -/
theorem ZeroForest.taken (h : ZeroForest nodes active k) (hs : MergeStep freq nodes active k a b others) :
    a.node = 2 * k ∧ b.node = 2 * k + 1 := by
  have hab := h.node_lt hs.least.fst_mem hs.least.snd_mem hs.least.first
  have hleast : ∀ n, 2 * k ≤ n → n < 256 + k → n = a.node ∨ b.node ≤ n := by
    intro n hlo hhi
    obtain ⟨x, hx, rfl⟩ := List.mem_map.mp ((h.active_iff n).mpr ⟨hlo, hhi⟩)
    rcases (hs.least.mem_iff x).mp hx with rfl | rfl | hx'
    · exact .inl rfl
    · exact .inr le_rfl
    · exact .inr (h.node_lt hs.least.snd_mem hx (hs.least.second x hx')).le
  have ha := (h.active_iff a.node).mp (List.mem_map_of_mem hs.least.fst_mem)
  have hm := hs.made_lt
  have h₀ := hleast (2 * k) (by omega) (by omega)
  have h₁ := hleast (2 * k + 1) (by omega) (by omega)
  omega

theorem ZeroForest.merge (h : ZeroForest nodes active k) (hs : MergeStep freq nodes active k a b others) :
    ZeroForest (mergeInto nodes (256 + k) a b) ({ weight := a.weight + b.weight, node := 256 + k } :: others)
      (k + 1) := by
  have f := hs.mergeFields
  obtain ⟨ha, hb⟩ := h.taken hs
  refine ⟨fun n => ?_, fun x hx => ?_, fun j hj => ?_⟩
  · rw [List.map_cons, List.mem_cons, hs.least.mem_others, h.active_iff, ha, hb]
    simp only
    have := hs.made_lt
    omega
  · rcases List.mem_cons.mp hx with rfl | hx
    · simp only [h.weight a hs.least.fst_mem, h.weight b hs.least.snd_mem]
      rfl
    · exact h.weight x (hs.least.other_mem hx)
  · by_cases hjk : j = k
    · rw [hjk, f.made_left, f.made_right]
      exact ⟨ha, hb⟩
    · rw [f.left _ (by omega), f.right _ (by omega)]
      exact h.children j (by omega)

end

/-- R150: where the first `t` of the 8 bits of `i`, most significant first, lead from the root of such a tree: level `t`
ends before node `512 - 2 ^ t`, and its nodes stand in the order of those bits. -/
theorem walkDown_zeroForest {nodes : Vector Node 511}
    (hchild : ∀ k < 255, ∀ b : Bool, childOf nodes (256 + k) b = 2 * k + b.toNat) {i : Nat} (hi : i < 256) {t : Nat}
    (ht : t ≤ 8) :
    walkDown nodes Config.root ((List.range t).map fun b => i.testBit (7 - b)) =
      512 - 2 ^ (t + 1) + i / 2 ^ (8 - t) := by
  induction t with
  | zero => simp [walkDown, Nat.div_eq_of_lt hi]
  | succ t ih =>
    have hbit : (i.testBit (7 - t)).toNat = i / 2 ^ (7 - t) % 2 := Nat.toNat_testBit i (7 - t)
    have hhalf : i / 2 ^ (8 - t) = i / 2 ^ (7 - t) / 2 := by
      rw [Nat.div_div_eq_div_mul, ← Nat.pow_succ]
      congr 2
      omega
    have hlt : i / 2 ^ (7 - t) < 2 ^ t * 2 := by
      refine Nat.div_lt_of_lt_mul ?_
      rw [← Nat.pow_succ, ← Nat.pow_add, show 7 - t + (t + 1) = 8 by omega]
      exact hi
    have hpos := Nat.two_pow_pos t
    have hpow : 2 ^ t ≤ 2 ^ 7 := Nat.pow_le_pow_right (by omega) (by omega)
    have hnode : 512 - 2 ^ (t + 1) + i / 2 ^ (8 - t) = 256 + (256 - 2 ^ t * 2 + i / 2 ^ (7 - t) / 2) := by
      rw [hhalf, Nat.pow_succ]
      omega
    calc walkDown nodes Config.root ((List.range (t + 1)).map fun b => i.testBit (7 - b))
        = childOf nodes (walkDown nodes Config.root ((List.range t).map fun b => i.testBit (7 - b)))
            (i.testBit (7 - t)) := by simp [walkDown, List.range_succ]
      _ = 2 * (256 - 2 ^ t * 2 + i / 2 ^ (7 - t) / 2) + i / 2 ^ (7 - t) % 2 := by
        rw [ih (by omega), hnode, hchild _ (by omega), hbit]
      _ = 512 - 2 ^ (t + 1 + 1) + i / 2 ^ (8 - (t + 1)) := by
        rw [show 8 - (t + 1) = 7 - t by omega, Nat.pow_succ, Nat.pow_succ]
        omega

/-- Settles O24: the children are those each merge took, and eight steps down them spell the index of a leaf. -/
theorem zeroWeightsGiveCompleteTree : Obligations.ZeroWeightsGiveCompleteTree := by
  rintro nodes ⟨old, active, h⟩
  have hzero := treeAfter_induction (P := fun k nodes active => ZeroForest nodes active k)
    (zeroForest_withLeaves old) (fun _ _ _ _ _ _ hs hz => hz.merge hs) le_rfl h
  obtain ⟨hleft, hright⟩ := hzero.children 254 (by omega)
  have hchild : ∀ k < 255, ∀ b : Bool, childOf nodes (256 + k) b = 2 * k + b.toNat := by
    intro k hk b
    obtain ⟨hl, hr⟩ := hzero.children k hk
    cases b
    · exact hl
    · exact hr
  refine ⟨hzero.children, fun i hi => ⟨?_, fun t ht => ?_⟩, BitVec.eq_of_toNat_eq hleft, BitVec.eq_of_toNat_eq hright⟩
  · rw [walkDown_zeroForest hchild hi le_rfl]
    simp
  · have ht' : t < 8 := by simpa using ht
    have hpow : 2 ^ (t + 1) ≤ 2 ^ 8 := Nat.pow_le_pow_right (by omega) (by omega)
    rw [← List.map_take, List.take_range, min_eq_left ht'.le, walkDown_zeroForest hchild hi ht'.le]
    exact Nat.le_add_right_of_le (by omega)

/-! ## A single symbol -/

/-- R148: leaf `i` is active and it is the one active node that has a weight. -/
structure OneHeavy (i : Nat) (active : List Key) : Prop where
  mem : i ∈ active.map Key.node
  weight_eq_zero_iff : ∀ x ∈ active, x.weight = 0 ↔ x.node ≠ i

theorem oneHeavy_leafKeys {freq : Vector Word 256} {i : Nat} (hi : i < 256)
    (hfreq : ∀ j < 256, (freq[j]?).getD 0 ≠ 0 ↔ j = i) : OneHeavy i (leafKeys freq) where
  mem := (mem_nodes_leafKeys freq i).mpr hi
  weight_eq_zero_iff x hx := by
    obtain ⟨n, hn, rfl⟩ := List.mem_map.mp hx
    exact (not_iff_comm.mp (hfreq n (List.mem_range.mp hn))).symm

section
variable {freq : Vector Word 256} {nodes : Vector Node 511} {active others : List Key} {i k : Nat} {a b : Key}

theorem OneHeavy.ne_of_before (h : OneHeavy i active) {x y : Key} (hx : x ∈ active) (hy : y ∈ active)
    (hne : x.node ≠ y.node) (hb : keyBefore x y = true) : x.node ≠ i := by
  rintro rfl
  have hyw : y.weight = 0 := (h.weight_eq_zero_iff y hy).mpr hne.symm
  have hy0 : y.weight.toNat = 0 := by rw [hyw]; rfl
  have hx0 : x.weight.toNat = 0 := by
    rw [keyBefore_iff] at hb
    omega
  have hxw : x.weight = 0 := BitVec.eq_of_toNat_eq hx0
  exact (h.weight_eq_zero_iff x hx).mp hxw rfl

theorem OneHeavy.fst_ne (h : OneHeavy i active) (hl : LeastTwo active k a b others) : a.node ≠ i :=
  h.ne_of_before hl.fst_mem hl.snd_mem hl.ne hl.first

/-- R148: with three or more active nodes the leaf of the symbol is not taken. -/
theorem OneHeavy.snd_ne (h : OneHeavy i active) (hl : LeastTwo active k a b others) (hmore : others ≠ []) :
    b.node ≠ i := by
  obtain ⟨x, hx⟩ := List.exists_mem_of_ne_nil others hmore
  obtain ⟨-, -, hxb⟩ := (hl.mem_others x.node).mp (List.mem_map_of_mem hx)
  exact h.ne_of_before hl.snd_mem (hl.other_mem hx) hxb.symm (hl.second x hx)

theorem OneHeavy.merge (h : OneHeavy i active) (hs : MergeStep freq nodes active k a b others) (hi : i < 256)
    (hmore : others ≠ []) : OneHeavy i ({ weight := a.weight + b.weight, node := 256 + k } :: others) where
  mem := List.mem_cons_of_mem _ <|
    (hs.least.mem_others i).mpr ⟨h.mem, (h.fst_ne hs.least).symm, (h.snd_ne hs.least hmore).symm⟩
  weight_eq_zero_iff x hx := by
    rcases List.mem_cons.mp hx with rfl | hx
    · have ha := (h.weight_eq_zero_iff a hs.least.fst_mem).mpr (h.fst_ne hs.least)
      have hb := (h.weight_eq_zero_iff b hs.least.snd_mem).mpr (h.snd_ne hs.least hmore)
      simp only [ha, hb]
      exact iff_of_true rfl (by omega)
    · exact h.weight_eq_zero_iff x (hs.least.other_mem hx)

end

theorem oneHeavy_treeAfter {freq : Vector Word 256} {old nodes : Vector Node 511} {active : List Key} {i k : Nat}
    (hi : i < 256) (hfreq : ∀ j < 256, (freq[j]?).getD 0 ≠ 0 ↔ j = i) (hk : k ≤ 254)
    (h : treeAfter freq old k = some (nodes, active)) : OneHeavy i active := by
  refine treeAfter_induction (P := fun k _ active => k ≤ 254 → OneHeavy i active)
    (fun _ => oneHeavy_leafKeys hi hfreq) (fun k _ _ _ _ others hs hh hk => ?_) (hk.trans (by decide)) h hk
  have hmore : others ≠ [] := by
    rintro rfl
    have : 0 + k = 254 := hs.card
    omega
  exact (hh (by omega)).merge hs hi hmore

/-- R140: the node of the last merge but one is a child of the root. -/
theorem parent_penultimate {freq : Vector Word 256} {nodes : Vector Node 511} (ht : IsTreeOf freq nodes) :
    (nodeAt nodes 509).parent.toNat = 510 := by
  obtain ⟨-, hle⟩ := (treeShape_of_isTreeOf ht).hasParent 509 (by decide)
  obtain ⟨old, active, h⟩ := ht
  rcases treeAfter_parent le_rfl h 509 (by decide) with hnone | ⟨hlt, -⟩
  · rw [hnone] at hle
    exact absurd hle (by decide)
  · exact le_antisymm hle hlt

/-- R148: the last merge takes node 509, of weight 0, and the leaf of the symbol. -/
theorem root_children_of_single {freq : Vector Word 256} {nodes : Vector Node 511} {i : Nat} (hi : i < 256)
    (ht : IsTreeOf freq nodes) (hfreq : ∀ j < 256, (freq[j]?).getD 0 ≠ 0 ↔ j = i) :
    (nodeAt nodes Config.root).left.toNat = 509 ∧ (nodeAt nodes Config.root).right.toNat = i ∧
      (nodeAt nodes 509).weight = 0 := by
  have hchild := ((treeShape_of_isTreeOf ht).parent 509 (by decide) Config.root (by decide) le_rfl).mp
    (parent_penultimate ht)
  obtain ⟨old, active, h⟩ := ht
  obtain ⟨nodes₀, active₀, a, b, others, ht₀, hs, rfl, -⟩ := exists_mergeStep (by omega) h
  have f := hs.mergeFields
  have hheavy := oneHeavy_treeAfter hi hfreq le_rfl ht₀
  have ha := hheavy.fst_ne hs.least
  have hb : b.node = i := by
    by_contra hne
    have hnone : others = [] := List.length_eq_zero_iff.mp (Nat.add_right_cancel hs.card)
    have := (hs.least.mem_others i).mpr ⟨hheavy.mem, ha.symm, Ne.symm hne⟩
    simp [hnone] at this
  rw [show Config.root = 256 + 254 from rfl, f.made_left, f.made_right] at hchild ⊢
  have ha' : a.node = 509 := by omega
  refine ⟨ha', hb, ?_⟩
  rw [← ha', f.weight _ (by omega), hs.keys a hs.least.fst_mem, (hheavy.weight_eq_zero_iff a hs.least.fst_mem).mpr ha]

/-- A node that is not the root has a non-empty path. -/
theorem exists_code_ne_nil {freq : Vector Word 256} {nodes : Vector Node 511} (ht : IsTreeOf freq nodes) {j : Nat}
    (hj : j < 256) : ∃ code, leafCode nodes j = some code ∧ code ≠ [] := by
  obtain ⟨bits, hp, -⟩ := (treeShape_of_isTreeOf ht).path j (hj.le.trans (by decide))
  refine ⟨bits, leafCode_of_pathTo ht hp, ?_⟩
  rintro rfl
  exact absurd (pathTo_nil.mp hp) (hj.trans (by decide)).ne

/-- Settles O25: the leaf of the symbol is the root's right child, so its path is one step to the right. -/
theorem singleSymbolGetsCodeOne : Obligations.SingleSymbolGetsCodeOne := by
  intro freq nodes i hi ht hfreq
  obtain ⟨hleft, hright, hweight⟩ := root_children_of_single hi ht hfreq
  have hpath : PathTo nodes i ([] ++ [true]) := pathTo_concat.mpr ⟨Config.root, by decide, pathTo_nil.mpr rfl, hright⟩
  exact ⟨BitVec.eq_of_toNat_eq hleft, hright, hweight, leafCode_of_pathTo ht hpath, fun _ => exists_code_ne_nil ht⟩

end Sys2Proof.Machine
end

section
/-! PROOF. The code table (spec/43_code_table.md R160 to R165): GENCODE takes one engine step per leaf to the codes of its
tree, which are prefix-free and fill the code space. -/

namespace Sys2Proof.Machine

/-! ## The codes of a tree -/

/-- R161: a leaf lies below at least one and at most 255 internal nodes, the root among them. -/
theorem Forest.length_of_pathTo_leaf {freq : Vector Word 256} {nodes : Vector Node 511} {active : List Key}
    (h : Forest freq nodes active 511) {i : Nat} {bits : List Bool} (hi : i < 256) (hp : PathTo nodes i bits) :
    1 ≤ bits.length ∧ bits.length ≤ 255 := by
  cases bits using List.reverseRecOn with
  | nil => exact absurd (pathTo_nil.mp hp) (hi.trans (by decide)).ne
  | append_singleton bits b =>
    obtain ⟨p, hint, -, -, -, hpath, -⟩ := h.pathTo_concat_parent hp
    have hle : p + bits.length ≤ 510 := h.add_length_le_root hpath
    rw [List.length_append, List.length_singleton]
    omega

/-- R161, R163: every leaf has a code, which is its path from the root and has 1 to 255 bits. -/
theorem IsTreeOf.exists_code {freq : Vector Word 256} {nodes : Vector Node 511} (ht : IsTreeOf freq nodes) {i : Nat}
    (hi : i < 256) :
    ∃ code, leafCode nodes i = some code ∧ PathTo nodes i code ∧ 1 ≤ code.length ∧ code.length ≤ 255 := by
  obtain ⟨active, h, hroot⟩ := exists_forest_of_isTreeOf ht
  obtain ⟨code, hp⟩ := h.exists_path hroot (hi.le.trans (by decide))
  exact ⟨code, leafCode_of_pathTo ht hp, hp, h.length_of_pathTo_leaf hi hp⟩

/-! ## The loop of GENCODE -/

/-- R160: GENCODE, issued in state `s`, when the code table is `codes` and leaf `leaf` is next. -/
def generating (s : State) (codes : Vector (List Bool) 256) (leaf : Nat) : State :=
  { enterGencode (accept (encode .gencode) (.start .gencode) s) with codes := codes, run := .gencode leaf }

/-- R160: the state GENCODE leaves. -/
def generated (s : State) (codes : Vector (List Bool) 256) : State :=
  complete { generating s codes 256 with codesValid := true }

/-- R117: an empty range at a 32-bit address passes. -/
theorem rangeOK_empty (a : Word) : rangeOK a.toNat 0 = true := decide_eq_true a.isLt.le

/-- R119: with a tree no check of GENCODE can fail, whose ranges are empty. -/
theorem firstFailure_gencode {s : State} (h : s.treeValid = true) : firstFailure .gencode s = none := by
  simp [firstFailure, checkState, capacityOK, sourceLen, destLen, overlap, rangeOK_empty, h]

/-- R111: GENCODE keeps TREE_VALID at its acceptance. -/
theorem accept_gencode_treeValid (s : State) :
    (accept (encode .gencode) (.start .gencode) s).treeValid = s.treeValid := by
  simp [accept, encode, treeAfterAccept, clearsTables]

theorem engineStep_generating {s : State} {codes : Vector (List Bool) 256} {leaf : Nat} {code : List Bool}
    (hleaf : leaf < 256) (hcode : leafCode s.nodes leaf = some code) :
    engineStep (generating s codes leaf) = some (generating s (codes.setIfInBounds leaf code) (leaf + 1)) := by
  simp [engineStep, move, moveGencode, generating, hleaf, hcode]

theorem engineStep_generating_completes (s : State) (codes : Vector (List Bool) 256) :
    engineStep (generating s codes 256) = some (generated s codes) := by
  simp [engineStep, move, moveGencode, generating, generated]

theorem codesOf_zero (nodes : Vector Node 511) (codes : Vector (List Bool) 256) : CodesOf nodes codes 0 :=
  fun _ hi => absurd hi (Nat.not_lt_zero _)

/-- R160: writing the next leaf's code keeps the codes of the leaves before it. -/
theorem CodesOf.set {nodes : Vector Node 511} {codes : Vector (List Bool) 256} {leaf : Nat} {code : List Bool}
    (h : CodesOf nodes codes leaf) (hleaf : leaf < 256) (hcode : leafCode nodes leaf = some code) :
    CodesOf nodes (codes.setIfInBounds leaf code) (leaf + 1) := by
  intro i hi
  rcases Nat.lt_succ_iff_lt_or_eq.mp hi with hlt | rfl
  · rw [Vector.getElem?_setIfInBounds_ne hlt.ne']
    exact h i hlt
  · rw [Vector.getElem?_setIfInBounds_self_of_lt hleaf]
    exact hcode

/-- R160: `leaf` steps of the loop leave the codes of the first `leaf` leaves. -/
theorem runEngine_generating {s : State} {freq : Vector Word 256} (ht : IsTreeOf freq s.nodes) (n : Nat) {leaf : Nat}
    (hleaf : leaf ≤ 256) :
    ∃ codes, CodesOf s.nodes codes leaf ∧
      runEngine (leaf + n) (generating s s.codes 0) = runEngine n (generating s codes leaf) := by
  induction leaf generalizing n with
  | zero => exact ⟨s.codes, codesOf_zero _ _, by rw [Nat.zero_add]⟩
  | succ leaf ih =>
    obtain ⟨codes, hcodes, hrun⟩ := ih (n + 1) (by omega)
    obtain ⟨code, hcode, -⟩ := ht.exists_code hleaf
    refine ⟨_, hcodes.set hleaf hcode, ?_⟩
    rw [show leaf + 1 + n = leaf + (n + 1) by omega, hrun, runEngine_succ_of_step n (engineStep_generating hleaf hcode)]

/-- R113, R160: GENCODE takes the step of the checks, 256 leaves and the completion. -/
theorem exec_gencode {s : State} {freq : Vector Word 256} (hready : Ready s) (hvalid : s.treeValid = true)
    (ht : IsTreeOf freq s.nodes) :
    ∃ codes, CodesOf s.nodes codes 256 ∧ exec .gencode s = .next (generated s codes) := by
  obtain ⟨hhigh, hidle, hu⟩ := hready
  have hstart : engineStep (accept (encode .gencode) (.start .gencode) s) = some (generating s s.codes 0) := by
    rw [engineStep_start rfl, firstFailure_gencode ((accept_gencode_treeValid s).trans hvalid)]
    rfl
  have hbound : stepBound (accept (encode .gencode) (.start .gencode) s) = 256 + 1 + 1 := rfl
  obtain ⟨codes, hcodes, hrun⟩ := runEngine_generating ht 1 le_rfl
  refine ⟨codes, hcodes, ?_⟩
  rw [exec_idle .gencode hhigh hidle, settle_undisturbed (s := accept ..) hu, hbound, runEngine_succ_of_step _ hstart,
    hrun, runEngine_succ_of_step _ (engineStep_generating_completes s codes), runEngine]

/-- Settles O27: the loop leaves the code of every leaf, and that code is the leaf's path. -/
theorem gencodeDerivesPaths : Obligations.GencodeDerivesPaths := by
  intro s freq hready hvalid ht
  obtain ⟨codes, hcodes, hexec⟩ := exec_gencode hready hvalid ht
  refine ⟨_, hexec, ⟨rfl, rfl, rfl, rfl, rfl⟩, rfl, (accept_gencode_treeValid s).trans hvalid, rfl, rfl, rfl, rfl, rfl,
    rfl, rfl, fun i hi => ?_⟩
  obtain ⟨code, hcode, hpath, hlen⟩ := ht.exists_code hi
  have heq : codeAt (generated s codes) i = code := Option.some.inj ((hcodes i hi).symm.trans hcode)
  rw [heq]
  exact ⟨hpath, hcode, hlen⟩

/-! ## Prefixes -/

/-- R164: a path goes on from no leaf, so one that begins with the path of a leaf ends there. -/
theorem PathTo.eq_of_prefix {nodes : Vector Node 511} {i j : Nat} {p q : List Bool} (hp : PathTo nodes i p)
    (hq : PathTo nodes j q) (hi : i < 256) (hpre : p <+: q) : i = j := by
  obtain ⟨rfl, -⟩ := hp
  obtain ⟨rfl, hint⟩ := hq
  rcases hpre.length_le.lt_or_eq with hlt | heq
  · have := hint p.length hlt
    rw [← List.prefix_iff_eq_take.mp hpre] at this
    omega
  · rw [hpre.eq_of_length heq]

/-- R165: a sequence of bits begins with at most one leaf's path. -/
theorem PathTo.eq_of_prefix_of_prefix {nodes : Vector Node 511} {i j : Nat} {p q bits : List Bool}
    (hp : PathTo nodes i p) (hq : PathTo nodes j q) (hi : i < 256) (hj : j < 256) (hpb : p <+: bits)
    (hqb : q <+: bits) : i = j := by
  rcases List.prefix_or_prefix_of_prefix hpb hqb with hpq | hqp
  · exact hp.eq_of_prefix hq hi hpq
  · exact (hq.eq_of_prefix hp hj hqp).symm

/-- Settles O28: the code of a leaf is its path, and a path goes on from no leaf. -/
theorem codesArePrefixFree : Obligations.CodesArePrefixFree := by
  intro freq nodes i j ht hi hj hij
  obtain ⟨p, hpcode, hp, -⟩ := ht.exists_code hi
  obtain ⟨q, hqcode, hq, -⟩ := ht.exists_code hj
  exact ⟨p, q, hpcode, hqcode, fun hpre => hij (hp.eq_of_prefix hq hi hpre)⟩

/-- R191: a sequence of bits passes a leaf, or leads to an internal node. -/
theorem exists_leaf_prefix_or_pathTo (nodes : Vector Node 511) (bits : List Bool) :
    (∃ i < 256, ∃ p, PathTo nodes i p ∧ p <+: bits) ∨ ∃ n, 256 ≤ n ∧ PathTo nodes n bits := by
  induction bits using List.reverseRecOn with
  | nil => exact .inr ⟨Config.root, by decide, pathTo_nil.mpr rfl⟩
  | append_singleton bits b ih =>
    rcases ih with ⟨i, hi, p, hp, hpre⟩ | ⟨n, hn, hpath⟩
    · exact .inl ⟨i, hi, p, hp, hpre.trans (List.prefix_append ..)⟩
    · have hchild : PathTo nodes (childOf nodes n b) (bits ++ [b]) := pathTo_concat.mpr ⟨n, hn, hpath, rfl⟩
      rcases lt_or_ge (childOf nodes n b) 256 with hlt | hge
      · exact .inl ⟨_, hlt, _, hchild, List.prefix_rfl⟩
      · exact .inr ⟨_, hge, hchild⟩

/-- R165: 255 bits pass a leaf, because an internal node is at most 254 bits below the root. -/
theorem IsTreeOf.exists_leaf_prefix {freq : Vector Word 256} {nodes : Vector Node 511} (ht : IsTreeOf freq nodes)
    {bits : List Bool} (hlen : 255 ≤ bits.length) : ∃ i < 256, ∃ p, PathTo nodes i p ∧ p <+: bits := by
  obtain ⟨active, h, -⟩ := exists_forest_of_isTreeOf ht
  refine (exists_leaf_prefix_or_pathTo nodes bits).resolve_right ?_
  rintro ⟨n, hn, hpath⟩
  have hle : n + bits.length ≤ 510 := h.add_length_le_root hpath
  omega

/-! ## The code space -/

/-- R165: the share of node `n` in the code space: at depth `d` it is `2^(-d)` of the `2^255` sequences of 255 bits. -/
def codeShare (nodes : Vector Node 511) (n : Nat) : Nat := 2 ^ (255 - ((leafCode nodes n).getD []).length)

section
variable {freq : Vector Word 256} {nodes : Vector Node 511}

theorem IsTreeOf.codeShare_of_pathTo (ht : IsTreeOf freq nodes) {n : Nat} {bits : List Bool}
    (hp : PathTo nodes n bits) : codeShare nodes n = 2 ^ (255 - bits.length) := by
  rw [codeShare, leafCode_of_pathTo ht hp, Option.getD_some]

theorem IsTreeOf.codeShare_root (ht : IsTreeOf freq nodes) : codeShare nodes Config.root = 2 ^ 255 :=
  ht.codeShare_of_pathTo (pathTo_nil.mpr rfl)

/-- R165: each child of an internal node has half of its share. -/
theorem IsTreeOf.codeShare_children (ht : IsTreeOf freq nodes) {p : Nat} (hp : 256 ≤ p) (hp' : p ≤ Config.root) :
    codeShare nodes (childOf nodes p false) + codeShare nodes (childOf nodes p true) = codeShare nodes p := by
  obtain ⟨active, h, hroot⟩ := exists_forest_of_isTreeOf ht
  obtain ⟨bits, hpath⟩ := h.exists_path hroot hp'
  have hle : p + bits.length ≤ 510 := h.add_length_le_root hpath
  have hchild (b : Bool) : codeShare nodes (childOf nodes p b) = 2 ^ (254 - bits.length) := by
    rw [ht.codeShare_of_pathTo (pathTo_concat.mpr ⟨p, hp, hpath, rfl⟩), List.length_append, List.length_singleton,
      show 255 - (bits.length + 1) = 254 - bits.length by omega]
  rw [hchild, hchild, ht.codeShare_of_pathTo hpath, show 255 - bits.length = 254 - bits.length + 1 by omega, pow_succ,
    mul_two]

/-- R43: the nodes with parent `p` are its two children. -/
theorem TreeShape.filter_parent_eq (h : TreeShape freq nodes) {p : Nat} (hp : 256 ≤ p) (hp' : p ≤ Config.root) :
    (Finset.range Config.root).filter (fun n => (nodeAt nodes n).parent.toNat = p) =
      {childOf nodes p false, childOf nodes p true} := by
  obtain ⟨-, hl, hr, -⟩ := h.internal p hp hp'
  ext n
  rw [Finset.mem_filter, Finset.mem_range, Finset.mem_insert, Finset.mem_singleton]
  constructor
  · rintro ⟨hn, hpar⟩
    exact ((h.parent n hn p hp hp').mp hpar).imp Eq.symm Eq.symm
  · intro hchild
    have hlt : n < Config.root := by
      rcases hchild with rfl | rfl
      · exact hl.trans_le hp'
      · exact hr.trans_le hp'
    exact ⟨hlt, (h.parent n hlt p hp hp').mpr (hchild.imp Eq.symm Eq.symm)⟩

/-- R165: every node but the root is a child of one internal node, so the nodes below the root have together the shares
of the internal nodes. -/
theorem IsTreeOf.sum_codeShare_below_root (ht : IsTreeOf freq nodes) :
    ∑ n ∈ Finset.range Config.root, codeShare nodes n = ∑ p ∈ Finset.Ico 256 (Config.root + 1), codeShare nodes p := by
  have h := treeShape_of_isTreeOf ht
  have hparent : ∀ n ∈ Finset.range Config.root, (nodeAt nodes n).parent.toNat ∈ Finset.Ico 256 (Config.root + 1) := by
    intro n hn
    obtain ⟨hlo, hhi⟩ := h.hasParent n (Finset.mem_range.mp hn)
    exact Finset.mem_Ico.mpr ⟨hlo, Nat.lt_succ_of_le hhi⟩
  rw [← Finset.sum_fiberwise_of_maps_to hparent]
  refine Finset.sum_congr rfl fun p hp => ?_
  obtain ⟨hlo, hhi⟩ := Finset.mem_Ico.mp hp
  have hle := Nat.le_of_lt_succ hhi
  have hne : childOf nodes p false ≠ childOf nodes p true := fun he =>
    (h.internal p hlo hle).1 (BitVec.eq_of_toNat_eq he)
  rw [h.filter_parent_eq hlo hle, Finset.sum_pair hne, ht.codeShare_children hlo hle]

/-- R165: the shares of the leaves are the whole code space. -/
theorem IsTreeOf.sum_codeShare_leaves (ht : IsTreeOf freq nodes) :
    ∑ i ∈ Finset.range 256, codeShare nodes i = 2 ^ 255 := by
  have hsplit : ∑ i ∈ Finset.range 256, codeShare nodes i + ∑ p ∈ Finset.Ico 256 (Config.root + 1), codeShare nodes p =
      ∑ n ∈ Finset.range Config.root, codeShare nodes n + codeShare nodes Config.root := by
    rw [Finset.sum_range_add_sum_Ico _ (by decide), Finset.sum_range_succ]
  rw [ht.sum_codeShare_below_root, ht.codeShare_root, Nat.add_comm] at hsplit
  exact Nat.add_left_cancel hsplit

end

/-- Settles O29: the shares of the leaves are counted over the parent links, and 255 bits pass exactly one leaf. -/
theorem codesFillCodeSpace : Obligations.CodesFillCodeSpace := by
  intro freq nodes ht
  refine ⟨fun i hi => ?_, ht.sum_codeShare_leaves, fun bits hlen => ?_⟩
  · obtain ⟨code, hcode, -, -, hle⟩ := ht.exists_code hi
    exact ⟨code, hcode, hle⟩
  · obtain ⟨i, hi, p, hp, hpre⟩ := ht.exists_leaf_prefix hlen
    refine ⟨i, hi, by rwa [leafCode_of_pathTo ht hp], fun j hj hjpre => ?_⟩
    obtain ⟨q, hqcode, hq, -⟩ := ht.exists_code hj
    rw [hqcode, Option.getD_some] at hjpre
    exact hq.eq_of_prefix_of_prefix hp hj hi hjpre hpre

end Sys2Proof.Machine
end

section
/-! PROOF. ENCODE (spec/44_encoder.md R170 to R176): what the engine has packed after `n` bits of the stream, one engine
step per source byte read and per bit appended, the write of a full or padded output byte, and the four ends. -/

namespace Sys2Proof.Machine

/-! ## The stream of a buffer -/

/-- R171: the codes of the first `k` source bytes. -/
def sourceBits (s : State) (k : Nat) : List Bool := codeStream s (bytesAt s.mem s.params.srcAddr.toNat k)

theorem sourceBits_zero (s : State) : sourceBits s 0 = [] := rfl

theorem sourceBits_succ (s : State) (k : Nat) :
    sourceBits s (k + 1) = sourceBits s k ++ codeAt s (symIndex (memRead s.mem (s.params.srcAddr.toNat + k))) := by
  simp [sourceBits, codeStream, bytesAt_succ]

theorem length_codeAt_le_longestCode (s : State) (i : Nat) : (codeAt s i).length ≤ longestCode s := by
  unfold codeAt
  cases h : s.codes[i]? with
  | none => exact Nat.zero_le _
  | some code =>
    have hmem : code ∈ s.codes.toList := by simpa using Vector.mem_of_getElem? h
    have hfold : longestCode s = (s.codes.toList.map List.length).foldl max 0 := List.foldl_map.symm
    rw [hfold, List.foldl_max]
    exact (List.le_max?_getD_of_mem (List.mem_map_of_mem hmem)).trans (le_max_right _ _)

/-- R121: reading `k` source bytes and appending their codes stays inside the bound on the steps. -/
theorem add_length_sourceBits_le (s : State) (k : Nat) : k + (sourceBits s k).length ≤ k * (longestCode s + 1) := by
  induction k with
  | zero => simp [sourceBits_zero]
  | succ k ih =>
    have hcode := length_codeAt_le_longestCode s (symIndex (memRead s.mem (s.params.srcAddr.toNat + k)))
    rw [sourceBits_succ, List.length_append, Nat.succ_mul]
    omega

/-! ## One byte of the stream -/

/-- R171, R172: `v` is byte `j` of a bit stream, padded with zeros past the stream's end. -/
def HoldsByte (v : Byte) (bits : List Bool) (j : Nat) : Prop := ∀ t, t / 8 = j → streamBit v t = (bits[t]?).getD false

theorem streamBit_setStreamBit (acc : Byte) (pos t : Nat) (b : Bool) :
    streamBit (setStreamBit acc pos b) t = if t % 8 = pos % 8 then b else streamBit acc t := by
  have hlow : ∀ n, 7 - n % 8 < 8 := fun n => Nat.sub_lt_succ 7 _
  have hplace : 7 - t % 8 = 7 - pos % 8 ↔ t % 8 = pos % 8 := by omega
  unfold setStreamBit streamBit
  rw [← BitVec.twoPow_eq]
  by_cases h : t % 8 = pos % 8 <;> cases b <;> simp [hlow, hplace, h]

theorem holdsByte_zero {bits : List Bool} {j : Nat} (h : bits.length ≤ 8 * j) : HoldsByte 0#8 bits j := by
  intro t ht
  rw [List.getElem?_eq_none (by omega)]
  simp [streamBit]

/-- R171: the next bit of the stream goes into the byte its place is in. -/
theorem HoldsByte.setStreamBit {acc : Byte} {bits : List Bool} (h : HoldsByte acc bits (bits.length / 8)) (b : Bool) :
    HoldsByte (setStreamBit acc bits.length b) (bits ++ [b]) (bits.length / 8) := by
  intro t ht
  rw [streamBit_setStreamBit]
  rcases lt_trichotomy t bits.length with hlt | rfl | hgt
  · rw [if_neg (by omega), h t ht, List.getElem?_append_left hlt]
  · simp
  · rw [if_neg (by omega), h t ht, List.getElem?_eq_none hgt.le, List.getElem?_eq_none (by simpa using hgt)]

theorem memBit_memWrite_same {m : List Host.Cell} (hm : m.Pairwise (fun c d => c.1 < d.1)) (a : Nat) (v : Byte) (t : Nat) :
    memBit (memWrite m (a + t / 8) v) a t = streamBit v t := by
  rw [memBit, memRead_memWrite_same _ _ _ hm, streamBit]

theorem memBit_memWrite_other {m : List Host.Cell} (hm : m.Pairwise (fun c d => c.1 < d.1)) (a : Nat) (v : Byte)
    {j t : Nat} (h : t / 8 ≠ j) : memBit (memWrite m (a + j) v) a t = memBit m a t := by
  rw [memBit, memRead_memWrite_other _ _ _ _ (by omega) hm, memBit]

/-! ## What has been packed -/

/-- R170, R171: `u` counts the bits of `bits` and `j` bytes written, has the first `j` bytes of that stream at the
destination of `s`, and holds every byte of the memory of `s` but the first `n` there. -/
structure Packed (s : State) (bits : List Bool) (j n : Nat) (u : State) : Prop where
  outBits : u.outBits.toNat = bits.length
  outCount : u.outCount.toNat = j
  sorted : u.mem.Pairwise (fun c d => c.1 < d.1)
  written : ∀ t < 8 * j, memBit u.mem s.params.dstAddr.toNat t = (bits[t]?).getD false
  untouched : ∀ x, inRange x s.params.dstAddr.toNat n = false → memRead u.mem x = memRead s.mem x

/-- R111, R170: the fields of `u` that a running ENCODE, issued in `s`, does not write. -/
structure Encoding (s u : State) : Prop where
  lat : u.lat = latch s.params
  platform : u.platform = s.platform
  inputs : u.inputs = s.inputs
  codes : u.codes = s.codes
  racedSrc : u.racedSrc = []
  racedDst : u.racedDst = []
  unclean : u.unclean = s.hostDirty
  lastcmd : u.lastcmd = 4
  err : u.err = false
  errcode : u.errcode = 0
  errInfo : u.errInfo = 0

section
variable {s u : State} {bits : List Bool} {j : Nat}

/-- R170: one more bit is counted. -/
theorem Packed.append (h : Packed s bits j j u) (hj : j = bits.length / 8) (b : Bool) :
    Packed s (bits ++ [b]) j j { u with outBits := u.outBits + 1 } where
  outBits := by
    have hcount : bits.length / 8 < 2 ^ 32 := hj ▸ h.outCount ▸ u.outCount.isLt
    have hsum : u.outBits.toNat + (1 : Quad).toNat < 2 ^ 64 := by
      rw [h.outBits]
      change bits.length + 1 < 2 ^ 64
      omega
    rw [List.length_append, ← h.outBits]
    exact BitVec.toNat_add_of_lt hsum
  outCount := h.outCount
  sorted := h.sorted
  written t ht := by rw [List.getElem?_append_left (by omega)]; exact h.written t ht
  untouched := h.untouched

/-- R170 `EmitByte`: byte `j` is written and counted. -/
theorem Packed.store (h : Packed s bits j j u) {v : Byte} (hv : HoldsByte v bits j)
    (hj : j < s.params.dstCap.toNat) (x : Access) :
    Packed s bits (j + 1) (j + 1)
      { stored (s.params.dstAddr.toNat + j) v (logged x u) with outCount := u.outCount + 1 } where
  outBits := h.outBits
  outCount := by
    have hsum : u.outCount.toNat + (1 : Word).toNat < 2 ^ 32 := by
      rw [h.outCount]
      exact (Nat.succ_le_of_lt hj).trans_lt s.params.dstCap.isLt
    rw [← h.outCount]
    exact BitVec.toNat_add_of_lt hsum
  sorted := memWrite_sorted _ _ _ h.sorted
  written t ht := by
    by_cases htj : t / 8 = j
    · rw [← hv t htj, ← htj]
      exact memBit_memWrite_same h.sorted _ _ _
    · rw [← h.written t (by omega)]
      exact memBit_memWrite_other h.sorted _ _ htj
  untouched y hy := by
    simp only [inRange, decide_eq_false_iff_not] at hy
    rw [← h.untouched y (by simp only [inRange, decide_eq_false_iff_not]; omega)]
    exact memRead_memWrite_other _ _ _ _ (by omega) h.sorted

/-- R65, R175: byte `j` is lost: its write failed where it may have left any byte. -/
theorem Packed.lose (h : Packed s bits j j u) (v : Byte) (x : Access) :
    Packed s bits j (j + 1) (drawn (stored (s.params.dstAddr.toNat + j) v (logged x u))) where
  outBits := h.outBits
  outCount := h.outCount
  sorted := memWrite_sorted _ _ _ h.sorted
  written t ht := by
    rw [← h.written t ht]
    exact memBit_memWrite_other h.sorted _ _ (by omega)
  untouched y hy := by
    simp only [inRange, decide_eq_false_iff_not] at hy
    rw [← h.untouched y (by simp only [inRange, decide_eq_false_iff_not]; omega)]
    exact memRead_memWrite_other _ _ _ _ (by omega) h.sorted

/-- R171: the bits that fill the first `j` bytes are those of any longer stream. -/
theorem Packed.written_of_take {n m : Nat} (h : Packed s (bits.take m) j n u) (hm : 8 * j ≤ m) :
    ∀ t < 8 * j, memBit u.mem s.params.dstAddr.toNat t = (bits[t]?).getD false := fun t ht => by
  rw [h.written t ht, List.getElem?_take_of_lt (by omega)]

theorem Packed.mono {n n' : Nat} (h : Packed s bits j n u) (hn : n ≤ n') : Packed s bits j n' u :=
  { h with
    untouched := fun x hx => h.untouched x (by
      simp only [inRange, decide_eq_false_iff_not] at hx ⊢
      omega) }

/-- R114, R214: the end of a command without raced bytes keeps what was packed. -/
theorem Packed.endCommand {n : Nat} (h : Packed s bits j n u) (hraced : u.racedDst = []) :
    Packed s bits j n (endCommand u) := by
  have hmem : (Machine.endCommand u).mem = u.mem := by simp [hraced, scrambled]
  exact ⟨h.outBits, h.outCount, hmem ▸ h.sorted, hmem ▸ h.written, hmem ▸ h.untouched⟩

theorem Packed.complete {n : Nat} (h : Packed s bits j n u) (hraced : u.racedDst = []) :
    Packed s bits j n (complete u) := { h.endCommand hraced with }

theorem Packed.raiseError {n : Nat} (h : Packed s bits j n u) (hraced : u.racedDst = []) (e : ErrorCode) (info : Word) :
    Packed s bits j n (raiseError e info u) := { h.endCommand hraced with }

/-- R114: ENCODE completes without error. -/
theorem Encoding.complete_endedWell (h : Encoding s u) : EndedWell (complete u) :=
  ⟨rfl, rfl, h.err, h.errcode, h.errInfo⟩

end

/-! ## The write of an output byte -/

/-- R170 `EmitByte`: the next step of ENCODE, issued in `s`, writes byte `j` of `bits`, of which `w` counts the bits and
has written the bytes before it, and then goes on with `cont`. -/
structure Emits (s u w : State) (bits : List Bool) (j : Nat) (cont : State → State) : Prop where
  move_eq : ∃ acc, HoldsByte acc bits j ∧ move u = emitByte acc w cont
  frame : Encoding s w
  packed : Packed s bits j j w

section
variable {s u w : State} {bits : List Bool} {j : Nat} {cont : State → State}

/-- R174: byte DST_CAP raises DST_OVERFLOW. -/
theorem Emits.overflows (h : Emits s u w bits j cont) (hj : s.params.dstCap.toNat ≤ j) :
    engineStep u = some (raiseError .dstOverflow s.params.dstCap w) := by
  obtain ⟨acc, -, hmove⟩ := h.move_eq
  have hcap : w.lat.dstCap = s.params.dstCap := congrArg Latched.dstCap h.frame.lat
  rw [engineStep, hmove, emitByte, hcap, h.packed.outCount, if_pos hj]

/-- R67: a byte with room is written at its offset from DST_ADDR. -/
theorem Emits.responds (h : Emits s u w bits j cont) (hj : j < s.params.dstCap.toNat) :
    ∃ acc, HoldsByte acc bits j ∧ engineStep u = respondWrite w (s.params.dstAddr.toNat + j) acc
      (fun t => cont { t with outCount := t.outCount + 1 }) := by
  obtain ⟨acc, hacc, hmove⟩ := h.move_eq
  have hcap : w.lat.dstCap = s.params.dstCap := congrArg Latched.dstCap h.frame.lat
  have hdst : w.lat.dstAddr = s.params.dstAddr := congrArg Latched.dstAddr h.frame.lat
  refine ⟨acc, hacc, ?_⟩
  rw [engineStep, hmove, emitByte, hcap, hdst, h.packed.outCount, if_neg (Nat.not_le.mpr hj)]

/-- R170: a byte with room that is written plainly is counted. -/
theorem Emits.plain (h : Emits s u w bits j cont) (hj : j < s.params.dstCap.toNat)
    (hplain : plainWrite s (s.params.dstAddr.toNat + j)) :
    ∃ v, engineStep u = some (cont v) ∧ Encoding s v ∧ Packed s bits (j + 1) (j + 1) v := by
  obtain ⟨acc, hacc, hstep⟩ := h.responds hj
  have hplain' : plainWrite w (s.params.dstAddr.toNat + j) := by rwa [plainWrite, h.frame.platform]
  exact ⟨_, hstep.trans (respondWrite_plain _ _ hplain'), { h.frame with }, h.packed.store hacc hj _⟩

/-- R175: a byte with room whose write fails raises BUS_ERROR. -/
theorem Emits.fails (h : Emits s u w bits j cont) (hj : j < s.params.dstCap.toNat)
    (hfail : failsWrite s (s.params.dstAddr.toNat + j)) :
    ∃ v, engineStep u = some (raiseError .busError (BitVec.ofNat 32 (s.params.dstAddr.toNat + j)) v) ∧
      v.racedDst = [] ∧ Packed s bits j (j + 1) v := by
  obtain ⟨acc, -, hstep⟩ := h.responds hj
  rw [hstep, respondWrite, h.frame.platform]
  rcases hfail with hk | hk <;> simp only [hk]
  · exact ⟨_, rfl, h.frame.racedDst, h.packed.lose _ _⟩
  · exact ⟨_, rfl, h.frame.racedDst, { h.packed.mono j.le_succ with }⟩

end

/-! ## The states of the loop -/

/-- R170: ENCODE, issued in `s`, once it has read `k` source bytes and appended the bits of `bits`, with `code` still to be
appended: every complete byte has been written, and the partial one is held. -/
structure Packing (s : State) (k : Nat) (bits code : List Bool) (u : State) : Prop
    extends Encoding s u, Packed s bits (bits.length / 8) (bits.length / 8) u where
  run : ∃ acc, HoldsByte acc bits (bits.length / 8) ∧ u.run = .encode k acc code

/-- R174, R65: the complete bytes of `n` bits fit the destination of `s` and are written plainly. -/
def Fits (s : State) (n : Nat) : Prop :=
  n / 8 ≤ s.params.dstCap.toNat ∧ PlainDest s s.params.dstAddr.toNat (n / 8)

theorem fits_bytes {s : State} {j : Nat} (hj : j ≤ s.params.dstCap.toNat) (hdest : PlainDest s s.params.dstAddr.toNat j) :
    Fits s (8 * j) := by
  rw [Fits, Nat.mul_div_cancel_left _ (by decide)]
  exact ⟨hj, hdest⟩

theorem Fits.mono {s : State} {m n : Nat} (h : Fits s n) (hm : m ≤ n) : Fits s m :=
  have hdiv : m / 8 ≤ n / 8 := Nat.div_le_div_right hm
  ⟨hdiv.trans h.1, fun k hk => h.2 k (hk.trans_le hdiv)⟩

section
variable {s u : State} {k : Nat} {bits code rest : List Bool} {b : Bool}

/-- R170: the bit that fills the partial byte. -/
theorem Packing.emits_of_fills (h : Packing s k bits (b :: rest) u) (hfull : bits.length % 8 = 7) :
    Emits s u { u with outBits := u.outBits + 1 } (bits ++ [b]) (bits.length / 8)
      (fun t => { t with run := .encode k 0 rest }) := by
  obtain ⟨acc, hacc, hrun⟩ := h.run
  refine ⟨⟨_, hacc.setStreamBit b, ?_⟩, { h.toEncoding with }, h.toPacked.append rfl b⟩
  have hpos : (bits.length + 1) % 8 = 0 := by omega
  simp [move, moveEncode, hrun, h.outBits, hpos]

/-- R172: the partial byte that is left after the last source byte. -/
theorem Packing.emits_of_pads (h : Packing s s.params.srcLen.toNat bits [] u) (hpart : bits.length % 8 ≠ 0) :
    Emits s u u bits (bits.length / 8) complete := by
  obtain ⟨acc, hacc, hrun⟩ := h.run
  refine ⟨⟨acc, hacc, ?_⟩, h.toEncoding, h.toPacked⟩
  simp [move, moveEncode, hrun, h.outBits, h.lat, latch, hpart]

/-- R173: without a partial byte ENCODE completes after the last source byte. -/
theorem Packing.completes (h : Packing s s.params.srcLen.toNat bits [] u) (hwhole : bits.length % 8 = 0) :
    engineStep u = some (complete u) := by
  obtain ⟨acc, hacc, hrun⟩ := h.run
  simp [engineStep, move, moveEncode, hrun, h.outBits, h.lat, latch, hwhole]

/-- R170: with no code left the next source byte is read. -/
theorem Packing.reads (h : Packing s k bits [] u) (hk : k < s.params.srcLen.toNat) :
    ∃ acc, HoldsByte acc bits (bits.length / 8) ∧
      engineStep u = respondRead u (s.params.srcAddr.toNat + k) (takeSource k acc) := by
  obtain ⟨acc, hacc, hrun⟩ := h.run
  exact ⟨acc, hacc, by simp [engineStep, move, moveEncode, hrun, h.lat, latch, hk]⟩

/-- R170, R171: one bit is appended, and its byte written where it is full. -/
theorem Packing.append_step (h : Packing s k bits (b :: rest) u) (hfits : Fits s (bits.length + 1)) :
    ∃ v, engineStep u = some v ∧ Packing s k (bits ++ [b]) rest v := by
  obtain ⟨hcap, hplain⟩ := hfits
  have hlen : (bits ++ [b]).length = bits.length + 1 := List.length_append
  by_cases hfull : bits.length % 8 = 7
  · have hj : (bits ++ [b]).length / 8 = bits.length / 8 + 1 := by omega
    obtain ⟨v, hstep, hframe, hpacked⟩ :=
      (h.emits_of_fills hfull).plain (by omega) (hplain (bits.length / 8) (by omega))
    rw [← hj] at hpacked
    exact ⟨_, hstep, { hframe, hpacked with run := ⟨0, holdsByte_zero (by omega), rfl⟩ }⟩
  · have hj : (bits ++ [b]).length / 8 = bits.length / 8 := by omega
    obtain ⟨acc, hacc, hrun⟩ := h.run
    have hpos : ¬ (bits.length + 1) % 8 = 0 := by omega
    have hstep : engineStep u =
        some { u with outBits := u.outBits + 1, run := .encode k (setStreamBit acc bits.length b) rest } := by
      simp [engineStep, move, moveEncode, hrun, h.outBits, hpos]
    have hpacked := h.toPacked.append rfl b
    have hacc' := hacc.setStreamBit b
    rw [← hj] at hpacked hacc'
    exact ⟨_, hstep, { h.toEncoding, hpacked with run := ⟨_, hacc', rfl⟩ }⟩

/-- R170: a whole code is appended, one bit per step. -/
theorem Packing.append_code (h : Packing s k bits (code ++ rest) u) (hfits : Fits s (bits.length + code.length)) :
    Packing s k (bits ++ code) rest (runEngine code.length u) := by
  induction code generalizing bits u with
  | nil => simpa [runEngine] using h
  | cons b code ih =>
    have hlen : bits.length + (b :: code).length = bits.length + 1 + code.length := by simp; omega
    rw [hlen] at hfits
    obtain ⟨v, hstep, hv⟩ := h.append_step (hfits.mono (Nat.le_add_right ..))
    rw [List.length_cons, runEngine_succ_of_step _ hstep, List.append_cons]
    exact ih hv (by simpa using hfits)

/-- R67, R118: no output byte is a source byte, so a source byte is read as it was at the issue. -/
theorem Packing.read_step (h : Packing s k bits [] u) (hu : undisturbed s = true) (hk : k < s.params.srcLen.toNat)
    (hfits : Fits s bits.length)
    (hapart : overlap s.params.srcAddr.toNat s.params.srcLen.toNat s.params.dstAddr.toNat s.params.dstCap.toNat = false)
    (hplain : plainRead s (s.params.srcAddr.toNat + k)) :
    Packing s (k + 1) bits (codeAt s (symIndex (memRead s.mem (s.params.srcAddr.toNat + k)))) (runEngine 1 u) := by
  obtain ⟨acc, hacc, hstep⟩ := h.reads hk
  obtain ⟨hkind, hclean⟩ := hplain
  have hbyte : memRead u.mem (s.params.srcAddr.toNat + k) = memRead s.mem (s.params.srcAddr.toNat + k) := by
    refine h.untouched _ ?_
    have hcap := hfits.1
    simp only [overlap, inRange, decide_eq_false_iff_not] at hapart ⊢
    omega
  have hcode : ∀ i, codeAt u i = codeAt s i := fun i => by rw [codeAt, h.codes, codeAt]
  have hahead : storeAhead u u.inputs (s.params.srcAddr.toNat + k) = false := by
    rw [h.inputs]
    exact storeAhead_of_undisturbed hu u _
  rw [respondRead_plain (takeSource k acc) (by rwa [h.platform]) (by simp [h.racedSrc]) hahead
    (by rwa [h.platform, h.unclean]), hbyte] at hstep
  rw [runEngine_succ_of_step 0 hstep, runEngine]
  exact { h.toEncoding, h.toPacked with run := ⟨acc, hacc, by rw [← hcode]; rfl⟩ }

end

/-! ## The whole loop -/

/-- R119: an ENCODE that passes its checks, left alone by the host. -/
structure EncodeIssued (s : State) : Prop where
  ready : Ready s
  valid : s.codesValid = true
  srcRange : rangeOK s.params.srcAddr.toNat s.params.srcLen.toNat = true
  dstRange : rangeOK s.params.dstAddr.toNat s.params.dstCap.toNat = true
  apart : overlap s.params.srcAddr.toNat s.params.srcLen.toNat s.params.dstAddr.toNat s.params.dstCap.toNat = false

theorem EncodeIssued.host_waits {s : State} (h : EncodeIssued s) : undisturbed s = true := h.ready.2.2

/-- R170: ENCODE, issued in `s`, at the beginning of its loop. -/
def encodeBegun (s : State) : State := enterEncode (accept (encode .encode) (.start .encode) s)

section
variable {s : State}

theorem packing_encodeBegun (hm : memWf s.mem) : Packing s 0 [] [] (encodeBegun s) where
  lat := rfl
  platform := rfl
  inputs := rfl
  codes := rfl
  racedSrc := rfl
  racedDst := rfl
  unclean := rfl
  lastcmd := rfl
  err := rfl
  errcode := rfl
  errInfo := rfl
  outBits := rfl
  outCount := rfl
  sorted := hm.1
  written t ht := absurd ht (Nat.not_lt_zero t)
  untouched _ _ := rfl
  run := ⟨0, holdsByte_zero le_rfl, rfl⟩

/-- R170: the first `k` source bytes and the bits of their codes take one step each. -/
theorem EncodeIssued.packing_source (h : EncodeIssued s) (hm : memWf s.mem) {k : Nat} (hk : k ≤ s.params.srcLen.toNat)
    (hplain : PlainSource s s.params.srcAddr.toNat k) (hfits : Fits s (sourceBits s k).length) :
    Packing s k (sourceBits s k) [] (runEngine (k + (sourceBits s k).length) (encodeBegun s)) := by
  induction k with
  | zero => exact packing_encodeBegun hm
  | succ k ih =>
    rw [sourceBits_succ, List.length_append] at hfits ⊢
    have hfits' := hfits.mono (Nat.le_add_right ..)
    have hpack := ih (by omega) (fun i hi => hplain i (by omega)) hfits'
    have hread := hpack.read_step h.host_waits hk hfits' h.apart (hplain k k.lt_succ_self)
    have hsteps : ∀ c, k + 1 + ((sourceBits s k).length + c) = k + (sourceBits s k).length + 1 + c := by omega
    rw [hsteps, runEngine_add, runEngine_add]
    exact (List.append_nil (codeAt s _) ▸ hread).append_code hfits

/-- R170: bit `n` of the stream comes to be the next to append, after one step for each bit before it and for each source
byte up to the one it belongs to. -/
theorem EncodeIssued.packing_bit (h : EncodeIssued s) (hm : memWf s.mem) {k n : Nat} (hk : k ≤ s.params.srcLen.toNat)
    (hn : n < (sourceBits s k).length) (hplain : PlainSource s s.params.srcAddr.toNat k) (hfits : Fits s n) :
    ∃ i ≤ k, ∃ b rest, (sourceBits s k).take (n + 1) = (sourceBits s k).take n ++ [b] ∧
      Packing s i ((sourceBits s k).take n) (b :: rest) (runEngine (i + n) (encodeBegun s)) := by
  induction k with
  | zero => exact absurd hn (Nat.not_lt_zero n)
  | succ k ih =>
    have hplain' : PlainSource s s.params.srcAddr.toNat k := fun i hi => hplain i (by omega)
    rw [sourceBits_succ, List.length_append] at hn
    rw [sourceBits_succ]
    by_cases hearlier : n < (sourceBits s k).length
    · obtain ⟨i, hi, b, rest, hbit, hpack⟩ := ih (by omega) hearlier hplain'
      rw [List.take_append_of_le_length hearlier, List.take_append_of_le_length hearlier.le]
      exact ⟨i, by omega, b, rest, hbit, hpack⟩
    · obtain ⟨m, rfl⟩ := Nat.exists_eq_add_of_le (Nat.not_lt.mp hearlier)
      have hfits' := hfits.mono (Nat.le_add_right ..)
      have hread := (h.packing_source hm (by omega) hplain' hfits').read_step h.host_waits hk hfits' h.apart
        (hplain k k.lt_succ_self)
      generalize codeAt s _ = code at hn hread ⊢
      have hm' : m < code.length := by omega
      rw [← List.take_append_drop m code, List.drop_eq_getElem_cons hm'] at hread
      have hpack := hread.append_code (by rwa [List.length_take_of_le hm'.le])
      rw [List.length_take_of_le hm'.le, ← runEngine_add, ← runEngine_add] at hpack
      refine ⟨k + 1, le_rfl, code[m], code.drop (m + 1), ?_, ?_⟩
      · rw [Nat.add_assoc, List.take_length_add_append, List.take_length_add_append, List.append_assoc,
          List.take_append_getElem]
      · rw [List.take_length_add_append]
        convert hpack using 2
        omega

/-- R170, R172: byte `j` of the stream comes to be written: the codes of the first `k` source bytes fill it, or they are
all there are and end in it. -/
theorem EncodeIssued.exists_emits (h : EncodeIssued s) (hm : memWf s.mem) {k j : Nat} (hk : k ≤ s.params.srcLen.toNat)
    (hplain : PlainSource s s.params.srcAddr.toNat k) (hfits : Fits s (8 * j))
    (hbyte : 8 * (j + 1) ≤ (sourceBits s k).length ∨
      (k = s.params.srcLen.toNat ∧ j < ((sourceBits s k).length + 7) / 8)) :
    ∃ n ≤ k + (sourceBits s k).length, ∃ w cont,
      Emits s (runEngine n (encodeBegun s)) w ((sourceBits s k).take (8 * (j + 1))) j cont := by
  by_cases hfull : 8 * (j + 1) ≤ (sourceBits s k).length
  · have hfits' : Fits s (8 * j + 7) := by rwa [Fits, show (8 * j + 7) / 8 = 8 * j / 8 by omega]
    obtain ⟨i, hi, b, rest, hbit, hpack⟩ := h.packing_bit hm hk (n := 8 * j + 7) (by omega) hplain hfits'
    have hlen : ((sourceBits s k).take (8 * j + 7)).length = 8 * j + 7 := List.length_take_of_le (by omega)
    have hemit := hpack.emits_of_fills (by omega)
    rw [← hbit, hlen, show (8 * j + 7) / 8 = j by omega] at hemit
    exact ⟨i + (8 * j + 7), by omega, _, _, hemit⟩
  · obtain ⟨rfl, hj⟩ := hbyte.resolve_left hfull
    have hfits' : Fits s (sourceBits s s.params.srcLen.toNat).length := by
      rwa [Fits, show (sourceBits s s.params.srcLen.toNat).length / 8 = 8 * j / 8 by omega]
    have hemit := (h.packing_source hm hk hplain hfits').emits_of_pads (by omega)
    rw [show (sourceBits s s.params.srcLen.toNat).length / 8 = j by omega] at hemit
    rw [List.take_of_length_le (by omega)]
    exact ⟨_, le_rfl, _, _, hemit⟩

/-! ## The command -/

/-- R119: ENCODE passes its checks. -/
theorem EncodeIssued.firstFailure_eq_none (h : EncodeIssued s) :
    firstFailure .encode (accept (encode .encode) (.start .encode) s) = none := by
  have hvalid : codesAfterAccept (encode .encode) s.treeValid s.codesValid = true := by
    simp [encode, codesAfterAccept, clearsTables, h.valid]
  have hsrc : rangeOK (latch s.params).srcAddr.toNat (sourceLen .encode (latch s.params)) = true := h.srcRange
  have hdst : rangeOK (latch s.params).dstAddr.toNat (destLen .encode (latch s.params)) = true := h.dstRange
  have hapart : overlap (latch s.params).srcAddr.toNat (sourceLen .encode (latch s.params))
      (latch s.params).dstAddr.toNat (destLen .encode (latch s.params)) = false := h.apart
  simp [firstFailure, checkState, capacityOK, hvalid, hsrc, hdst, hapart]

/-- R113, R121: ENCODE answers the state its loop ends in, which it comes to within its bound. -/
theorem EncodeIssued.exec_eq (h : EncodeIssued s) {k n : Nat} {t : State} (hk : k ≤ s.params.srcLen.toNat)
    (hn : n ≤ k + (sourceBits s k).length) (hend : engineStep (runEngine n (encodeBegun s)) = some t)
    (hidle : t.run = .idle) : exec .encode s = .next t := by
  obtain ⟨hhigh, hrun, hu⟩ := h.ready
  have hstart : engineStep (accept (encode .encode) (.start .encode) s) = some (encodeBegun s) := by
    rw [engineStep_start rfl, h.firstFailure_eq_none]
    rfl
  have hsteps : n ≤ s.params.srcLen.toNat * (longestCode s + 1) :=
    hn.trans ((add_length_sourceBits_le s k).trans (Nat.mul_le_mul_right _ hk))
  obtain ⟨r, hr⟩ := Nat.exists_eq_add_of_le hsteps
  have hbound : stepBound (accept (encode .encode) (.start .encode) s) = n + (r + 1) + 1 := by
    change s.params.srcLen.toNat * (longestCode s + 1) + 2 = _
    omega
  rw [exec_idle .encode hhigh hrun, settle_undisturbed (s := accept ..) hu, hbound, runEngine_succ_of_step _ hstart,
    runEngine_add, runEngine_succ_of_step _ hend, runEngine_idle _ hidle]

end

/-- R171, R172, R173: ENCODE completes after the last byte, padded where it is partial. -/
theorem EncodeIssued.exec_completes {s : State} (h : EncodeIssued s) (hm : memWf s.mem) {bits : List Bool}
    (hbits : sourceBits s s.params.srcLen.toNat = bits)
    (hplain : PlainSource s s.params.srcAddr.toNat s.params.srcLen.toNat)
    (hsize : (bits.length + 7) / 8 ≤ s.params.dstCap.toNat)
    (hdest : PlainDest s s.params.dstAddr.toNat ((bits.length + 7) / 8)) :
    ∃ v, exec .encode s = .next (complete v) ∧ Encoding s v ∧
      Packed s bits ((bits.length + 7) / 8) ((bits.length + 7) / 8) v := by
  have hfits : Fits s bits.length := Fits.mono (n := bits.length + 7) ⟨hsize, hdest⟩ (Nat.le_add_right ..)
  have hpack := h.packing_source hm le_rfl hplain (hbits ▸ hfits)
  rw [hbits] at hpack
  by_cases hwhole : bits.length % 8 = 0
  · rw [show (bits.length + 7) / 8 = bits.length / 8 by omega]
    exact ⟨_, h.exec_eq le_rfl (hbits ▸ le_rfl) (hpack.completes hwhole) rfl, hpack.toEncoding, hpack.toPacked⟩
  · rw [show (bits.length + 7) / 8 = bits.length / 8 + 1 by omega] at hsize hdest ⊢
    obtain ⟨v, hstep, hframe, hpacked⟩ :=
      (hpack.emits_of_pads hwhole).plain hsize (hdest _ (Nat.lt_succ_self _))
    exact ⟨v, h.exec_eq le_rfl (hbits ▸ le_rfl) hstep rfl, hframe, hpacked⟩

/-- R175: the read of source byte `k` fails, and the partial byte is dropped. -/
theorem EncodeIssued.exec_read_fails {s : State} (h : EncodeIssued s) (hm : memWf s.mem) {k : Nat}
    (hk : k < s.params.srcLen.toNat) (hplain : PlainSource s s.params.srcAddr.toNat k)
    (hfits : Fits s (sourceBits s k).length) (hfail : failsRead s (s.params.srcAddr.toNat + k)) :
    ∃ v, exec .encode s = .next (raiseError .busError (BitVec.ofNat 32 (s.params.srcAddr.toNat + k)) v) ∧
      v.racedDst = [] ∧ Packed s (sourceBits s k) ((sourceBits s k).length / 8) ((sourceBits s k).length / 8) v := by
  have hpack := h.packing_source hm hk.le hplain hfits
  obtain ⟨acc, -, hstep⟩ := hpack.reads hk
  rw [respondRead_fails _ (by rwa [failsRead, hpack.platform])] at hstep
  exact ⟨_, h.exec_eq hk.le le_rfl hstep rfl, hpack.racedDst, { hpack.toPacked with }⟩

/-- R175: the write of output byte `j` fails. -/
theorem EncodeIssued.exec_write_fails {s : State} (h : EncodeIssued s) (hm : memWf s.mem) {k j : Nat}
    (hk : k ≤ s.params.srcLen.toNat) (hplain : PlainSource s s.params.srcAddr.toNat k)
    (hbyte : 8 * (j + 1) ≤ (sourceBits s k).length ∨
      (k = s.params.srcLen.toNat ∧ j < ((sourceBits s k).length + 7) / 8))
    (hj : j < s.params.dstCap.toNat) (hdest : PlainDest s s.params.dstAddr.toNat j)
    (hfail : failsWrite s (s.params.dstAddr.toNat + j)) :
    ∃ v, exec .encode s = .next (raiseError .busError (BitVec.ofNat 32 (s.params.dstAddr.toNat + j)) v) ∧
      v.racedDst = [] ∧ Packed s ((sourceBits s k).take (8 * (j + 1))) j (j + 1) v := by
  have hfits : Fits s (8 * j) := fits_bytes hj.le hdest
  obtain ⟨n, hn, w, cont, hemit⟩ := h.exists_emits hm hk hplain hfits hbyte
  obtain ⟨v, hstep, hraced, hpacked⟩ := hemit.fails hj hfail
  exact ⟨v, h.exec_eq hk hn hstep rfl, hraced, hpacked⟩

/-! ## The statements -/

/-- Settles O30: the loop comes to the state that has packed the whole stream, and completion keeps its bytes. -/
theorem encodePacksCodes : Obligations.EncodePacksCodes := by
  intro s src len dst cap bits size hm hready hvalid hsrc hdst hapart hplain hdest hsize
  obtain ⟨v, hexec, hframe, hpacked⟩ :=
    EncodeIssued.exec_completes ⟨hready, hvalid, hsrc, hdst, hapart⟩ hm rfl hplain hsize hdest
  have hended := hpacked.complete hframe.racedDst
  exact ⟨_, hexec, hframe.complete_endedWell, hframe.lastcmd, hended.outBits, hended.outCount, hended.written,
    hended.untouched⟩

/-- Settles O31: without a source byte the loop completes at once, in the state it begins in. -/
theorem encodeOfEmptyBuffer : Obligations.EncodeOfEmptyBuffer := by
  intro s hready hvalid hempty hdst
  have hlen : s.params.srcLen.toNat = 0 := by rw [hempty]; rfl
  have hissued : EncodeIssued s :=
    ⟨hready, hvalid, by rw [hlen]; exact rangeOK_empty _, hdst, by simp [overlap, hlen]⟩
  have hend : engineStep (encodeBegun s) = some (complete (encodeBegun s)) := by
    simp [engineStep, move, moveEncode, encodeBegun, enterEncode, accept, latch, hlen]
  exact ⟨_, hissued.exec_eq (n := 0) le_rfl (Nat.zero_le _) hend rfl, ⟨rfl, rfl, rfl, rfl, rfl⟩, rfl, rfl, rfl,
    fun _ => rfl⟩

/-- Settles O32: the loop comes to the byte that has no room, with the bytes before it written. -/
theorem encodeOverflowsAtCapacity : Obligations.EncodeOverflowsAtCapacity := by
  intro s k src len dst cap bits hm hready hvalid hsrc hdst hapart hk hplain hdest hbyte
  have hissued : EncodeIssued s := ⟨hready, hvalid, hsrc, hdst, hapart⟩
  have hfits : Fits s (8 * cap) := fits_bytes le_rfl hdest
  obtain ⟨n, hn, w, cont, hemit⟩ := hissued.exists_emits hm hk hplain hfits hbyte
  have hpacked := hemit.packed.raiseError hemit.frame.racedDst .dstOverflow s.params.dstCap
  have hbits := hpacked.outBits
  rw [List.length_take, Nat.min_comm] at hbits
  exact ⟨_, hissued.exec_eq hk hn (hemit.overflows le_rfl) rfl, ⟨rfl, rfl, rfl, rfl, rfl⟩,
    BitVec.eq_of_toNat_eq hpacked.outCount, hbits, hpacked.written_of_take (by omega), hpacked.untouched⟩

/-- Settles O33: the loop comes to the access that fails, and the error keeps what was packed before it. -/
theorem encodeStopsAtBusError : Obligations.EncodeStopsAtBusError := by
  intro s src len dst cap hm hready hvalid hsrc hdst hapart
  have hissued : EncodeIssued s := ⟨hready, hvalid, hsrc, hdst, hapart⟩
  constructor
  · intro k hk bits hplain hfail hcap hdest
    obtain ⟨v, hexec, hraced, hpacked⟩ := hissued.exec_read_fails hm hk hplain ⟨hcap, hdest⟩ hfail
    have hended := hpacked.raiseError hraced .busError (BitVec.ofNat 32 (src + k))
    exact ⟨_, hexec, ⟨rfl, rfl, rfl, rfl, rfl⟩, hended.outBits, hended.outCount, hended.written, hended.untouched⟩
  · intro j k hk bits hplain hbyte hj hdest hfail
    obtain ⟨v, hexec, hraced, hpacked⟩ := hissued.exec_write_fails hm hk hplain hbyte hj hdest hfail
    have hended := hpacked.raiseError hraced .busError (BitVec.ofNat 32 (dst + j))
    have hbits := hended.outBits
    rw [List.length_take, Nat.min_comm] at hbits
    exact ⟨_, hexec, ⟨rfl, rfl, rfl, rfl, rfl⟩, hended.outCount, hbits, hended.written_of_take (by omega),
      hended.untouched⟩

end Sys2Proof.Machine
end

section
/-! PROOF. DECODE (spec/45_decoder.md R190 to R201): what the engine has decoded after some bits of the input, one
engine step per bit consumed and two per symbol, the ends of the walk, and the round trip with ENCODE. -/

namespace Sys2Proof.Machine

/-! ## The input -/

/-- R190: IN_BITS as DECODE latches it, the number of bits of the input. -/
abbrev inputBits (s : State) : Nat := (s.params.inBitsHi ++ s.params.inBitsLo).toNat

/-- R192: the input of `s` begins with `bits`, whose bytes are read plainly. -/
structure Feeds (s : State) (bits : List Bool) : Prop where
  bit : ∀ k < bits.length, bits[k]? = some (memBit s.mem s.params.srcAddr.toNat k)
  within : bits.length ≤ inputBits s
  plain : PlainSource s s.params.srcAddr.toNat (bytesOfBits bits.length)

theorem bytesOfBits_mono {m n : Nat} (h : m ≤ n) : bytesOfBits m ≤ bytesOfBits n :=
  Nat.div_le_div_right (Nat.add_le_add_right h 7)

theorem bytesOfBits_succ (n : Nat) : bytesOfBits (n + 1) = n / 8 + 1 := Nat.add_div_right n (Nat.zero_lt_succ 7)

theorem bytesOfBits_of_whole {n : Nat} (h : n % 8 = 0) : bytesOfBits n = n / 8 := by
  unfold bytesOfBits
  omega

theorem bytesOfBits_of_partial {n : Nat} (h : n % 8 ≠ 0) : bytesOfBits n = n / 8 + 1 := by
  unfold bytesOfBits
  omega

theorem div_lt_bytesOfBits {k n : Nat} (h : k < n) : k / 8 < bytesOfBits n := by
  unfold bytesOfBits
  omega

/-- R121: writing fewer symbols than asked for, and one more walk, stays inside the bound on the steps. -/
theorem Feeds.steps_le {s : State} {bits : List Bool} {k : Nat} (h : Feeds s bits) (hk : k < s.params.symCount.toNat) :
    bits.length + 2 * k + 1 ≤ inputBits s + 2 * s.params.symCount.toNat := by
  have hwithin := h.within
  omega

theorem Feeds.of_append {s : State} {bits rest : List Bool} (h : Feeds s (bits ++ rest)) : Feeds s bits := by
  have hlen : bits.length ≤ (bits ++ rest).length := by simp
  refine ⟨fun k hk => ?_, hlen.trans h.within, fun k hk => h.plain k (hk.trans_le (bytesOfBits_mono hlen))⟩
  rw [← h.bit k (hk.trans_le hlen), List.getElem?_append_left hk]

theorem Feeds.next_bit {s : State} {bits rest : List Bool} {b : Bool} (h : Feeds s (bits ++ b :: rest)) :
    memBit s.mem s.params.srcAddr.toNat bits.length = b := by
  have hbit := h.bit bits.length (by simp)
  simpa using hbit.symm

/-- R67, R192: the engine has read the first `n` bytes of the input of `s`, in order. -/
def HasRead (s : State) (n : Nat) (u : State) : Prop :=
  ∃ made, u.accesses = made ++ s.accesses ∧
    readAddrs made.reverse = (List.range n).map (fun k => s.params.srcAddr.toNat + k)

theorem HasRead.read {s u : State} {n : Nat} (h : HasRead s n u) :
    HasRead s (n + 1) (logged (.read (s.params.srcAddr.toNat + n)) u) := by
  obtain ⟨made, hmade, hreads⟩ := h
  refine ⟨.read (s.params.srcAddr.toNat + n) :: made, by simp [hmade], ?_⟩
  simp only [readAddrs, List.reverse_cons, List.filterMap_append] at hreads ⊢
  simp [hreads, List.range_succ]

theorem HasRead.write {s u : State} {n : Nat} (h : HasRead s n u) (a : Nat) (v : Byte) :
    HasRead s n (logged (.write a v) u) := by
  obtain ⟨made, hmade, hreads⟩ := h
  refine ⟨.write a v :: made, by simp [hmade], ?_⟩
  simp only [readAddrs, List.reverse_cons, List.filterMap_append] at hreads ⊢
  simp [hreads]

/-! ## What has been decoded -/

/-- R190, R194: `u` counts the bits of `bits` and the symbols of `leaves`, has the bytes of those symbols at the
destination of `s`, and holds every byte of the memory of `s` but the first `n` there. -/
structure Decoded (s : State) (leaves : List Nat) (bits : List Bool) (n : Nat) (u : State) : Prop where
  outBits : u.outBits.toNat = bits.length
  outCount : u.outCount.toNat = leaves.length
  sorted : u.mem.Pairwise (fun c d => c.1 < d.1)
  written : ∀ k < leaves.length, memRead u.mem (s.params.dstAddr.toNat + k) = symByte ((leaves[k]?).getD 0)
  untouched : ∀ x, inRange x s.params.dstAddr.toNat n = false → memRead u.mem x = memRead s.mem x

section
variable {s u : State} {leaves : List Nat} {bits : List Bool}

/-- R190: one more bit is counted. -/
theorem Decoded.consume {n : Nat} (h : Decoded s leaves bits n u) (hmore : bits.length < inputBits s) (b : Bool)
    (m : Nat) (cur : Byte) : Decoded s leaves (bits ++ [b]) n (consumeBit m u cur) where
  outBits := by
    have hsum : u.outBits.toNat + (1 : Quad).toNat < 2 ^ 64 := by
      rw [h.outBits]
      exact (Nat.succ_le_of_lt hmore).trans_lt (s.params.inBitsHi ++ s.params.inBitsLo).isLt
    rw [List.length_append, ← h.outBits]
    exact BitVec.toNat_add_of_lt hsum
  outCount := h.outCount
  sorted := h.sorted
  written := h.written
  untouched := h.untouched

/-- R65: a write at the next byte of the destination leaves the symbols before it and every byte outside. -/
theorem Decoded.overwrite (h : Decoded s leaves bits leaves.length u) (v : Byte) (x : Access) :
    Decoded s leaves bits (leaves.length + 1) (stored (s.params.dstAddr.toNat + leaves.length) v (logged x u)) where
  outBits := h.outBits
  outCount := h.outCount
  sorted := memWrite_sorted _ _ _ h.sorted
  written k hk := by
    rw [← h.written k hk]
    exact memRead_memWrite_other _ _ _ _ (by omega) h.sorted
  untouched y hy := by
    simp only [inRange, decide_eq_false_iff_not] at hy
    rw [← h.untouched y (by simp only [inRange, decide_eq_false_iff_not]; omega)]
    exact memRead_memWrite_other _ _ _ _ (by omega) h.sorted

/-- R194: the byte of leaf `i` is written and counted. -/
theorem Decoded.emit (h : Decoded s leaves bits leaves.length u) (hroom : leaves.length < s.params.symCount.toNat)
    (i : Nat) (x : Access) (cur : Byte) :
    Decoded s (leaves ++ [i]) bits (leaves ++ [i]).length
      (symbolDone cur (stored (s.params.dstAddr.toNat + leaves.length) (symByte i) (logged x u))) := by
  have hover := h.overwrite (symByte i) x
  have hlen : (leaves ++ [i]).length = leaves.length + 1 := List.length_append
  refine ⟨hover.outBits, ?_, hover.sorted, fun k hk => ?_, hlen ▸ hover.untouched⟩
  · have hsum : u.outCount.toNat + (1 : Word).toNat < 2 ^ 32 := by
      rw [h.outCount]
      exact (Nat.succ_le_of_lt hroom).trans_lt s.params.symCount.isLt
    rw [hlen, ← h.outCount]
    exact BitVec.toNat_add_of_lt hsum
  · rcases Nat.lt_or_eq_of_le (Nat.le_of_lt_succ (hk.trans_eq hlen)) with hlt | rfl
    · rw [List.getElem?_append_left hlt]
      exact hover.written k hlt
    · rw [List.getElem?_concat_length]
      exact memRead_memWrite_same _ _ _ h.sorted

theorem Decoded.mono {n n' : Nat} (h : Decoded s leaves bits n u) (hn : n ≤ n') : Decoded s leaves bits n' u :=
  { h with
    untouched := fun x hx => h.untouched x (by
      simp only [inRange, decide_eq_false_iff_not] at hx ⊢
      omega) }

/-- R114, R214: the end of a command without raced bytes keeps what was decoded. -/
theorem Decoded.endCommand {n : Nat} (h : Decoded s leaves bits n u) (hraced : u.racedDst = []) :
    Decoded s leaves bits n (endCommand u) := by
  have hmem : (Machine.endCommand u).mem = u.mem := by simp [hraced, scrambled]
  exact ⟨h.outBits, h.outCount, hmem ▸ h.sorted, hmem ▸ h.written, hmem ▸ h.untouched⟩

theorem Decoded.complete {n : Nat} (h : Decoded s leaves bits n u) (hraced : u.racedDst = []) :
    Decoded s leaves bits n (complete u) := { h.endCommand hraced with }

theorem Decoded.raiseError {n : Nat} (h : Decoded s leaves bits n u) (hraced : u.racedDst = []) (e : ErrorCode)
    (info : Word) : Decoded s leaves bits n (raiseError e info u) := { h.endCommand hraced with }

end

/-! ## The states of the loop -/

/-- R119: a DECODE that passes its checks, left alone by the host. -/
structure DecodeIssued (s : State) : Prop where
  ready : Ready s
  valid : s.treeValid = true
  srcRange : rangeOK s.params.srcAddr.toNat (bytesOfBits (inputBits s)) = true
  dstRange : rangeOK s.params.dstAddr.toNat s.params.dstCap.toNat = true
  apart : overlap s.params.srcAddr.toNat (bytesOfBits (inputBits s)) s.params.dstAddr.toNat s.params.dstCap.toNat =
    false
  room : s.params.symCount.toNat ≤ s.params.dstCap.toNat

theorem DecodeIssued.host_waits {s : State} (h : DecodeIssued s) : undisturbed s = true := h.ready.2.2

/-- R190: DECODE, issued in `s`, at the beginning of its loop. -/
def decodeBegun (s : State) : State := enterDecode (accept (encode .decode) (.start .decode) s)

/-- R122: the fields of `u` that a running DECODE does not write, with those it writes blanked. -/
def decodeFrame (u : State) : State :=
  { u with outCount := 0, outBits := 0, run := .idle, mem := [], hostStale := [], unseen := [], accesses := [] }

/-- R190, R191: DECODE, issued in `s`, once it has consumed `bits` and written the symbols of `leaves`, between two
symbols or at a node of the walk; the current byte is the one the next bit is in, unless that bit is the byte's
first. -/
structure Walking (s : State) (leaves : List Nat) (bits : List Bool) (walk : Option Nat) (u : State) : Prop
    extends Decoded s leaves bits leaves.length u where
  frame : decodeFrame u = decodeFrame (decodeBegun s)
  reads : HasRead s (bytesOfBits bits.length) u
  run : ∃ cur, (bits.length % 8 ≠ 0 → cur = memRead s.mem (s.params.srcAddr.toNat + bits.length / 8)) ∧
    u.run = .decode walk cur
  count_le : leaves.length ≤ s.params.symCount.toNat

theorem walking_decodeBegun {s : State} (hm : memWf s.mem) : Walking s [] [] none (decodeBegun s) where
  outBits := rfl
  outCount := rfl
  sorted := hm.1
  written k hk := absurd hk (Nat.not_lt_zero k)
  untouched _ _ := rfl
  frame := rfl
  reads := ⟨[], rfl, rfl⟩
  run := ⟨0, fun h => absurd rfl h, rfl⟩
  count_le := Nat.zero_le _

section
variable {s u : State} {leaves : List Nat} {bits : List Bool} {walk : Option Nat}

theorem Walking.lat (h : Walking s leaves bits walk u) : u.lat = latch s.params :=
  (congrArg State.lat h.frame :)

theorem Walking.platform (h : Walking s leaves bits walk u) : u.platform = s.platform :=
  (congrArg State.platform h.frame :)

theorem Walking.nodes (h : Walking s leaves bits walk u) : u.nodes = s.nodes :=
  (congrArg State.nodes h.frame :)

theorem Walking.inputs (h : Walking s leaves bits walk u) : u.inputs = s.inputs :=
  (congrArg State.inputs h.frame :)

theorem Walking.racedSrc (h : Walking s leaves bits walk u) : u.racedSrc = [] :=
  (congrArg State.racedSrc h.frame :)

theorem Walking.racedDst (h : Walking s leaves bits walk u) : u.racedDst = [] :=
  (congrArg State.racedDst h.frame :)

theorem Walking.unclean (h : Walking s leaves bits walk u) : u.unclean = s.hostDirty :=
  (congrArg State.unclean h.frame :)

theorem Walking.lastcmd (h : Walking s leaves bits walk u) : u.lastcmd = 5 :=
  (congrArg State.lastcmd h.frame :)

/-- R114: DECODE completes without error. -/
theorem Walking.complete_endedWell (h : Walking s leaves bits walk u) : EndedWell (complete u) :=
  ⟨rfl, rfl, congrArg State.err h.frame, congrArg State.errcode h.frame, congrArg State.errInfo h.frame⟩

/-- R118: no symbol is written over an input byte. -/
theorem Walking.memRead_input (h : Walking s leaves bits walk u) (hissued : DecodeIssued s) {j : Nat}
    (hj : j < bytesOfBits (inputBits s)) :
    memRead u.mem (s.params.srcAddr.toNat + j) = memRead s.mem (s.params.srcAddr.toNat + j) := by
  refine h.untouched _ ?_
  have hapart := hissued.apart
  have hcap := h.count_le.trans hissued.room
  simp only [overlap, inRange, decide_eq_false_iff_not] at hapart ⊢
  omega

/-! ## Between two symbols -/

/-- R191: the next symbol starts at the root. -/
theorem Walking.start_step (h : Walking s leaves bits none u) (hmore : leaves.length < s.params.symCount.toNat) :
    ∃ v, engineStep u = some v ∧ Walking s leaves bits (some Config.root) v := by
  obtain ⟨cur, hcur, hrun⟩ := h.run
  have hstep : engineStep u = some { u with run := .decode (some Config.root) cur } := by
    simp [engineStep, move, moveDecode, hrun, h.lat, latch, h.outCount, hmore]
  exact ⟨_, hstep, { h with frame := h.frame, reads := h.reads, run := ⟨cur, hcur, rfl⟩ }⟩

/-- R193: DECODE completes once SYM_COUNT symbols are written. -/
theorem Walking.completes (h : Walking s leaves bits none u) (hall : leaves.length = s.params.symCount.toNat) :
    engineStep u = some (complete u) := by
  obtain ⟨cur, -, hrun⟩ := h.run
  simp [engineStep, move, moveDecode, hrun, h.lat, latch, h.outCount, hall]

/-! ## At an internal node -/

variable {n : Nat}

/-- R196: no bit is left. -/
theorem Walking.truncates (h : Walking s leaves bits (some n) u) (hn : 256 ≤ n) (hend : bits.length = inputBits s) :
    engineStep u = some (raiseError .truncated 0 u) := by
  obtain ⟨cur, -, hrun⟩ := h.run
  have heq : u.outBits = u.lat.inBits := by
    rw [h.lat]
    exact BitVec.eq_of_toNat_eq (h.outBits.trans hend)
  simp [engineStep, move, moveDecode, hrun, hn, heq]

theorem Walking.outBits_ne_inBits (h : Walking s leaves bits walk u) (hmore : bits.length < inputBits s) :
    u.outBits ≠ u.lat.inBits := fun heq => by
  rw [h.lat] at heq
  exact hmore.ne (h.outBits.symm.trans (congrArg BitVec.toNat heq))

/-- R192: the first bit of a byte is read with its byte. -/
theorem Walking.reads_byte (h : Walking s leaves bits (some n) u) (hn : 256 ≤ n) (hmore : bits.length < inputBits s)
    (hfirst : bits.length % 8 = 0) :
    engineStep u = respondRead u (s.params.srcAddr.toNat + bits.length / 8) (consumeBit n) := by
  obtain ⟨cur, -, hrun⟩ := h.run
  have hsrc : u.lat.srcAddr = s.params.srcAddr := congrArg Latched.srcAddr h.lat
  simp [engineStep, move, moveDecode, hrun, hn, h.outBits_ne_inBits hmore, hsrc, h.outBits, hfirst]

/-- R192: a later bit of a byte is taken from the current byte. -/
theorem Walking.takes_bit (h : Walking s leaves bits (some n) u) (hn : 256 ≤ n) (hmore : bits.length < inputBits s)
    (hlater : bits.length % 8 ≠ 0) :
    engineStep u = some (consumeBit n u (memRead s.mem (s.params.srcAddr.toNat + bits.length / 8))) := by
  obtain ⟨cur, hcur, hrun⟩ := h.run
  obtain rfl := hcur hlater
  simp [engineStep, move, moveDecode, hrun, hn, h.outBits_ne_inBits hmore, h.outBits, hlater]

/-- R190, R191: the next bit of its byte leads to a child. -/
theorem Walking.consume (h : Walking s leaves bits (some n) u) {w : State} (hw : decodeFrame w = decodeFrame u)
    (hdecoded : Decoded s leaves bits leaves.length w) (hmore : bits.length < inputBits s)
    (hreads : HasRead s (bytesOfBits (bits.length + 1)) w) {b : Bool}
    (hb : memBit s.mem s.params.srcAddr.toNat bits.length = b) :
    Walking s leaves (bits ++ [b]) (some (childOf s.nodes n b))
      (consumeBit n w (memRead s.mem (s.params.srcAddr.toNat + bits.length / 8))) := by
  have hlen : (bits ++ [b]).length = bits.length + 1 := List.length_append
  have hnodes : w.nodes = s.nodes := (congrArg State.nodes hw).trans h.nodes
  have hbit : streamBit (memRead s.mem (s.params.srcAddr.toNat + bits.length / 8)) bits.length = b := hb
  refine { hdecoded.consume hmore b n _ with
    frame := hw.trans h.frame
    reads := hlen ▸ hreads
    run := ⟨_, fun hlater => ?_, by rw [consumeBit_run, hdecoded.outBits, hbit, hnodes]⟩
    count_le := h.count_le }
  rw [hlen] at hlater ⊢
  rw [show (bits.length + 1) / 8 = bits.length / 8 by omega]

/-- R191, R192: at an internal node one bit is consumed, read with its byte where it is the byte's first. -/
theorem Walking.bit_step (h : Walking s leaves bits (some n) u) (hissued : DecodeIssued s) (hn : 256 ≤ n) {b : Bool}
    {rest : List Bool} (hfeeds : Feeds s (bits ++ b :: rest)) :
    ∃ v, engineStep u = some v ∧ Walking s leaves (bits ++ [b]) (some (childOf s.nodes n b)) v := by
  have hlen : bits.length < (bits ++ b :: rest).length := by simp
  have hmore : bits.length < inputBits s := hlen.trans_le hfeeds.within
  by_cases hfirst : bits.length % 8 = 0
  · obtain ⟨hkind, hclean⟩ := hfeeds.plain _ (div_lt_bytesOfBits hlen)
    have hahead : storeAhead u u.inputs (s.params.srcAddr.toNat + bits.length / 8) = false := by
      rw [h.inputs]
      exact storeAhead_of_undisturbed hissued.host_waits u _
    have hstep := h.reads_byte hn hmore hfirst
    rw [respondRead_plain (consumeBit n) (by rwa [h.platform]) (by simp [h.racedSrc]) hahead
      (by rwa [h.platform, h.unclean]), h.memRead_input hissued (div_lt_bytesOfBits hmore)] at hstep
    have hreads := h.reads.read
    rw [bytesOfBits_of_whole hfirst, ← bytesOfBits_succ] at hreads
    exact ⟨_, hstep, h.consume (w := logged _ u) rfl { h.toDecoded with } hmore hreads hfeeds.next_bit⟩
  · have hreads := h.reads
    rw [bytesOfBits_of_partial hfirst, ← bytesOfBits_succ] at hreads
    exact ⟨_, h.takes_bit hn hmore hfirst, h.consume rfl h.toDecoded hmore hreads hfeeds.next_bit⟩

/-- R191: bits that lead through internal nodes take one step each. -/
theorem Walking.walk_bits (h : Walking s leaves bits (some n) u) (hissued : DecodeIssued s) {path : List Bool}
    (hint : ∀ k < path.length, 256 ≤ walkDown s.nodes n (path.take k)) (hfeeds : Feeds s (bits ++ path)) :
    Walking s leaves (bits ++ path) (some (walkDown s.nodes n path)) (runEngine path.length u) := by
  induction path generalizing bits n u with
  | nil => simpa [runEngine, walkDown] using h
  | cons b path ih =>
    obtain ⟨v, hstep, hv⟩ := h.bit_step hissued (hint 0 (Nat.zero_lt_succ _)) hfeeds
    rw [List.append_cons] at hfeeds ⊢
    rw [List.length_cons, runEngine_succ_of_step _ hstep]
    exact ih hv (fun k hk => hint (k + 1) (Nat.succ_lt_succ hk)) hfeeds

/-- R201: the read of the byte the next bit is in fails. -/
theorem Walking.read_fails (h : Walking s leaves bits (some n) u) (hn : 256 ≤ n) (hmore : bits.length < inputBits s)
    (hfirst : bits.length % 8 = 0) (hfail : failsRead s (s.params.srcAddr.toNat + bits.length / 8)) :
    ∃ v, engineStep u = some (raiseError .busError (BitVec.ofNat 32 (s.params.srcAddr.toNat + bits.length / 8)) v) ∧
      v.racedDst = [] ∧ Decoded s leaves bits leaves.length v := by
  have hfail' : failsRead u (s.params.srcAddr.toNat + bits.length / 8) := by rwa [failsRead, h.platform]
  exact ⟨_, (h.reads_byte hn hmore hfirst).trans (respondRead_fails _ hfail'), h.racedDst, { h.toDecoded with }⟩

/-! ## At a leaf -/

/-- R194: the byte of a leaf is written at the offset OUT_COUNT. -/
theorem Walking.writes_symbol (h : Walking s leaves bits (some n) u) (hn : n < 256) :
    ∃ cur, (bits.length % 8 ≠ 0 → cur = memRead s.mem (s.params.srcAddr.toNat + bits.length / 8)) ∧
      engineStep u = respondWrite u (s.params.dstAddr.toNat + leaves.length) (symByte n) (symbolDone cur) := by
  obtain ⟨cur, hcur, hrun⟩ := h.run
  have hdst : u.lat.dstAddr = s.params.dstAddr := congrArg Latched.dstAddr h.lat
  exact ⟨cur, hcur, by simp [engineStep, move, moveDecode, hrun, Nat.not_le.mpr hn, hdst, h.outCount]⟩

/-- R194: a symbol that is written plainly is counted. -/
theorem Walking.symbol_step (h : Walking s leaves bits (some n) u) (hn : n < 256)
    (hmore : leaves.length < s.params.symCount.toNat) (hplain : plainWrite s (s.params.dstAddr.toNat + leaves.length)) :
    ∃ v, engineStep u = some v ∧ Walking s (leaves ++ [n]) bits none v := by
  obtain ⟨cur, hcur, hstep⟩ := h.writes_symbol hn
  have hplain' : plainWrite u (s.params.dstAddr.toNat + leaves.length) := by rwa [plainWrite, h.platform]
  refine ⟨_, hstep.trans (respondWrite_plain _ _ hplain'), { h.emit hmore n _ cur with
    frame := h.frame
    reads := h.reads.write _ _
    run := ⟨cur, hcur, rfl⟩
    count_le := ?_ }⟩
  rw [List.length_append]
  exact hmore

/-- R201: the write of a symbol fails. -/
theorem Walking.write_fails (h : Walking s leaves bits (some n) u) (hn : n < 256)
    (hfail : failsWrite s (s.params.dstAddr.toNat + leaves.length)) :
    ∃ v, engineStep u = some (raiseError .busError (BitVec.ofNat 32 (s.params.dstAddr.toNat + leaves.length)) v) ∧
      v.racedDst = [] ∧ Decoded s leaves bits (leaves.length + 1) v := by
  obtain ⟨cur, -, hstep⟩ := h.writes_symbol hn
  rw [hstep, respondWrite, h.platform]
  rcases hfail with hk | hk <;> simp only [hk]
  · exact ⟨_, rfl, h.racedDst, { h.toDecoded.overwrite _ _ with }⟩
  · exact ⟨_, rfl, h.racedDst, { h.toDecoded.mono leaves.length.le_succ with }⟩

/-! ## Whole symbols -/

/-- R191: from between two symbols, bits that lead through internal nodes take one step each after one to the root. -/
theorem Walking.descend (h : Walking s leaves bits none u) (hissued : DecodeIssued s)
    (hmore : leaves.length < s.params.symCount.toNat) {path : List Bool}
    (hint : ∀ k < path.length, 256 ≤ walkDown s.nodes Config.root (path.take k)) (hfeeds : Feeds s (bits ++ path)) :
    Walking s leaves (bits ++ path) (some (walkDown s.nodes Config.root path)) (runEngine (path.length + 1) u) := by
  obtain ⟨v, hstep, hv⟩ := h.start_step hmore
  rw [runEngine_succ_of_step _ hstep]
  exact hv.walk_bits hissued hint hfeeds

/-- R191, R194: a symbol takes a step for each bit of its path and two more. -/
theorem Walking.symbol (h : Walking s leaves bits none u) (hissued : DecodeIssued s) {path : List Bool} (hn : n < 256)
    (hpath : PathTo s.nodes n path) (hmore : leaves.length < s.params.symCount.toNat) (hfeeds : Feeds s (bits ++ path))
    (hplain : plainWrite s (s.params.dstAddr.toNat + leaves.length)) :
    Walking s (leaves ++ [n]) (bits ++ path) none (runEngine (path.length + 2) u) := by
  obtain ⟨rfl, hint⟩ := hpath
  have hdown := h.descend hissued hmore hint hfeeds
  obtain ⟨v, hstep, hv⟩ := hdown.symbol_step hn hmore hplain
  rwa [runEngine_add (path.length + 1) 1, runEngine_succ_of_step _ hstep]

/-- R191, R194: the symbols whose paths come next are written one after another. -/
theorem Walking.symbols (h : Walking s leaves bits none u) (hissued : DecodeIssued s) {more : List Nat}
    {paths : List (List Bool)} (hpaths : List.Forall₂ (fun x p => x < 256 ∧ PathTo s.nodes x p) more paths)
    (hcount : (leaves ++ more).length ≤ s.params.symCount.toNat) (hfeeds : Feeds s (bits ++ paths.flatten))
    (hdest : PlainDest s s.params.dstAddr.toNat (leaves ++ more).length) :
    Walking s (leaves ++ more) (bits ++ paths.flatten) none
      (runEngine (paths.flatten.length + 2 * more.length) u) := by
  induction hpaths generalizing leaves bits u with
  | nil => simpa [runEngine] using h
  | @cons x path more paths hx _ ih =>
    obtain ⟨hleaf, hpath⟩ := hx
    rw [List.flatten_cons, ← List.append_assoc] at hfeeds ⊢
    rw [List.append_cons] at hcount hdest ⊢
    have hmore : leaves.length < (leaves ++ [x] ++ more).length := by simp
    have hnext := h.symbol hissued hleaf hpath (hmore.trans_le hcount) hfeeds.of_append (hdest _ hmore)
    rw [show (path ++ paths.flatten).length + 2 * (x :: more).length =
      path.length + 2 + (paths.flatten.length + 2 * more.length) by simp; omega, runEngine_add]
    exact ih hnext hcount hfeeds hdest

end

/-! ## The command -/

/-- R119: a command passes its checks when each of them passes. -/
theorem firstFailure_eq_none_iff {i : Instr} {s : State} :
    firstFailure i s = none ↔ checkState i s = none ∧ rangeOK s.lat.srcAddr.toNat (sourceLen i s.lat) = true ∧
      rangeOK s.lat.dstAddr.toNat (destLen i s.lat) = true ∧
      overlap s.lat.srcAddr.toNat (sourceLen i s.lat) s.lat.dstAddr.toNat (destLen i s.lat) = false ∧
      capacityOK i s.lat = true := by
  unfold firstFailure
  cases checkState i s with
  | some e => simp
  | none => split_ifs <;> simp_all

/-- R119, R214: a command that fails a check ends with an error. -/
theorem exec_of_firstFailure {s : State} {i : Instr} {e : ErrorCode} {info : Word} (hready : Ready s)
    (hfail : firstFailure i (accept (encode i) (.start i) s) = some (e, info)) :
    exec i s = .next (raiseError e info (accept (encode i) (.start i) s)) := by
  obtain ⟨hhigh, hidle, hu⟩ := hready
  have hstep : engineStep (accept (encode i) (.start i) s) =
      some (raiseError e info (accept (encode i) (.start i) s)) := by
    rw [engineStep_start rfl, hfail]
  have hbound : ∃ n, stepBound (accept (encode i) (.start i) s) = n + 1 := by cases i <;> exact ⟨_, rfl⟩
  obtain ⟨n, hn⟩ := hbound
  rw [exec_idle i hhigh hidle, settle_undisturbed (s := accept ..) hu, hn, runEngine_succ_of_step _ hstep,
    runEngine_idle _ rfl]

section
variable {s : State}

/-- R191, R194: the symbols the input begins with come to be written. -/
theorem DecodeIssued.walking_symbols (h : DecodeIssued s) (hm : memWf s.mem) {leaves : List Nat} {bits : List Bool}
    (hspells : Spells s.nodes leaves bits) (hcount : leaves.length ≤ s.params.symCount.toNat) (hfeeds : Feeds s bits)
    (hdest : PlainDest s s.params.dstAddr.toNat leaves.length) :
    Walking s leaves bits none (runEngine (bits.length + 2 * leaves.length) (decodeBegun s)) := by
  obtain ⟨paths, hpaths, rfl⟩ := hspells
  exact (walking_decodeBegun hm).symbols h hpaths hcount hfeeds hdest

/-- R191: after those symbols the walk goes down from the root while it meets internal nodes. -/
theorem DecodeIssued.walking_tail (h : DecodeIssued s) (hm : memWf s.mem) {leaves : List Nat} {bits tail : List Bool}
    (hspells : Spells s.nodes leaves bits) (hmore : leaves.length < s.params.symCount.toNat)
    (hint : ∀ k < tail.length, 256 ≤ walkDown s.nodes Config.root (tail.take k)) (hfeeds : Feeds s (bits ++ tail))
    (hdest : PlainDest s s.params.dstAddr.toNat leaves.length) :
    Walking s leaves (bits ++ tail) (some (walkDown s.nodes Config.root tail))
      (runEngine ((bits ++ tail).length + 2 * leaves.length + 1) (decodeBegun s)) := by
  have hdown := (h.walking_symbols hm hspells hmore.le hfeeds.of_append hdest).descend h hmore hint hfeeds
  rw [← runEngine_add] at hdown
  convert hdown using 2
  rw [List.length_append]
  omega

/-- R119: DECODE passes its checks. -/
theorem DecodeIssued.firstFailure_eq_none (h : DecodeIssued s) :
    firstFailure .decode (accept (encode .decode) (.start .decode) s) = none := by
  have hvalid : checkState .decode (accept (encode .decode) (.start .decode) s) = none := by
    simp [checkState, encode, treeAfterAccept, clearsTables, h.valid]
  exact firstFailure_eq_none_iff.mpr ⟨hvalid, h.srcRange, h.dstRange, h.apart, decide_eq_true h.room⟩

/-- R113, R121: DECODE answers the state its loop ends in, which it comes to within its bound. -/
theorem DecodeIssued.exec_eq (h : DecodeIssued s) {n : Nat} {t : State}
    (hn : n ≤ inputBits s + 2 * s.params.symCount.toNat) (hend : engineStep (runEngine n (decodeBegun s)) = some t)
    (hidle : t.run = .idle) : exec .decode s = .next t := by
  obtain ⟨hhigh, hrun, hu⟩ := h.ready
  have hstart : engineStep (accept (encode .decode) (.start .decode) s) = some (decodeBegun s) := by
    rw [engineStep_start rfl, h.firstFailure_eq_none]
    rfl
  obtain ⟨r, hr⟩ := Nat.exists_eq_add_of_le hn
  have hbound : stepBound (accept (encode .decode) (.start .decode) s) = n + (r + 1) + 1 := by
    change inputBits s + 2 * s.params.symCount.toNat + 2 = _
    omega
  rw [exec_idle .decode hhigh hrun, settle_undisturbed (s := accept ..) hu, hbound, runEngine_succ_of_step _ hstart,
    runEngine_add, runEngine_succ_of_step _ hend, runEngine_idle _ hidle]

end

/-! ## The ends of DECODE -/

/-- R196: bits that reach no leaf end at an internal node. -/
theorem StaysInternal.walkDown_internal {nodes : Vector Node 511} {bits : List Bool} (h : StaysInternal nodes bits) :
    256 ≤ walkDown nodes Config.root bits := by
  have hlast := h bits.length le_rfl
  rwa [List.take_length] at hlast

/-- R193, R194: DECODE of an input that begins with the paths of SYM_COUNT leaves writes their symbols and completes. -/
theorem DecodeIssued.exec_completes {s : State} (h : DecodeIssued s) (hm : memWf s.mem) {leaves : List Nat}
    {bits : List Bool} (hspells : Spells s.nodes leaves bits) (hcount : leaves.length = s.params.symCount.toNat)
    (hfeeds : Feeds s bits) (hdest : PlainDest s s.params.dstAddr.toNat leaves.length) :
    ∃ v, exec .decode s = .next (complete v) ∧ Walking s leaves bits none v := by
  have hwalk := h.walking_symbols hm hspells hcount.le hfeeds hdest
  have hsteps : bits.length + 2 * leaves.length ≤ inputBits s + 2 * s.params.symCount.toNat :=
    Nat.add_le_add hfeeds.within (Nat.mul_le_mul_left 2 hcount.le)
  exact ⟨_, h.exec_eq hsteps (hwalk.completes hcount) rfl, hwalk⟩

/-- Settles O34: the walk comes to the state that has written every symbol, and completion keeps their bytes. -/
theorem decodeWritesSymbols : Obligations.DecodeWritesSymbols := by
  intro s leaves bits src inBits dst cap hm hready hvalid hsrc hdst hapart hcount hroom hspells hwithin hbits hplain
    hdest
  obtain ⟨v, hexec, hwalk⟩ := DecodeIssued.exec_completes ⟨hready, hvalid, hsrc, hdst, hapart, hroom⟩ hm hspells hcount
    ⟨hbits, hwithin, hplain⟩ hdest
  have hended := hwalk.complete hwalk.racedDst
  exact ⟨_, hexec, hwalk.complete_endedWell, hwalk.lastcmd, BitVec.eq_of_toNat_eq (hended.outCount.trans hcount),
    hended.outBits, hended.written, hended.untouched, hwalk.reads⟩

/-- Settles O35: the walk comes to an internal node with every bit consumed, and the error keeps the symbols before. -/
theorem decodeRaisesTruncated : Obligations.DecodeRaisesTruncated := by
  intro s leaves bits tail src inBits dst cap hm hready hvalid hsrc hdst hapart hmore hroom hspells htail hlen hbits
    hplain hdest
  have hissued : DecodeIssued s := ⟨hready, hvalid, hsrc, hdst, hapart, hroom⟩
  have hfeeds : Feeds s (bits ++ tail) := ⟨hlen.symm ▸ hbits, hlen.le, hlen.symm ▸ hplain⟩
  have hwalk := hissued.walking_tail hm hspells hmore (fun k hk => htail k hk.le) hfeeds hdest
  have hended := hwalk.raiseError hwalk.racedDst .truncated 0
  exact ⟨_, hissued.exec_eq (hfeeds.steps_le hmore) (hwalk.truncates htail.walkDown_internal hlen) rfl,
    ⟨rfl, rfl, rfl, rfl, rfl⟩, hended.outCount, hended.outBits.trans hlen, hended.written, hended.untouched⟩

/-- Settles O36: without a symbol to decode the loop completes at once, in the state it begins in. -/
theorem decodeOfNoSymbols : Obligations.DecodeOfNoSymbols := by
  intro s src inBytes hready hvalid hnone hsrc hdst hapart
  have hcount : s.params.symCount.toNat = 0 := by rw [hnone]; rfl
  have hissued : DecodeIssued s := ⟨hready, hvalid, hsrc, hdst, hapart, hcount ▸ Nat.zero_le _⟩
  have hend : engineStep (decodeBegun s) = some (complete (decodeBegun s)) := by
    simp [engineStep, move, moveDecode, decodeBegun, latch, hcount]
  exact ⟨_, hissued.exec_eq (n := 0) (Nat.zero_le _) hend rfl, ⟨rfl, rfl, rfl, rfl, rfl⟩, rfl, rfl, rfl, fun _ => rfl⟩

/-- Settles O37: the walk comes to the access that fails, and the error keeps the symbols before it. -/
theorem decodeStopsAtBusError : Obligations.DecodeStopsAtBusError := by
  intro s leaves bits src inBits dst cap hm hready hvalid hsrc hdst hapart hmore hroom hspells hdest
  have hissued : DecodeIssued s := ⟨hready, hvalid, hsrc, hdst, hapart, hroom⟩
  constructor
  · intro k tail htail hlen hwithin hbits hplain hfail
    have hwhole : (bits ++ tail).length % 8 = 0 := by omega
    have hbyte : (bits ++ tail).length / 8 = k := by omega
    have hfeeds : Feeds s (bits ++ tail) :=
      ⟨hlen.symm ▸ hbits, hlen.trans_le hwithin.le, by rwa [bytesOfBits_of_whole hwhole, hbyte]⟩
    have hwalk := hissued.walking_tail hm hspells hmore (fun k hk => htail k hk.le) hfeeds hdest
    obtain ⟨v, hstep, hraced, hdecoded⟩ :=
      hwalk.read_fails htail.walkDown_internal (hlen.trans_lt hwithin) hwhole (hbyte ▸ hfail)
    rw [hbyte] at hstep
    have hended := hdecoded.raiseError hraced .busError (BitVec.ofNat 32 (src + k))
    exact ⟨_, hissued.exec_eq (hfeeds.steps_le hmore) hstep rfl, ⟨rfl, rfl, rfl, rfl, rfl⟩, hended.outCount,
      hended.outBits.trans hlen, hended.written, hended.untouched⟩
  · intro x path hx hpath hwithin hbits hplain hfail
    obtain ⟨rfl, hint⟩ := hpath
    have hfeeds : Feeds s (bits ++ path) := ⟨hbits, hwithin, hplain⟩
    have hwalk := hissued.walking_tail hm hspells hmore hint hfeeds hdest
    obtain ⟨v, hstep, hraced, hdecoded⟩ := hwalk.write_fails hx hfail
    have hended := hdecoded.raiseError hraced .busError (BitVec.ofNat 32 (dst + leaves.length))
    exact ⟨_, hissued.exec_eq (hfeeds.steps_le hmore) hstep rfl, ⟨rfl, rfl, rfl, rfl, rfl⟩, hended.outCount,
      hended.outBits, hended.written, hended.untouched⟩

/-! ## The round trip -/

theorem symByte_symIndex (b : Byte) : symByte (symIndex b) = b := by
  simp [symByte, symIndex]

/-- R199: the leaves of some bytes, in order. -/
def leavesOf (bytes : List Byte) : List Nat := bytes.map symIndex

/-- R163, R199: the codes of a buffer spell its leaves in the tree the codes are of. -/
theorem spells_codeStream {s : State} {freq : Vector Word 256} (ht : IsTreeOf freq s.nodes)
    (hcodes : CodesOf s.nodes s.codes 256) (bytes : List Byte) :
    Spells s.nodes (leavesOf bytes) (codeStream s bytes) := by
  refine ⟨bytes.map fun b => codeAt s (symIndex b), ?_, List.flatMap_def ..⟩
  refine List.forall₂_map_left_iff.mpr (List.forall₂_map_right_iff.mpr (List.forall₂_same.mpr fun b _ => ?_))
  obtain ⟨code, hcode, hpath, -⟩ := ht.exists_code (symIndex_lt b)
  have heq : codeAt s (symIndex b) = code := Option.some.inj ((hcodes _ (symIndex_lt b)).symm.trans hcode)
  exact ⟨symIndex_lt b, heq.symm ▸ hpath⟩

/-- R119: an ENCODE that ended without error passed its checks. -/
theorem encodeIssued_of_no_error {s t : State} (hready : Ready s) (hvalid : s.codesValid = true)
    (hexec : exec .encode s = .next t) (hok : t.err = false) : EncodeIssued s := by
  cases hcheck : firstFailure .encode (accept (encode .encode) (.start .encode) s) with
  | some failure =>
    obtain rfl := Host.Outcome.next.inj (hexec.symm.trans (exec_of_firstFailure hready hcheck))
    cases hok
  | none =>
    obtain ⟨-, hsrc, hdst, hapart, -⟩ := firstFailure_eq_none_iff.mp hcheck
    exact ⟨hready, hvalid, hsrc, hdst, hapart⟩

/-- R171, R174: an ENCODE of plain memory that ended without error had room for its stream, and packed it whole. -/
theorem EncodeIssued.packed_of_no_error {s t : State} (h : EncodeIssued s) (hm : memWf s.mem) {bits : List Bool}
    (hbits : sourceBits s s.params.srcLen.toNat = bits)
    (hplain : PlainSource s s.params.srcAddr.toNat s.params.srcLen.toNat)
    (hdest : PlainDest s s.params.dstAddr.toNat s.params.dstCap.toNat) (hexec : exec .encode s = .next t)
    (hok : t.err = false) :
    bytesOfBits bits.length ≤ s.params.dstCap.toNat ∧
      Packed s bits (bytesOfBits bits.length) (bytesOfBits bits.length) t := by
  by_cases hsize : bytesOfBits bits.length ≤ s.params.dstCap.toNat
  · obtain ⟨v, hexec', hframe, hpacked⟩ :=
      h.exec_completes hm hbits hplain hsize fun k hk => hdest k (hk.trans_le hsize)
    obtain rfl := Host.Outcome.next.inj (hexec.symm.trans hexec')
    exact ⟨hsize, hpacked.complete hframe.racedDst⟩
  · subst hbits
    obtain ⟨t', hexec', ⟨-, -, herr, -⟩, -⟩ := encodeOverflowsAtCapacity s s.params.srcLen.toNat hm h.ready h.valid
      h.srcRange h.dstRange h.apart le_rfl hplain hdest (.inr ⟨rfl, Nat.lt_of_not_le hsize⟩)
    obtain rfl := Host.Outcome.next.inj (hexec.symm.trans hexec')
    simp [hok] at herr

/-- R199: packed bytes that stay in place feed DECODE the stream that was packed. -/
theorem Packed.feeds {s t u : State} {bits : List Bool} {n : Nat} (h : Packed s bits (bytesOfBits bits.length) n t)
    (hsrc : u.params.srcAddr = s.params.dstAddr) (hbits : inputBits u = bits.length)
    (hkept : ∀ k < bytesOfBits bits.length,
      memRead u.mem (s.params.dstAddr.toNat + k) = memRead t.mem (s.params.dstAddr.toNat + k))
    (hplain : PlainSource u s.params.dstAddr.toNat (bytesOfBits bits.length)) : Feeds u bits := by
  refine ⟨fun k hk => ?_, hbits.ge, hsrc ▸ hplain⟩
  have hbyte := div_lt_bytesOfBits hk
  have hwritten := h.written k (by omega)
  rw [List.getElem?_eq_getElem hk, Option.getD_some] at hwritten
  rw [List.getElem?_eq_getElem hk, ← hwritten, hsrc, memBit, memBit, hkept _ hbyte]

/-- Settles O38: the codes ENCODE packed are paths in the tree DECODE walks, which leads back to the leaves of the
source bytes. -/
theorem decodeInvertsEncode : Obligations.DecodeInvertsEncode := by
  intro s t u src len dst out cap hinv hready hvalid hplain hdest hexec hok hm hready' hvalid' hnodes hsrc' hbits'
    hcount' hroom hkept hrange hapart hplain' hdest'
  obtain ⟨bits, hbits⟩ : ∃ bits, sourceBits s len = bits := ⟨_, rfl⟩
  have hissued := encodeIssued_of_no_error hready hvalid hexec hok
  obtain ⟨hsize, hpacked⟩ := hissued.packed_of_no_error hinv.memOk hbits hplain hdest hexec hok
  have hspells : Spells u.nodes (leavesOf (bytesAt s.mem src len)) bits := by
    rw [hnodes, ← hbits]
    exact spells_codeStream (hinv.treeOfFreq (hinv.codesNeedTree hvalid)) (hinv.codesOfTree hvalid) _
  have hinput : inputBits u = bits.length := (congrArg BitVec.toNat hbits').trans hpacked.outBits
  rw [hpacked.outCount] at hkept hapart hplain'
  have hissued' : DecodeIssued u := by
    refine ⟨hready', hvalid', ?_, hrange, ?_, hcount'.symm ▸ hroom⟩
    · have hdstRange := hissued.dstRange
      simp only [rangeOK, decide_eq_true_eq] at hdstRange ⊢
      rw [hinput, hsrc']
      omega
    · rw [hinput, hsrc']
      exact hapart
  have hlen : (leavesOf (bytesAt s.mem src len)).length = len := by simp [leavesOf, bytesAt_length]
  obtain ⟨v, hv, hwalk⟩ := hissued'.exec_completes hm hspells (hlen.trans (congrArg BitVec.toNat hcount').symm)
    (hpacked.feeds hsrc' hinput hkept hplain') (hlen.symm ▸ hdest')
  have hended := hwalk.complete hwalk.racedDst
  refine ⟨_, hv, hwalk.complete_endedWell, BitVec.eq_of_toNat_eq (hended.outCount.trans hlen),
    BitVec.eq_of_toNat_eq (hended.outBits.trans hpacked.outBits.symm), fun k hk => ?_⟩
  rw [hended.written k (hk.trans_eq hlen.symm)]
  simp [leavesOf, bytesAt, hk, symByte_symIndex, src]

end Sys2Proof.Machine
end

section
/-! PROOF. A host write to CTRL (spec/70_reset_and_hazards.md R241, spec/10_state.md R22): the soft reset with SRST, the
IE bit without it. -/

namespace Sys2Proof.Machine

theorem writeRegister_ctrl {s : State} (hl : s.rstLow = false) (v : Word) :
    writeRegister offCTRL v s = writeCtrl v s := by
  simp [writeRegister, hl]

/-- R241: a write to CTRL with SRST set is the engine's reset, whatever its other bits. -/
theorem writeCtrl_srst (s : State) {v : Word} (hv : v.getLsbD 1 = true) : writeCtrl v s = resetEngine s := if_pos hv

/-- R22: a write to CTRL without SRST sets IE alone. -/
theorem writeCtrl_ie (s : State) {v : Word} (hv : v.getLsbD 1 = false) : writeCtrl v s = { s with ie := v.getLsbD 0 } :=
  if_neg (Bool.eq_false_iff.mp hv)

/-- Settles O49: the write with SRST is the engine's reset, whose values O48 gives. -/
theorem softResetRestoresReset : Obligations.SoftResetRestoresReset := by
  intro s v hl
  rw [writeRegister_ctrl hl]
  refine ⟨fun hv => ?_, writeCtrl_ie s⟩
  rw [writeCtrl_srst s hv]
  obtain ⟨hreset, -, hirq, -, -, -, hreads⟩ := resetValues (resetEngine s) (.inr ⟨s, hl, rfl⟩)
  exact ⟨hreset, hirq, hreads offCTRL (by decide)⟩

end Sys2Proof.Machine
end

section
/-! PROOF. The moves of the running command (spec/40_command.md R113; spec/20_memory.md R67): everything `move` can
answer, one constructor for each arm of the pseudocode, so that what every step keeps is shown arm by arm. -/

namespace Sys2Proof.Machine

/-- R113: the steps without a data access, and the state each leaves. -/
inductive Advances (s : State) : State → Prop
  | checkFails {i : Instr} {e : ErrorCode} {info : Word} (hrun : s.run = .start i)
      (hfail : firstFailure i s = some (e, info)) : Advances s (raiseError e info s)
  | begins {i : Instr} (hrun : s.run = .start i) (hpass : firstFailure i s = none) : Advances s (enterMain i s)
  | illegalWord {w : Word} (hrun : s.run = .illegal w) : Advances s (raiseError .illegalCmd w s)
  | fcountDone (hrun : s.run = .fcount) (hall : s.lat.srcLen.toNat ≤ s.outCount.toNat) : Advances s (complete s)
  | merge {active active' : List Key} {k : Nat} {nodes' : Vector Node 511} (hrun : s.run = .build active k) (hk : k < 255)
      (hmerge : mergeOnce k s.nodes active = some (nodes', active')) :
      Advances s { s with nodes := nodes', run := .build active' (k + 1) }
  | buildDone {active : List Key} {k : Nat} (hrun : s.run = .build active k) (hk : 255 ≤ k) :
      Advances s (complete { s with treeValid := true })
  | nextLeaf {leaf : Nat} {code : List Bool} (hrun : s.run = .gencode leaf) (hleaf : leaf < 256)
      (hcode : leafCode s.nodes leaf = some code) :
      Advances s { s with codes := s.codes.setIfInBounds leaf code, run := .gencode (leaf + 1) }
  | gencodeDone {leaf : Nat} (hrun : s.run = .gencode leaf) (hleaf : 256 ≤ leaf) :
      Advances s (complete { s with codesValid := true })
  | appendBit {k : Nat} {acc : Byte} {b : Bool} {rest : List Bool} (hrun : s.run = .encode k acc (b :: rest))
      (hpart : (s.outBits.toNat + 1) % 8 ≠ 0) :
      Advances s { s with
        outBits := s.outBits + 1
        run := .encode k (setStreamBit acc s.outBits.toNat b) rest }
  | byteOverflows {k : Nat} {acc : Byte} {b : Bool} {rest : List Bool} (hrun : s.run = .encode k acc (b :: rest))
      (hfull : s.lat.dstCap.toNat ≤ s.outCount.toNat) :
      Advances s (raiseError .dstOverflow s.lat.dstCap { s with outBits := s.outBits + 1 })
  | padOverflows {k : Nat} {acc : Byte} (hrun : s.run = .encode k acc [])
      (hfull : s.lat.dstCap.toNat ≤ s.outCount.toNat) : Advances s (raiseError .dstOverflow s.lat.dstCap s)
  | encodeDone {k : Nat} {acc : Byte} (hrun : s.run = .encode k acc []) (hall : s.lat.srcLen.toNat ≤ k) :
      Advances s (complete s)
  | nextSymbol {cur : Byte} (hrun : s.run = .decode none cur) (hmore : s.outCount.toNat < s.lat.symCount.toNat) :
      Advances s { s with run := .decode (some Config.root) cur }
  | decodeDone {cur : Byte} (hrun : s.run = .decode none cur) (hall : s.lat.symCount.toNat ≤ s.outCount.toNat) :
      Advances s (complete s)
  | truncated {n : Nat} {cur : Byte} (hrun : s.run = .decode (some n) cur) : Advances s (raiseError .truncated 0 s)
  | takeBit {n : Nat} {cur : Byte} (hrun : s.run = .decode (some n) cur) (hint : 256 ≤ n)
      (hmore : s.outBits ≠ s.lat.inBits) (hpart : s.outBits.toNat % 8 ≠ 0) : Advances s (consumeBit n s cur)

/-- R67: the reads of the commands, each from the state before it: the address, and what is done with the byte. -/
inductive Reads (s : State) : Nat → (State → Byte → State) → Prop
  | fcount (hrun : s.run = .fcount) (hmore : s.outCount.toNat < s.lat.srcLen.toNat) :
      Reads s (s.lat.srcAddr.toNat + s.outCount.toNat) countByte
  | encode {k : Nat} {acc : Byte} (hrun : s.run = .encode k acc []) (hmore : k < s.lat.srcLen.toNat) :
      Reads s (s.lat.srcAddr.toNat + k) (takeSource k acc)
  | decode {n : Nat} {cur : Byte} (hrun : s.run = .decode (some n) cur) (hint : 256 ≤ n)
      (hmore : s.outBits ≠ s.lat.inBits) (hwhole : s.outBits.toNat % 8 = 0) :
      Reads s (s.lat.srcAddr.toNat + s.outBits.toNat / 8) (consumeBit n)

/-- R170: ENCODE goes on after the write of a full byte. -/
def byteEmitted (k : Nat) (rest : List Bool) (s : State) : State :=
  { s with outCount := s.outCount + 1, run := .encode k 0 rest }

/-- R172: ENCODE completes after the write of the padded last byte. -/
def lastEmitted (s : State) : State := complete { s with outCount := s.outCount + 1 }

/-- R67: the writes of the commands: the state that makes the access, the address, the byte, and what follows. -/
inductive Writes (s : State) : State → Nat → Byte → (State → State) → Prop
  | fullByte {k : Nat} {acc : Byte} {b : Bool} {rest : List Bool} (hrun : s.run = .encode k acc (b :: rest))
      (hwhole : (s.outBits.toNat + 1) % 8 = 0) (hroom : s.outCount.toNat < s.lat.dstCap.toNat) :
      Writes s { s with outBits := s.outBits + 1 } (s.lat.dstAddr.toNat + s.outCount.toNat)
        (setStreamBit acc s.outBits.toNat b) (byteEmitted k rest)
  | lastByte {k : Nat} {acc : Byte} (hrun : s.run = .encode k acc [])
      (hroom : s.outCount.toNat < s.lat.dstCap.toNat) :
      Writes s s (s.lat.dstAddr.toNat + s.outCount.toNat) acc lastEmitted
  | symbol {n : Nat} {cur : Byte} (hrun : s.run = .decode (some n) cur) :
      Writes s s (s.lat.dstAddr.toNat + s.outCount.toNat) (symByte n) (symbolDone cur)

/-- The running command takes no step: there is none, or its loop cannot go on (assumption 19). -/
inductive Rests (s : State) : Prop
  | idle (hrun : s.run = .idle)
  | noMerge {active : List Key} {k : Nat} (hrun : s.run = .build active k) (hk : k < 255)
      (hmerge : mergeOnce k s.nodes active = none)
  | noCode {leaf : Nat} (hrun : s.run = .gencode leaf) (hleaf : leaf < 256) (hcode : leafCode s.nodes leaf = none)

/-- This move is one of the running command's. -/
def Move.Of (s : State) : Move → Prop
  | .rest => Rests s
  | .advance t => Advances s t
  | .read t a k => t = s ∧ Reads s a k
  | .write t a v k => Writes s t a v k

/-! Only a running command moves (R36). -/

theorem Advances.busy {s u : State} (h : Advances s u) : s.run ≠ .idle := by cases h <;> simp_all

theorem Reads.busy {s : State} {a : Nat} {k : State → Byte → State} (h : Reads s a k) : s.run ≠ .idle := by
  cases h <;> simp_all

theorem Writes.busy {s t : State} {a : Nat} {v : Byte} {k : State → State} (h : Writes s t a v k) : s.run ≠ .idle := by
  cases h <;> simp_all

theorem moveEncode_of {s : State} {k : Nat} {acc : Byte} {code : List Bool} (hrun : s.run = .encode k acc code) :
    (moveEncode k acc code s).Of s := by
  unfold moveEncode emitByte
  cases code with
  | cons b rest =>
    simp only
    split_ifs with hwhole hfull
    · exact .byteOverflows hrun hfull
    · exact .fullByte hrun hwhole (Nat.lt_of_not_le hfull)
    · exact .appendBit hrun hwhole
  | nil =>
    simp only
    split_ifs with hmore hpart hfull
    · exact ⟨rfl, .encode hrun hmore⟩
    · exact .padOverflows hrun hfull
    · exact .lastByte hrun (Nat.lt_of_not_le hfull)
    · exact .encodeDone hrun (Nat.le_of_not_lt hmore)

theorem moveDecode_of {s : State} {walk : Option Nat} {cur : Byte} (hrun : s.run = .decode walk cur) :
    (moveDecode walk cur s).Of s := by
  unfold moveDecode
  cases walk with
  | none =>
    simp only
    split_ifs with hmore
    · exact .nextSymbol hrun hmore
    · exact .decodeDone hrun (Nat.le_of_not_lt hmore)
  | some n =>
    simp only
    split_ifs with hint hend hwhole
    · exact .truncated hrun
    · exact ⟨rfl, .decode hrun hint hend hwhole⟩
    · exact .takeBit hrun hint hend hwhole
    · exact .symbol hrun

/-- R113: every move is one of these. -/
theorem move_of (s : State) : (move s).Of s := by
  unfold move
  cases hrun : s.run with
  | idle => exact .idle hrun
  | start i =>
    simp only [moveStart]
    cases hf : firstFailure i s with
    | none => exact .begins hrun hf
    | some p => exact .checkFails hrun hf
  | illegal w => exact .illegalWord hrun
  | fcount =>
    simp only [moveFcount]
    split_ifs with hmore
    · exact ⟨rfl, .fcount hrun hmore⟩
    · exact .fcountDone hrun (Nat.le_of_not_lt hmore)
  | build active k =>
    simp only [moveBuild]
    split_ifs with hk
    · cases hm : mergeOnce k s.nodes active with
      | none => exact .noMerge hrun hk hm
      | some p => exact .merge hrun hk hm
    · exact .buildDone hrun (Nat.le_of_not_lt hk)
  | gencode leaf =>
    simp only [moveGencode]
    split_ifs with hleaf
    · cases hc : leafCode s.nodes leaf with
      | none => exact .noCode hrun hleaf hc
      | some code => exact .nextLeaf hrun hleaf hc
    · exact .gencodeDone hrun (Nat.le_of_not_lt hleaf)
  | encode k acc code => exact moveEncode_of hrun
  | decode walk cur => exact moveDecode_of hrun

theorem writes_of_move {s t : State} {a : Nat} {v : Byte} {k : State → State} (h : move s = .write t a v k) :
    Writes s t a v k := by
  have hof := move_of s
  rwa [h] at hof

theorem reads_of_move {s t : State} {a : Nat} {k : State → Byte → State} (h : move s = .read t a k) :
    t = s ∧ Reads s a k := by
  have hof := move_of s
  rwa [h] at hof

/-- R65: the state in which a command goes on with the byte it read at `a`, after `draws` free values. -/
def afterRead (a draws : Nat) (s : State) : State := { s with accesses := .read a :: s.accesses, draws := draws }

/-- R65: the state a command goes on in after its write of `v` at `a`. -/
inductive WriteAnswered (t : State) (a : Nat) (v : Byte) : State → Prop
  | device : WriteAnswered t a v (logged (.write a v) t)
  | plain : WriteAnswered t a v (stored a v (logged (.write a v) t))

/-- R65: the state in which BUS_ERROR is raised after a write of `v` at `a`. -/
inductive WriteFailed (t : State) (a : Nat) (v : Byte) : State → Prop
  | hole : WriteFailed t a v (logged (.write a v) t)
  | memory (hk : kindAt t.platform a = .writeError) :
      WriteFailed t a v (drawn (stored a (Config.freeByte t.draws) (logged (.write a v) t)))

/-- R113, R65: everything one step of the engine can be. -/
inductive Steps (s : State) : State → Prop
  | advance {u : State} (h : Advances s u) : Steps s u
  | readFails {a : Nat} {k : State → Byte → State} (h : Reads s a k) :
      Steps s (raiseError .busError (BitVec.ofNat 32 a) (logged (.read a) s))
  | read {a : Nat} {k : State → Byte → State} (h : Reads s a k) (draws : Nat) (v : Byte) :
      Steps s (k (afterRead a draws s) v)
  | writeFails {t : State} {a : Nat} {v : Byte} {k : State → State} {w : State} (h : Writes s t a v k)
      (hw : WriteFailed t a v w) : Steps s (raiseError .busError (BitVec.ofNat 32 a) w)
  | write {t : State} {a : Nat} {v : Byte} {k : State → State} {w : State} (h : Writes s t a v k)
      (hw : WriteAnswered t a v w) : Steps s (k w)

theorem steps_of_engineStep {s u : State} (h : engineStep s = some u) : Steps s u := by
  have hof := move_of s
  rcases engineStep_cases h with hm | ⟨t, a, k, hm, hr⟩ | ⟨t, a, v, k, hm, hw⟩
  · rw [hm] at hof
    exact .advance hof
  · obtain ⟨rfl, hreads⟩ := reads_of_move hm
    rcases respondRead_cases hr with ⟨-, rfl⟩ | rfl | ⟨-, -, rfl⟩
    · exact .readFails hreads
    · exact .read hreads (t.draws + 1) _
    · exact .read hreads t.draws _
  · have hwrites := writes_of_move hm
    rcases respondWrite_cases hw with ⟨-, rfl⟩ | ⟨hk, rfl⟩ | ⟨-, rfl⟩ | ⟨-, rfl⟩
    · exact .writeFails hwrites .hole
    · exact .writeFails hwrites (.memory hk)
    · exact .write hwrites .device
    · exact .write hwrites .plain

end Sys2Proof.Machine
end

section
/-! PROOF. The invariant (spec/10_state.md, spec/20_memory.md, spec/60_exceptions.md R210): what holds whatever runs is
shown apart from the progress of the running command; then each step of the engine keeps both, and each action of the
host. -/

namespace Sys2Proof.Machine

/-! ## What holds whatever runs -/

/-- The parts of the invariant that do not speak of the running command. -/
structure Sound (s : State) : Prop where
  memOk : memWf s.mem
  codesNeedTree : s.codesValid = true → s.treeValid = true
  errExactlyCode : s.err = true ↔ s.errcode ≠ 0
  codeDefined : s.errcode.toNat ≤ 8
  infoNeedsError : s.err = false → s.errInfo = 0
  countsFit : freqSum s.freq < 2 ^ 32
  treeOfFreq : s.treeValid = true → IsTreeOf s.freq s.nodes
  codesOfTree : s.codesValid = true → CodesOf s.nodes s.codes 256
  accessesOk : ∀ x ∈ s.accesses, accessInSpace x = true
  racesOk : ∀ a ∈ s.racedDst, a < Config.dataSpace
  dirtyOk : ∀ a ∈ s.hostDirty, a < Config.dataSpace
  coherentClean : s.platform.coherent = true → s.hostDirty = [] ∧ s.hostStale = [] ∧ s.unclean = []

theorem Inv.sound {s : State} (h : Inv s) : Sound s where
  memOk := h.memOk
  codesNeedTree := h.codesNeedTree
  errExactlyCode := h.errExactlyCode
  codeDefined := h.codeDefined
  infoNeedsError := h.infoNeedsError
  countsFit := h.countsFit
  treeOfFreq := h.treeOfFreq
  codesOfTree := h.codesOfTree
  accessesOk := h.accessesOk
  racesOk := h.racesOk
  dirtyOk := h.dirtyOk
  coherentClean := h.coherentClean

/-- While no command runs, the invariant is what holds whatever runs, and a clean hidden state. -/
theorem Sound.inv_of_idle {s : State} (h : Sound s) (hidle : s.run = .idle) (hrun : RunOk s)
    (hlow : s.rstLow = true → EngineReset s) : Inv s where
  memOk := h.memOk
  codesNeedTree := h.codesNeedTree
  doneNotBusy _ := (busy_eq_false_iff s).mpr hidle
  errExactlyCode := h.errExactlyCode
  codeDefined := h.codeDefined
  busyNoError hb := absurd hidle ((busy_eq_true_iff s).mp hb)
  infoNeedsError := h.infoNeedsError
  countsFit := h.countsFit
  treeOfFreq := h.treeOfFreq
  codesOfTree := h.codesOfTree
  running := hrun
  lowIsReset := hlow
  accessesOk := h.accessesOk
  racesOk := h.racesOk
  dirtyOk := h.dirtyOk
  coherentClean := h.coherentClean

/-- What holds while a command runs, whatever its progress. -/
structure Live (s : State) : Prop extends Sound s where
  notDone : s.done = false
  noError : s.err = false
  high : s.rstLow = false

theorem Inv.live {s : State} (h : Inv s) (hb : s.run ≠ .idle) : Live s where
  toSound := h.sound
  notDone := Bool.eq_false_iff.mpr fun hd => hb ((busy_eq_false_iff s).mp (h.doneNotBusy hd))
  noError := (h.busyNoError ((busy_eq_true_iff s).mpr hb)).1
  high := Bool.eq_false_iff.mpr fun hl => hb (h.lowIsReset hl).1

theorem Live.errcode_eq {s : State} (h : Live s) : s.errcode = 0 :=
  not_not.mp fun hne => by simpa [h.noError] using h.errExactlyCode.mpr hne

theorem Live.inv {s : State} (h : Live s) (hrun : RunOk s) : Inv s where
  memOk := h.memOk
  codesNeedTree := h.codesNeedTree
  doneNotBusy hd := by simp [h.notDone] at hd
  errExactlyCode := h.errExactlyCode
  codeDefined := h.codeDefined
  busyNoError _ := ⟨h.noError, h.errcode_eq, h.infoNeedsError h.noError⟩
  infoNeedsError := h.infoNeedsError
  countsFit := h.countsFit
  treeOfFreq := h.treeOfFreq
  codesOfTree := h.codesOfTree
  running := hrun
  lowIsReset hl := by simp [h.high] at hl
  accessesOk := h.accessesOk
  racesOk := h.racesOk
  dirtyOk := h.dirtyOk
  coherentClean := h.coherentClean

/-! ## The end of a command -/

theorem runOk_endCommand (s : State) : RunOk (endCommand s) := ⟨rfl, rfl, rfl, rfl⟩

theorem Sound.endCommand {s : State} (h : Sound s) : Sound (endCommand s) :=
  { h with
    memOk := scrambled_wf s.racedDst s.mem s.draws h.racesOk h.memOk
    racesOk := fun _ ha => absurd ha List.not_mem_nil
    coherentClean := fun hc => ⟨(h.coherentClean hc).1, (h.coherentClean hc).2.1, rfl⟩ }

/-- R114: a completion keeps the invariant. -/
theorem Live.complete {s : State} (h : Live s) : Inv (complete s) :=
  Sound.inv_of_idle { h.endCommand with } rfl (runOk_endCommand s) fun hl => by simp [h.high] at hl

theorem errorNumber_pos_le (e : ErrorCode) : errorNumber e ≠ 0 ∧ (errorNumber e).toNat ≤ 8 := by
  cases e <;> decide

/-- R214: an error keeps the invariant. -/
theorem Live.raiseError {s : State} (h : Live s) (e : ErrorCode) (info : Word) : Inv (raiseError e info s) :=
  Sound.inv_of_idle
    { h.endCommand with
      errExactlyCode := iff_of_true rfl (errorNumber_pos_le e).1
      codeDefined := (errorNumber_pos_le e).2
      infoNeedsError := fun herr => Bool.noConfusion herr }
    rfl (runOk_endCommand s) fun hl => by simp [h.high] at hl

/-! ## Data accesses -/

theorem accessInSpace_read {a : Nat} (h : a < Config.dataSpace) : accessInSpace (.read a) = true := decide_eq_true h

theorem accessInSpace_write {a : Nat} (h : a < Config.dataSpace) (v : Byte) : accessInSpace (.write a v) = true :=
  decide_eq_true h

theorem Sound.drawn {s : State} (h : Sound s) : Sound (drawn s) := { h with }

theorem Sound.logged {s : State} (h : Sound s) {x : Access} (hx : accessInSpace x = true) : Sound (logged x s) :=
  { h with accessesOk := List.forall_mem_cons.mpr ⟨hx, h.accessesOk⟩ }

theorem Sound.stored {s : State} (h : Sound s) {a : Nat} (ha : a < Config.dataSpace) (v : Byte) :
    Sound (stored a v s) :=
  { h with
    memOk := memWrite_wf s.mem a v ha h.memOk
    coherentClean := fun hc => by
      rw [stored_hostStale, if_pos (by simpa using hc)]
      exact h.coherentClean hc }

theorem Live.drawn {s : State} (h : Live s) : Live (drawn s) := { h with toSound := h.toSound.drawn }

theorem Live.logged {s : State} (h : Live s) {x : Access} (hx : accessInSpace x = true) : Live (logged x s) :=
  { h with toSound := h.toSound.logged hx }

theorem Live.stored {s : State} (h : Live s) {a : Nat} (ha : a < Config.dataSpace) (v : Byte) : Live (stored a v s) :=
  { h with toSound := h.toSound.stored ha v }

/-- The progress registers and the phase are no part of what holds whatever runs. -/
theorem Live.progress {s : State} (h : Live s) (count : Word) (bits : Quad) (r : Run) :
    Live { s with outCount := count, outBits := bits, run := r } := { h with }

/-! ## The ranges of the running command (R68) -/

theorem inSource_eq {s : State} {i : Instr} (h : runningInstr s.run = some i) (x : Nat) :
    inSource s x = inRange x s.lat.srcAddr.toNat (sourceLen i s.lat) := by
  simp [inSource, h]

theorem inDest_eq {s : State} {i : Instr} (h : runningInstr s.run = some i) (x : Nat) :
    inDest s x = inRange x s.lat.dstAddr.toNat (destLen i s.lat) := by
  simp [inDest, h]

theorem lt_of_inRange {x a len : Nat} (hr : rangeOK a len = true) (hx : inRange x a len = true) :
    x < Config.dataSpace := by
  simp only [rangeOK, inRange, decide_eq_true_eq] at hr hx
  omega

/-- DECODE has input left where it is not at its end. -/
theorem outBits_lt_inBits {b n : Quad} (hle : b.toNat ≤ n.toNat) (hne : b ≠ n) : b.toNat < n.toNat :=
  lt_of_le_of_ne hle fun h => hne (BitVec.eq_of_toNat_eq h)

/-- R119: a command reads in its source range, which is inside the data space. -/
theorem Reads.inSource {s : State} {a : Nat} {k : State → Byte → State} (h : Reads s a k) (hinv : Inv s) :
    inSource s a = true ∧ a < Config.dataSpace := by
  have hrun := hinv.running
  suffices hin : Machine.inSource s a = true ∧ ∃ i, runningInstr s.run = some i ∧ RangesOk i s by
    obtain ⟨hin, i, hi, hsrc, -⟩ := hin
    exact ⟨hin, lt_of_inRange hsrc (by rwa [← inSource_eq hi])⟩
  cases h with
  | fcount hr hmore =>
    simp only [RunOk, hr] at hrun
    refine ⟨?_, .fcount, by rw [hr]; rfl, hrun.1⟩
    rw [inSource_eq (i := .fcount) (by rw [hr]; rfl)]
    simpa [inRange, sourceLen] using hmore
  | encode hr hmore =>
    simp only [RunOk, hr] at hrun
    refine ⟨?_, .encode, by rw [hr]; rfl, hrun.1⟩
    rw [inSource_eq (i := .encode) (by rw [hr]; rfl)]
    simpa [inRange, sourceLen] using hmore
  | decode hr hint hmore hwhole =>
    simp only [RunOk, hr] at hrun
    obtain ⟨hranges, -, -, -, hbits, -⟩ := hrun
    refine ⟨?_, .decode, by rw [hr]; rfl, hranges⟩
    rw [inSource_eq (i := .decode) (by rw [hr]; rfl)]
    simpa [inRange, sourceLen] using div_lt_bytesOfBits (outBits_lt_inBits hbits hmore)

/-- R119: a command writes in its destination range, which is inside the data space. -/
theorem Writes.inDest {s t : State} {a : Nat} {v : Byte} {k : State → State} (h : Writes s t a v k) (hinv : Inv s) :
    inDest s a = true ∧ a < Config.dataSpace := by
  have hrun := hinv.running
  suffices hin : Machine.inDest s a = true ∧ ∃ i, runningInstr s.run = some i ∧ RangesOk i s by
    obtain ⟨hin, i, hi, -, hdst, -⟩ := hin
    exact ⟨hin, lt_of_inRange hdst (by rwa [← inDest_eq hi])⟩
  cases h with
  | fullByte hr hwhole hroom =>
    simp only [RunOk, hr] at hrun
    refine ⟨?_, .encode, by rw [hr]; rfl, hrun.1⟩
    rw [inDest_eq (i := .encode) (by rw [hr]; rfl)]
    simpa [inRange, destLen] using hroom
  | lastByte hr hroom =>
    simp only [RunOk, hr] at hrun
    refine ⟨?_, .encode, by rw [hr]; rfl, hrun.1⟩
    rw [inDest_eq (i := .encode) (by rw [hr]; rfl)]
    simpa [inRange, destLen] using hroom
  | symbol hr =>
    simp only [RunOk, hr] at hrun
    obtain ⟨hranges, -, hcap, -, -, hwalk⟩ := hrun
    refine ⟨?_, .decode, by rw [hr]; rfl, hranges⟩
    rw [inDest_eq (i := .decode) (by rw [hr]; rfl)]
    simpa [inRange, destLen] using (hwalk _ rfl).2.trans_le hcap

/-! ## The beginning of a command -/

theorem freqSum_zeros : freqSum (Vector.replicate 256 0) = 0 := by
  rw [← countsOf_nil]
  exact freqSum_countsOf (Nat.two_pow_pos 32)

/-- R119: a command whose checks pass begins its pseudocode. -/
theorem Live.enterMain {s : State} {i : Instr} (h : Live s) (hrun : s.run = .start i) (hok : RunOk s)
    (hpass : firstFailure i s = none) : Inv (enterMain i s) := by
  obtain ⟨hstate, hsrc, hdst, hapart, hcap⟩ := firstFailure_eq_none_iff.mp hpass
  simp only [RunOk, hrun] at hok
  obtain ⟨hcount, hbits, htables, hcodes⟩ := hok
  have hranges : RangesOk i s := ⟨hsrc, hdst, hapart⟩
  cases i with
  | nop => exact h.complete
  | fcount =>
    obtain ⟨htree, hcv⟩ := htables (.inl rfl)
    have hlive : Live (enterFcount s) :=
      { h with
        countsFit := freqSum_zeros.trans_lt (Nat.two_pow_pos 32)
        treeOfFreq := fun ht => by simp [htree] at ht }
    refine hlive.inv ⟨hranges, htree, hcv, ?_, hbits, ?_⟩
    · simp [hcount]
    · exact freqSum_zeros.trans (by simp [hcount])
  | build =>
    obtain ⟨htree, hcv⟩ := htables (.inr rfl)
    have hlive : Live (enterBuild s) :=
      { h with
        treeOfFreq := fun ht => by simp [htree] at ht
        codesOfTree := fun hc => by simp [hcv] at hc }
    exact hlive.inv ⟨htree, hcv, hcount, hbits, by omega, s.nodes, rfl⟩
  | gencode =>
    have htree : s.treeValid = true := by simpa [checkState] using hstate
    exact (h.progress s.outCount s.outBits _).inv
      ⟨htree, hcodes rfl, hcount, hbits, by omega, codesOf_zero _ _⟩
  | encode =>
    have hcv : s.codesValid = true := by simpa [checkState] using hstate
    refine (h.progress s.outCount s.outBits _).inv ⟨hranges, hcv, Nat.zero_le _, ?_, ?_, ?_⟩
    · simp [hcount]
    · simp [hcount, hbits]
    · simp
  | decode =>
    have htree : s.treeValid = true := by simpa [checkState] using hstate
    refine (h.progress s.outCount s.outBits _).inv ⟨hranges, htree, ?_, ?_, ?_, ?_⟩
    · simpa [capacityOK] using hcap
    · simp [hcount]
    · simp [hbits]
    · simp

/-! ## One step of the engine -/

/-- R130: one more byte counted is one more in the sum, while the sum fits. -/
theorem freqSum_count (freq : Vector Word 256) {i : Nat} (hi : i < 256) (hfit : freqSum freq < 2 ^ 32 - 1) :
    freqSum (freq.setIfInBounds i ((freq[i]?).getD 0 + 1)) = freqSum freq + 1 := by
  have hlen : i < (freq.toList.map BitVec.toNat).length := by rwa [List.length_map, Vector.length_toList]
  have hget : (freq.toList.map BitVec.toNat)[i] = freq[i].toNat := by
    rw [List.getElem_map, Vector.getElem_toList]
  have hold := List.sum_set (freq.toList.map BitVec.toNat) i freq[i].toNat
  have hnew := List.sum_set (freq.toList.map BitVec.toNat) i (freq[i].toNat + 1)
  rw [← hget, List.set_getElem_self, if_pos hlen, hget] at hold
  rw [if_pos hlen] at hnew
  unfold freqSum at hfit ⊢
  have hentry : (freq[i] + 1).toNat = freq[i].toNat + 1 := by bv_omega
  rw [Vector.getElem?_eq_getElem hi, Option.getD_some, Vector.toList_setIfInBounds, List.map_set, hentry]
  omega

/-- R171: a bit of the code goes to its place in the partial byte, and the places after it stay 0. -/
theorem partialByte_append {acc : Byte} {pos : Nat} (b : Bool) (hpart : (pos + 1) % 8 ≠ 0)
    (h : ∀ j, pos % 8 ≤ j → j < 8 → acc.getLsbD (7 - j) = false) :
    ∀ j, (pos + 1) % 8 ≤ j → j < 8 → (setStreamBit acc pos b).getLsbD (7 - j) = false := by
  intro j hj hj'
  have hbit := streamBit_setStreamBit acc pos j b
  rw [if_neg (by omega)] at hbit
  simp only [streamBit, Nat.mod_eq_of_lt hj'] at hbit
  rw [hbit]
  exact h j (by omega) hj'

/-- R191: below an internal node of the tree the walk stays in the tree. -/
theorem childOf_le_root {freq : Vector Word 256} {nodes : Vector Node 511} (ht : IsTreeOf freq nodes) {n : Nat}
    (hint : 256 ≤ n) (hn : n ≤ Config.root) (b : Bool) : childOf nodes n b ≤ Config.root := by
  obtain ⟨active, h, -⟩ := exists_forest_of_isTreeOf ht
  exact (h.childOf_lt b hint hn).le.trans hn

/-- R190: consuming a bit at an internal node keeps the progress of DECODE. -/
theorem runOk_consumeBit {s : State} {n : Nat} {cur : Byte} (hok : RunOk s) (hrun : s.run = .decode (some n) cur)
    (ht : IsTreeOf s.freq s.nodes) (hint : 256 ≤ n) (hmore : s.outBits ≠ s.lat.inBits) (v : Byte) :
    RunOk (consumeBit n s v) := by
  simp only [RunOk, hrun] at hok
  obtain ⟨hranges, htree, hcap, hcount, hbits, hwalk⟩ := hok
  have hlt := outBits_lt_inBits hbits hmore
  obtain ⟨hn, hsym⟩ := hwalk n rfl
  refine ⟨hranges, htree, hcap, hcount, ?_, fun m hm => ?_⟩
  · simp only [consumeBit_outBits, consumeBit_lat]
    bv_omega
  · obtain rfl := Option.some.inj hm
    exact ⟨childOf_le_root ht hint hn _, hsym⟩

/-- R67: a read by the running command, and what it does with the byte. -/
theorem Inv.read {s : State} {a : Nat} {k : State → Byte → State} (hinv : Inv s) (h : Reads s a k) (draws : Nat)
    (v : Byte) : Inv (k (afterRead a draws s) v) := by
  have hlive : Live (afterRead a draws s) :=
    { hinv.live h.busy with
      accessesOk := List.forall_mem_cons.mpr ⟨accessInSpace_read (h.inSource hinv).2, hinv.accessesOk⟩ }
  have hok := hinv.running
  cases h with
  | fcount hr hmore =>
    simp only [RunOk, hr] at hok
    obtain ⟨hranges, htree, hcodes, -, hbits, hsum⟩ := hok
    have hnext : freqSum (countByte s v).freq = s.outCount.toNat + 1 :=
      (freqSum_count s.freq (symIndex_lt v) (by omega)).trans (congrArg (· + 1) hsum)
    have hcount : (s.outCount + 1).toNat = s.outCount.toNat + 1 := by bv_omega
    have hnew : Live (countByte (afterRead _ draws s) v) :=
      { hlive with
        countsFit := hnext.trans_lt (by omega)
        treeOfFreq := fun ht => absurd (htree.symm.trans ht) Bool.false_ne_true }
    refine hnew.inv ?_
    have hrun : (countByte (afterRead (s.lat.srcAddr.toNat + s.outCount.toNat) draws s) v).run = .fcount := hr
    simp only [RunOk, hrun]
    exact ⟨hranges, htree, hcodes, hcount.trans_le hmore, hbits, hnext.trans hcount.symm⟩
  | encode hr hmore =>
    simp only [RunOk, hr] at hok
    obtain ⟨hranges, hcodes, -, hcap, hbits, hacc⟩ := hok
    exact (hlive.progress s.outCount s.outBits _).inv ⟨hranges, hcodes, hmore, hcap, hbits, hacc⟩
  | decode hr hint hmore hwhole =>
    have hfull := hok
    simp only [RunOk, hr] at hfull
    exact (hlive.progress s.outCount (s.outBits + 1) _).inv
      (runOk_consumeBit hok hr (hinv.treeOfFreq hfull.2.1) hint hmore v)

/-- R113: a step without a data access. -/
theorem Inv.advance {s u : State} (hinv : Inv s) (h : Advances s u) : Inv u := by
  have hlive := hinv.live h.busy
  have hok := hinv.running
  cases h with
  | checkFails | illegalWord | padOverflows | truncated => exact hlive.raiseError _ _
  | begins hr hpass => exact hlive.enterMain hr hok hpass
  | fcountDone | encodeDone | decodeDone => exact hlive.complete
  | @merge active active' k nodes' hr hk hmerge =>
    simp only [RunOk, hr] at hok
    obtain ⟨htree, hcodes, hcount, hbits, -, old, hafter⟩ := hok
    have hnew : Live { s with nodes := nodes', run := .build active' (k + 1) } :=
      { hlive with
        treeOfFreq := fun ht => absurd (htree.symm.trans ht) Bool.false_ne_true
        codesOfTree := fun hc => absurd (hcodes.symm.trans hc) Bool.false_ne_true }
    exact hnew.inv ⟨htree, hcodes, hcount, hbits, hk, old, by simp only [treeAfter, hafter, hmerge]⟩
  | buildDone hr hk =>
    simp only [RunOk, hr] at hok
    obtain ⟨-, hcodes, -, -, hk', old, hafter⟩ := hok
    obtain rfl := Nat.le_antisymm hk' hk
    have hnew : Live { s with treeValid := true } :=
      { hlive with
        codesNeedTree := fun _ => rfl
        treeOfFreq := fun _ => ⟨old, _, hafter⟩ }
    exact hnew.complete
  | @nextLeaf leaf code hr hleaf hcode =>
    simp only [RunOk, hr] at hok
    obtain ⟨htree, hcodes, hcount, hbits, -, hof⟩ := hok
    have hnew : Live { s with codes := s.codes.setIfInBounds leaf code, run := .gencode (leaf + 1) } :=
      { hlive with codesOfTree := fun hc => absurd (hcodes.symm.trans hc) Bool.false_ne_true }
    exact hnew.inv ⟨htree, hcodes, hcount, hbits, hleaf, hof.set hleaf hcode⟩
  | gencodeDone hr hleaf =>
    simp only [RunOk, hr] at hok
    obtain ⟨htree, -, -, -, hleaf', hof⟩ := hok
    obtain rfl := Nat.le_antisymm hleaf' hleaf
    have hnew : Live { s with codesValid := true } :=
      { hlive with
        codesNeedTree := fun _ => htree
        codesOfTree := fun _ => hof }
    exact hnew.complete
  | appendBit hr hpart =>
    simp only [RunOk, hr] at hok
    obtain ⟨hranges, hcodes, hk, hcap, hbits, hacc⟩ := hok
    have hnext : (s.outBits + 1).toNat = s.outBits.toNat + 1 := by bv_omega
    refine (hlive.progress s.outCount (s.outBits + 1) _).inv ⟨hranges, hcodes, hk, hcap, ?_, ?_⟩
    · simp only [hnext]; omega
    · simp only [hnext]
      exact partialByte_append _ hpart hacc
  | byteOverflows => exact (hlive.progress s.outCount (s.outBits + 1) s.run).raiseError _ _
  | nextSymbol hr hmore =>
    simp only [RunOk, hr] at hok
    obtain ⟨hranges, htree, hcap, hcount, hbits, -⟩ := hok
    refine (hlive.progress s.outCount s.outBits _).inv ⟨hranges, htree, hcap, hcount, hbits, fun n hn => ?_⟩
    obtain rfl := Option.some.inj hn
    exact ⟨Nat.le_refl _, hmore⟩
  | takeBit hr hint hmore hpart =>
    have hfull := hok
    simp only [RunOk, hr] at hfull
    exact (hlive.progress s.outCount (s.outBits + 1) _).inv
      (runOk_consumeBit hok hr (hinv.treeOfFreq hfull.2.1) hint hmore _)

/-- The state that makes a write is the one before the step, but for the bit that fills the byte. -/
theorem Writes.live {s t : State} {a : Nat} {v : Byte} {k : State → State} (h : Writes s t a v k) (hinv : Inv s) :
    Live t := by
  have hlive := hinv.live h.busy
  cases h with
  | fullByte => exact hlive.progress s.outCount (s.outBits + 1) s.run
  | lastByte | symbol => exact hlive

theorem WriteAnswered.live {t w : State} {a : Nat} {v : Byte} (h : WriteAnswered t a v w) (hlive : Live t)
    (ha : a < Config.dataSpace) : Live w := by
  have hlog : Live (logged (.write a v) t) := hlive.logged (accessInSpace_write ha v)
  cases h with
  | device => exact hlog
  | plain => exact hlog.stored ha v

theorem WriteFailed.live {t w : State} {a : Nat} {v : Byte} (h : WriteFailed t a v w) (hlive : Live t)
    (ha : a < Config.dataSpace) : Live w := by
  have hlog : Live (logged (.write a v) t) := hlive.logged (accessInSpace_write ha v)
  cases h with
  | hole => exact hlog
  | memory => exact (hlog.stored ha _).drawn

/-- The registers and arrays of the engine that a write to data memory leaves alone. -/
theorem WriteAnswered.same {t w : State} {a : Nat} {v : Byte} (h : WriteAnswered t a v w) :
    w = { t with mem := w.mem, hostStale := w.hostStale, unseen := w.unseen, accesses := w.accesses } := by
  cases h <;> rfl

/-- R67: a write by the running command that got a response without error, and what follows. -/
theorem Inv.write {s t w : State} {a : Nat} {v : Byte} {k : State → State} (hinv : Inv s) (h : Writes s t a v k)
    (hw : WriteAnswered t a v w) : Inv (k w) := by
  have hlive := hw.live (h.live hinv) (h.inDest hinv).2
  have hok := hinv.running
  rw [hw.same] at hlive ⊢
  cases h with
  | fullByte hr hwhole hroom =>
    simp only [RunOk, hr] at hok
    obtain ⟨hranges, hcodes, hk, -, hbits, -⟩ := hok
    have hnext : (s.outBits + 1).toNat = s.outBits.toNat + 1 := by bv_omega
    have hcount : (s.outCount + 1).toNat = s.outCount.toNat + 1 := by bv_omega
    refine (hlive.progress (s.outCount + 1) (s.outBits + 1) _).inv
      ⟨hranges, hcodes, hk, hcount.trans_le hroom, ?_, fun j _ _ => by simp⟩
    simp only [hnext, hcount]
    omega
  | lastByte => exact (hlive.progress (s.outCount + 1) s.outBits s.run).complete
  | symbol hr =>
    simp only [RunOk, hr] at hok
    obtain ⟨hranges, htree, hcap, -, hbits, hwalk⟩ := hok
    have hsym := (hwalk _ rfl).2
    have hcount : (s.outCount + 1).toNat = s.outCount.toNat + 1 := by bv_omega
    exact (hlive.progress (s.outCount + 1) s.outBits _).inv
      ⟨hranges, htree, hcap, hcount.trans_le hsym, hbits, fun _ hn => by simp at hn⟩

/-- R221: every step of the engine keeps the invariant. -/
theorem Inv.engineStep {s u : State} (hinv : Inv s) (hstep : engineStep s = some u) : Inv u := by
  cases steps_of_engineStep hstep with
  | advance h => exact hinv.advance h
  | readFails h => exact ((hinv.live h.busy).logged (accessInSpace_read (h.inSource hinv).2)).raiseError _ _
  | read h draws v => exact hinv.read h draws v
  | writeFails h hw => exact (hw.live (h.live hinv) (h.inDest hinv).2).raiseError _ _
  | write h hw => exact hinv.write h hw

theorem Inv.settle {s : State} (hinv : Inv s) : Inv (settle s) :=
  settle_keeps (fun _ _ h hs => h.engineStep hs) s hinv

/-! ## Acceptance and reset -/

/-! R111: acceptance sets no valid flag, and clears CODES_VALID with TREE_VALID. -/

theorem treeValid_of_accept {c : Word} {tree : Bool} (h : treeAfterAccept c tree = true) : tree = true := by
  unfold treeAfterAccept at h
  exact (Bool.and_eq_true_iff.mp h).1

theorem codesValid_of_accept {c : Word} {tree codes : Bool} (h : codesAfterAccept c tree codes = true) :
    codes = true ∧ treeAfterAccept c tree = tree := by
  unfold treeAfterAccept
  unfold codesAfterAccept at h
  cases hc : clearsTables c <;> simp_all

theorem Sound.accept {s : State} (h : Sound s) (hl : s.rstLow = false) (c : Word) (r : Run) : Live (accept c r s) where
  toSound :=
    { h with
      codesNeedTree := fun hc => by
        obtain ⟨hcodes, htree⟩ := codesValid_of_accept hc
        exact htree.trans (h.codesNeedTree hcodes)
      errExactlyCode := by simp
      codeDefined := by simp
      infoNeedsError := fun _ => rfl
      treeOfFreq := fun ht => h.treeOfFreq (treeValid_of_accept ht)
      codesOfTree := fun hc => h.codesOfTree (codesValid_of_accept hc).1
      racesOk := fun _ ha => absurd ha List.not_mem_nil
      coherentClean := fun hc => by
        obtain ⟨hdirty, hstale, -⟩ := h.coherentClean hc
        exact ⟨hdirty, hstale, hdirty⟩ }
  notDone := rfl
  noError := rfl
  high := hl

/-- R111: the phase after the acceptance of a word. -/
inductive FirstPhase (c : Word) : Run → Prop
  | start {i : Instr} (hc : c = encode i) : FirstPhase c (.start i)
  | illegal {e : Reject} (hill : decode c = .error e) : FirstPhase c (.illegal c)

theorem FirstPhase.busy {c : Word} {r : Run} (h : FirstPhase c r) : r ≠ .idle := by cases h <;> simp

/-- R111: FCOUNT and BUILD begin without a tree, and GENCODE without a code table. -/
theorem FirstPhase.runOk {c : Word} {r : Run} (h : FirstPhase c r) {s : State}
    (hcodes : s.codesValid = true → s.treeValid = true) : RunOk (accept c r s) := by
  cases h with
  | illegal hill => exact ⟨⟨_, hill⟩, rfl, rfl⟩
  | start hc =>
    subst hc
    refine ⟨rfl, rfl, ?_, ?_⟩
    · rintro (rfl | rfl) <;> simp [encode, treeAfterAccept, codesAfterAccept, clearsTables]
    · rintro rfl
      cases hv : s.codesValid
      · simp [codesAfterAccept, hv]
      · simp [encode, codesAfterAccept, hcodes hv]

/-- R31, R111, R115: a CMD write keeps the invariant. -/
theorem Inv.issue {s : State} (h : Inv s) {c : Word} {r : Run} (hfirst : FirstPhase c r) : Inv (issue c r s) := by
  rcases issue_cases c r s with ⟨-, heq⟩ | ⟨hl, hbusy, heq⟩ | ⟨hl, -, heq⟩ <;> rw [heq]
  · exact h
  · exact Inv.settle (s := dropCommand s) { h with lowIsReset := fun hlow => by simp [hl] at hlow }
  · exact ((h.sound.accept hl c r).inv (hfirst.runOk h.codesNeedTree)).settle

/-- R50: a reset keeps the invariant, whether `rst_n` is then low or high. -/
theorem Sound.resetRegisters {s : State} (h : Sound s) (low : Bool) :
    Inv { resetRegisters s with rstLow := low } :=
  Sound.inv_of_idle
    { h.endCommand with
      codesNeedTree := fun hc => Bool.noConfusion hc
      errExactlyCode := by simp
      codeDefined := by simp
      infoNeedsError := fun _ => rfl
      countsFit := freqSum_zeros.trans_lt (Nat.two_pow_pos 32)
      treeOfFreq := fun ht => Bool.noConfusion ht
      codesOfTree := fun hc => Bool.noConfusion hc }
    rfl (runOk_endCommand s) fun _ => resetRegisters_engineReset s

/-- R242: the write in flight is one of the running command's. -/
theorem Inv.flightLanded {s : State} (h : Inv s) : Sound (flightLanded s) := by
  rcases flightLanded_cases s with heq | heq | ⟨t, a, v, k, hmove, heq⟩ <;> rw [heq]
  · exact h.sound
  · exact h.sound.drawn
  · have hspace := ((writes_of_move hmove).inDest h).2
    exact ((h.sound.logged (accessInSpace_write hspace v)).stored hspace v).drawn

theorem Inv.resetEngine {s : State} (h : Inv s) : Inv (resetEngine s) :=
  h.flightLanded.resetRegisters (Machine.flightLanded s).rstLow

theorem Inv.resetLow {s : State} (h : Inv s) : Inv { Machine.resetEngine s with rstLow := true } :=
  h.flightLanded.resetRegisters true

/-! ## The actions of the host -/

/-- What is the host's own, and the count of free values, is no part of the invariant. -/
theorem Inv.answered {s : State} (h : Inv s) (inputs : List Input) (response : Response) (unseen : List Nat)
    (draws : Nat) : Inv { s with inputs := inputs, response := response, unseen := unseen, draws := draws } := { h with }

section
variable {s : State} {mem : List Host.Cell} {racedSrc racedDst hostDirty hostStale : List Nat}
  {unseen : List Nat} {inputs : List Input} {response : Response} {draws : Nat}

/-- The progress of a running command is not the host's, and while none runs no byte races. -/
theorem RunOk.host (h : RunOk s) (hidle : s.run = .idle → racedSrc = [] ∧ racedDst = []) :
    RunOk { s with
      mem := mem, racedSrc := racedSrc, racedDst := racedDst, hostDirty := hostDirty, hostStale := hostStale
      unseen := unseen, inputs := inputs, response := response, draws := draws } := by
  unfold RunOk at h ⊢
  cases hr : s.run with
  | idle =>
    simp only [hr] at h ⊢
    exact ⟨h.1, (hidle hr).1, (hidle hr).2, h.2.2.2⟩
  | start | illegal | fcount | build | gencode | encode | decode =>
    simp only [hr] at h ⊢
    exact h

/-- R71, R77: the host writes data memory, by a store or from its caches. -/
theorem Inv.host (h : Inv s) (hmem : memWf mem) (hidle : s.run = .idle → racedSrc = [] ∧ racedDst = [])
    (hraces : ∀ a ∈ racedDst, a < Config.dataSpace) (hdirty : ∀ a ∈ hostDirty, a < Config.dataSpace)
    (hcoherent : s.platform.coherent = true → hostDirty = [] ∧ hostStale = []) :
    Inv { s with
      mem := mem, racedSrc := racedSrc, racedDst := racedDst, hostDirty := hostDirty, hostStale := hostStale
      unseen := unseen, inputs := inputs, response := response, draws := draws } :=
  { h with
    memOk := hmem
    running := h.running.host hidle
    racesOk := hraces
    dirtyOk := hdirty
    coherentClean := fun hc => ⟨(hcoherent hc).1, (hcoherent hc).2, (h.coherentClean hc).2.2⟩ }

end

theorem RunOk.raced_idle {s : State} (h : RunOk s) (hr : s.run = .idle) : s.racedSrc = [] ∧ s.racedDst = [] := by
  simp only [RunOk, hr] at h
  exact ⟨h.2.1, h.2.2.1⟩

theorem not_inRanges_idle {s : State} (hr : s.run = .idle) (a : Nat) : inSource s a = false ∧ inDest s a = false := by
  simp [inSource, inDest, hr, runningInstr]

theorem forall_mem_addAddr {P : Nat → Prop} {a : Nat} {l : List Nat} (ha : P a) (hl : ∀ x ∈ l, P x) :
    ∀ x ∈ addAddr a l, P x := by
  intro x hx
  rcases mem_addAddr.mp hx with rfl | hx
  · exact ha
  · exact hl x hx

/-- R71, R74: a store of the host keeps the invariant. -/
theorem Inv.hostStore {s : State} (h : Inv s) (a : Nat) (v : Byte) : Inv (hostStore a v s) := by
  by_cases hbyte : a < Config.dataSpace ∧ holdsByte (kindAt s.platform a) = true
  · obtain ⟨ha, hholds⟩ := hbyte
    rw [hostStore_eq v ha hholds]
    refine h.host (memWrite_wf s.mem a v ha h.memOk) ?_ ?_ ?_ ?_
    · intro hr
      rw [(not_inRanges_idle hr a).1, (not_inRanges_idle hr a).2]
      exact h.running.raced_idle hr
    · exact iteInduction (motive := fun l => ∀ x ∈ l, x < Config.dataSpace)
        (fun _ => forall_mem_addAddr ha h.racesOk) fun _ => h.racesOk
    · exact iteInduction (motive := fun l => ∀ x ∈ l, x < Config.dataSpace)
        (fun _ => h.dirtyOk) fun _ => forall_mem_addAddr ha h.dirtyOk
    · intro hc
      obtain ⟨hdirty, hstale, -⟩ := h.coherentClean hc
      rw [if_pos hc, hdirty, hstale]
      exact ⟨rfl, rfl⟩
  · unfold Machine.hostStore
    split
    · exact h.answered ..
    · rw [if_neg fun hholds => hbyte ⟨by omega, hholds⟩]
      exact h.answered ..

theorem Inv.hostLoad {s : State} (h : Inv s) (a : Nat) : Inv (hostLoad a s) := by
  unfold Machine.hostLoad
  split
  · exact h.answered ..
  · split <;> exact h.answered ..

/-- R77: a clean keeps the invariant. -/
theorem Inv.hostClean {s : State} (h : Inv s) (a len : Nat) : Inv (hostClean a len s) := by
  unfold Machine.hostClean
  refine h.host
    (scrambled_wf _ _ _ (fun x hx => h.dirtyOk x (List.mem_of_mem_filter hx)) h.memOk) ?_ ?_ ?_ ?_
  · intro hr
    obtain ⟨hsrc, hdst⟩ := h.running.raced_idle hr
    refine ⟨hsrc, List.append_eq_nil_iff.mpr ⟨List.filter_eq_nil_iff.mpr fun x _ => ?_, hdst⟩⟩
    simp [(not_inRanges_idle hr x).2]
  · intro x hx
    rcases List.mem_append.mp hx with hx | hx
    · exact h.dirtyOk x (List.mem_of_mem_filter hx)
    · exact h.racesOk x hx
  · exact fun x hx => h.dirtyOk x (List.mem_of_mem_filter hx)
  · intro hc
    obtain ⟨hdirty, hstale, -⟩ := h.coherentClean hc
    rw [hdirty]
    exact ⟨rfl, hstale⟩

/-- R77: an invalidate keeps the invariant. -/
theorem Inv.hostInvalidate {s : State} (h : Inv s) (a len : Nat) : Inv (hostInvalidate a len s) := by
  unfold Machine.hostInvalidate
  refine h.host
    (scrambled_wf _ _ _ (fun x hx => h.dirtyOk x (List.mem_of_mem_filter hx)) h.memOk) h.running.raced_idle h.racesOk
    (fun x hx => h.dirtyOk x (List.mem_of_mem_filter hx)) ?_
  intro hc
  obtain ⟨hdirty, hstale, -⟩ := h.coherentClean hc
  rw [hdirty, hstale]
  exact ⟨rfl, rfl⟩

/-- R39: everything a register write can do. -/
theorem writeRegister_induction {P : State → Prop} {s : State} (off : Nat) (v : Word) (hnone : P s)
    (hctrl : s.rstLow = false → P (writeCtrl v s)) (hstatus : s.rstLow = false → P (writeStatus v s))
    (hparams : s.rstLow = false → ∀ p, P { s with params := p }) : P (writeRegister off v s) := by
  unfold writeRegister
  refine iteInduction (fun _ => hnone) fun hlow => ?_
  have hl : s.rstLow = false := Bool.eq_false_iff.mpr hlow
  refine iteInduction (fun _ => hctrl hl) fun _ => iteInduction (fun _ => hstatus hl) fun _ => ?_
  iterate 7 refine iteInduction (fun _ => hparams hl _) fun _ => ?_
  exact hnone

/-- R39, R241: a register write keeps the invariant. -/
theorem Inv.writeRegister {s : State} (h : Inv s) (off : Nat) (v : Word) : Inv (writeRegister off v s) := by
  have hhigh : s.rstLow = false → s.rstLow = true → False := fun hl hlow => Bool.false_ne_true (hl.symm.trans hlow)
  refine writeRegister_induction off v h (fun hl => ?_) (fun hl => ?_) fun hl p => ?_
  · unfold writeCtrl
    split
    · exact h.resetEngine
    · exact { h with lowIsReset := fun hlow => (hhigh hl hlow).elim }
  · exact
      { h with
        doneNotBusy := fun hd => h.doneNotBusy (Bool.and_eq_true_iff.mp hd).1
        lowIsReset := fun hlow => (hhigh hl hlow).elim }
  · exact { h with lowIsReset := fun hlow => (hhigh hl hlow).elim }

theorem Inv.readRegister {s : State} (h : Inv s) (off : Nat) : Inv (readRegister s off).2 := by
  unfold Machine.readRegister
  split
  · exact h.answered s.inputs s.response s.unseen (s.draws + 1)
  · exact h

theorem Inv.noteRead {s : State} (h : Inv s) (off : Nat) : Inv (noteRead off s) := by
  unfold Machine.noteRead
  split
  · exact h.answered ..
  · exact h

theorem Inv.portRead {s : State} (h : Inv s) (addr width : Nat) : Inv (portRead addr width s) := by
  unfold Machine.portRead
  dsimp only
  split
  · exact h.answered ..
  · split
    · exact h.answered ..
    · exact ((h.readRegister _).noteRead _).answered ..

theorem Inv.pollStatus {s : State} (h : Inv s) : Inv (pollStatus s) := (h.readRegister offSTATUS).answered ..

/-! ## The step -/

/-- An event leaves a state of the invariant, and only four byte lanes come to CMD (R61). -/
def Event.Keeps : Event → Prop
  | .quiet t => Inv t
  | .command lanes t => Inv t ∧ lanes.length = 4

theorem Inv.portWrite {s : State} (h : Inv s) (addr : Nat) (lanes : List Byte) : (portWrite addr lanes s).Keeps := by
  unfold Machine.portWrite
  dsimp only
  split
  · exact Inv.settle (h.answered s.inputs .none s.unseen s.draws)
  · split
    · exact Inv.settle (h.answered s.inputs .busError s.unseen s.draws)
    · split
      · rename_i haccepts _
        simp only [portAccepts, Bool.not_eq_true, Bool.not_eq_false', Bool.and_eq_true, beq_iff_eq] at haccepts
        exact ⟨h.answered s.inputs .written s.unseen s.draws, haccepts.1⟩
      · exact Inv.settle (Inv.writeRegister (h.answered s.inputs .written s.unseen s.draws) _ _)

theorem Inv.deliver {s : State} (h : Inv s) (act : HostAct) : (deliver act s).Keeps := by
  cases act with
  | write addr lanes => exact h.portWrite addr lanes
  | read addr width => exact (h.portRead addr width).settle
  | store a v => exact (h.hostStore a v).settle
  | load a => exact (h.hostLoad a).settle
  | clean a len => exact (h.hostClean a len).settle
  | invalidate a len => exact (h.hostInvalidate a len).settle
  | resetLow => exact h.resetLow
  | resetHigh => exact Inv.settle (s := { s with rstLow := false }) { h with lowIsReset := fun hl => Bool.noConfusion hl }

theorem Inv.nextEvent {s : State} (h : Inv s) : (nextEvent s).Keeps := by
  have hnext : ∀ {u : State}, Inv u → ∀ rest, Inv { u with inputs := rest } := fun hu rest =>
    hu.answered rest _ _ _
  unfold Machine.nextEvent
  cases s.inputs with
  | nil => exact h.settle
  | cons i rest =>
    obtain ⟨due, act⟩ := i
    cases due with
    | after | during => exact (hnext h rest).deliver act
    | wait =>
      simp only
      split_ifs
      · exact (hnext h.pollStatus rest).deliver act
      · exact h.pollStatus.settle
    | waitOk =>
      simp only
      split_ifs
      · exact hnext h.pollStatus []
      · exact (hnext h.pollStatus rest).deliver act
      · exact h.pollStatus.settle

/-- R31: the phase in which the word on four lanes is accepted. -/
theorem firstPhase_of_decodeLanes {lanes : List Byte} (hlen : lanes.length = 4) {e : Reject}
    (h : decodeLanes lanes = .error e) : FirstPhase (issuedWord lanes) (.illegal (issuedWord lanes)) := by
  match lanes, hlen with
  | [b0, b1, b2, b3], _ => exact .illegal h

/-- Settles O56: the host's action keeps the invariant, and so does each step of the engine up to the next one. -/
theorem stepKeepsInvariant : Obligations.StepKeepsInvariant := by
  intro s t h hstep
  have hev := h.nextEvent
  unfold step at hstep
  cases hn : nextEvent s with
  | quiet u =>
    rw [hn] at hev hstep
    cases hstep
    exact hev
  | command lanes u =>
    rw [hn] at hev hstep
    obtain ⟨hu, hlen⟩ := hev
    cases hd : decodeLanes lanes with
    | ok i =>
      simp only [hd, exec_eq_issue] at hstep
      cases hstep
      exact hu.issue (.start rfl)
    | error e =>
      simp only [hd] at hstep
      cases hstep
      exact hu.issue (firstPhase_of_decodeLanes hlen hd)

/-- Settles O55: nothing is stored, no flag is set and every count is 0. -/
theorem resetMeetsInvariant : Obligations.ResetMeetsInvariant := by
  refine Sound.inv_of_idle (s := State.reset) ?_ rfl ⟨rfl, rfl, rfl, rfl⟩ fun hl => Bool.noConfusion hl
  exact
    { memOk := memWf_nil
      codesNeedTree := fun hc => Bool.noConfusion hc
      errExactlyCode := by simp [State.reset]
      codeDefined := by simp [State.reset]
      infoNeedsError := fun _ => rfl
      countsFit := freqSum_zeros.trans_lt (Nat.two_pow_pos 32)
      treeOfFreq := fun ht => Bool.noConfusion ht
      codesOfTree := fun hc => Bool.noConfusion hc
      accessesOk := fun _ hx => absurd hx List.not_mem_nil
      racesOk := fun _ hx => absurd hx List.not_mem_nil
      dirtyOk := fun _ hx => absurd hx List.not_mem_nil
      coherentClean := fun _ => ⟨rfl, rfl, rfl⟩ }

end Sys2Proof.Machine
end

section
/-! PROOF. What a running command reads (spec/40_command.md R112): the parameter registers do not reach it. -/

namespace Sys2Proof.Machine

/-- The state with other parameter registers. -/
def withParams (p : Params) (s : State) : State := { s with params := p }

section
variable (p : Params) (s : State)

/-- A move with other parameter registers. -/
def Move.withParams : Move → Move
  | .rest => .rest
  | .advance t => .advance (Machine.withParams p t)
  | .read t a k => .read (Machine.withParams p t) a k
  | .write t a v k => .write (Machine.withParams p t) a v k

theorem moveStart_withParams (i : Instr) : moveStart i (withParams p s) = (moveStart i s).withParams p := by
  have hchecks : firstFailure i (withParams p s) = firstFailure i s := rfl
  unfold moveStart
  rw [hchecks]
  cases firstFailure i s with
  | some _ => rfl
  | none => cases i <;> rfl

theorem Move.withParams_ite {c : Prop} [Decidable c] {m m' n n' : Move} (hm : m = m'.withParams p)
    (hn : n = n'.withParams p) : (if c then m else n) = (if c then m' else n').withParams p := by
  split <;> assumption

theorem moveFcount_withParams : moveFcount (withParams p s) = (moveFcount s).withParams p :=
  Move.withParams_ite p rfl rfl

theorem moveBuild_withParams (active : List Key) (k : Nat) :
    moveBuild active k (withParams p s) = (moveBuild active k s).withParams p := by
  have hnodes : (withParams p s).nodes = s.nodes := rfl
  unfold moveBuild
  rw [hnodes]
  refine Move.withParams_ite p ?_ rfl
  cases mergeOnce k s.nodes active <;> rfl

theorem moveGencode_withParams (leaf : Nat) :
    moveGencode leaf (withParams p s) = (moveGencode leaf s).withParams p := by
  have hnodes : (withParams p s).nodes = s.nodes := rfl
  unfold moveGencode
  rw [hnodes]
  refine Move.withParams_ite p ?_ rfl
  cases leafCode s.nodes leaf <;> rfl

theorem emitByte_withParams (acc : Byte) (k : State → State) :
    emitByte acc (withParams p s) k = (emitByte acc s k).withParams p :=
  Move.withParams_ite p rfl rfl

theorem moveEncode_withParams (k : Nat) (acc : Byte) (code : List Bool) :
    moveEncode k acc code (withParams p s) = (moveEncode k acc code s).withParams p := by
  cases code with
  | cons b rest => exact Move.withParams_ite p (emitByte_withParams p { s with outBits := s.outBits + 1 } _ _) rfl
  | nil => exact Move.withParams_ite p rfl (Move.withParams_ite p (emitByte_withParams p s acc complete) rfl)

theorem moveDecode_withParams (walk : Option Nat) (cur : Byte) :
    moveDecode walk cur (withParams p s) = (moveDecode walk cur s).withParams p := by
  cases walk with
  | none => exact Move.withParams_ite p rfl rfl
  | some n =>
    exact Move.withParams_ite p (Move.withParams_ite p rfl (Move.withParams_ite p rfl rfl)) rfl

/-- R112: what a command does next does not depend on the parameter registers. -/
theorem move_withParams : move (withParams p s) = (move s).withParams p := by
  have hrun : (withParams p s).run = s.run := rfl
  unfold move
  rw [hrun]
  cases s.run with
  | idle | illegal => rfl
  | start i => exact moveStart_withParams p s i
  | fcount => exact moveFcount_withParams p s
  | build active k => exact moveBuild_withParams p s active k
  | gencode leaf => exact moveGencode_withParams p s leaf
  | encode k acc code => exact moveEncode_withParams p s k acc code
  | decode walk cur => exact moveDecode_withParams p s walk cur

/-- R74: which host stores are ahead depends on the command and the platform alone. -/
theorem storeAhead_congr {s t : State} (hp : t.platform = s.platform) (hr : runningInstr t.run = runningInstr s.run)
    (hl : t.lat = s.lat) (inputs : List Input) (a : Nat) : storeAhead t inputs a = storeAhead s inputs a := by
  induction inputs with
  | nil => rfl
  | cons i rest ih => simp only [storeAhead, duringAhead_congr hp hr hl, hp, ih]

theorem clouded_withParams (a : Nat) : clouded (withParams p s) a = clouded s a := by
  have hahead : storeAhead (withParams p s) s.inputs a = storeAhead s s.inputs a :=
    storeAhead_congr (s := s) (t := withParams p s) rfl rfl rfl _ _
  unfold clouded
  rw [← hahead]
  rfl

theorem respondRead_withParams (a : Nat) (k : State → Byte → State)
    (hk : ∀ u v, k (withParams p u) v = withParams p (k u v)) :
    respondRead (withParams p s) a k = (respondRead s a k).map (withParams p) := by
  have hkind : kindAt (withParams p s).platform a = kindAt s.platform a := rfl
  simp only [respondRead, hkind, clouded_withParams]
  cases kindAt s.platform a with
  | memory | writeError =>
    simp only
    split_ifs
    · exact congrArg some (hk (drawn (logged (.read a) s)) _)
    · exact congrArg some (hk (logged (.read a) s) _)
  | device => exact congrArg some (hk (drawn (logged (.read a) s)) _)
  | readError | hole | silent => rfl

theorem respondWrite_withParams (a : Nat) (v : Byte) (k : State → State)
    (hk : ∀ u, k (withParams p u) = withParams p (k u)) :
    respondWrite (withParams p s) a v k = (respondWrite s a v k).map (withParams p) := by
  have hkind : kindAt (withParams p s).platform a = kindAt s.platform a := rfl
  simp only [respondWrite, hkind]
  cases kindAt s.platform a with
  | memory | readError => exact congrArg some (hk (stored a v (logged (.write a v) s)))
  | device => exact congrArg some (hk (logged (.write a v) s))
  | writeError | hole | silent => rfl

theorem engineStep_withParams : engineStep (withParams p s) = (engineStep s).map (withParams p) := by
  have hof := move_of s
  unfold engineStep
  rw [move_withParams]
  cases hm : move s with
  | rest | advance => rfl
  | read t a k =>
    rw [hm] at hof
    refine respondRead_withParams p t a k fun u v => ?_
    cases hof.2 <;> rfl
  | write t a v k =>
    rw [hm] at hof
    refine respondWrite_withParams p t a v k fun u => ?_
    cases (hof : Writes s t a v k) <;> rfl

end

/-- Settles O41, by induction on the number of steps. -/
theorem parameterWritesDoNotDisturb : Obligations.ParameterWritesDoNotDisturb := by
  intro s p n
  change runEngine n (withParams p s) = withParams p (runEngine n s)
  induction n generalizing s with
  | zero => rfl
  | succ n ih =>
    simp only [runEngine, engineStep_withParams]
    cases engineStep s with
    | none => rfl
    | some t => exact ih t

end Sys2Proof.Machine
end

section
/-! PROOF. What a command leaves alone (spec/40_command.md R122; spec/60_exceptions.md R220): each step of a command keeps
the host's side, the arrays and flags that are not the command's, and, unless it is ENCODE or DECODE, every byte of
memory. -/

namespace Sys2Proof.Machine

/-! ## What each step of a command keeps -/

/-- This command reads no buffer (R122). -/
def NoSource (i : Instr) : Prop := i = .nop ∨ i = .build ∨ i = .gencode

/-- This command writes no buffer (R122). -/
def NoDest (i : Instr) : Prop := i ≠ .encode ∧ i ≠ .decode

/-- Command `i`, accepted in state `s` (the state after its acceptance), has come to state `u`, running or ended. -/
structure Follows (i : Instr) (s u : State) : Prop where
  host : SameHostSide s u
  lastcmd : u.lastcmd = s.lastcmd
  noRaces : u.racedDst = []
  phase : (u.run = .idle ∧ u.done = true) ∨ (runningInstr u.run = some i ∧ u.done = false ∧ u.lat = s.lat)
  freq : i ≠ .fcount → u.freq = s.freq
  nodes : i ≠ .build → u.nodes = s.nodes
  codes : i ≠ .gencode → u.codes = s.codes
  treeValid : i ≠ .build → u.treeValid = s.treeValid
  codesValid : i ≠ .gencode → u.codesValid = s.codesValid
  memory : NoDest i → u.mem = s.mem ∧ u.hostStale = s.hostStale ∧ u.unseen = s.unseen ∧ u.outBits = s.outBits
  quiet : NoSource i → u.outCount = s.outCount ∧ u.accesses = s.accesses ∧ u.draws = s.draws

section
variable {i : Instr} {s u : State}

theorem Follows.running (h : Follows i s u) (hbusy : u.run ≠ .idle) :
    runningInstr u.run = some i ∧ u.done = false ∧ u.lat = s.lat :=
  h.phase.resolve_left fun hend => hbusy hend.1

/-- R48: the end of a command without races writes nothing but its phase and the hidden state. -/
theorem mem_draws_endCommand (hraced : u.racedDst = []) :
    (endCommand u).mem = u.mem ∧ (endCommand u).draws = u.draws := by
  simp [hraced, scrambled]

theorem Follows.complete (h : Follows i s u) : Follows i s (complete u) := by
  obtain ⟨hmem, hdraws⟩ := mem_draws_endCommand h.noRaces
  exact
    { h with
      noRaces := rfl
      phase := .inl ⟨rfl, rfl⟩
      memory := fun hi => ⟨hmem.trans (h.memory hi).1, (h.memory hi).2⟩
      quiet := fun hi => ⟨(h.quiet hi).1, (h.quiet hi).2.1, hdraws.trans (h.quiet hi).2.2⟩ }

theorem Follows.raiseError (h : Follows i s u) (e : ErrorCode) (info : Word) : Follows i s (raiseError e info u) :=
  { h.complete with }

theorem Follows.enterMain (h : Follows i s u) (hrun : u.run = .start i) : Follows i s (enterMain i u) := by
  obtain ⟨-, hdone, hlat⟩ := h.running (by simp [hrun])
  cases i with
  | nop => exact h.complete
  | fcount => exact { h with phase := .inr ⟨rfl, hdone, hlat⟩, freq := fun hne => absurd rfl hne }
  | build => exact { h with phase := .inr ⟨rfl, hdone, hlat⟩, nodes := fun hne => absurd rfl hne }
  | gencode | encode | decode => exact { h with phase := .inr ⟨rfl, hdone, hlat⟩ }

theorem Follows.advance (h : Follows i s u) {w : State} (hstep : Advances u w) : Follows i s w := by
  obtain ⟨hi, hdone, hlat⟩ := h.running hstep.busy
  cases hstep with
  | checkFails | illegalWord | padOverflows | truncated => exact h.raiseError _ _
  | fcountDone | encodeDone | decodeDone => exact h.complete
  | begins hr =>
    rw [hr] at hi
    cases hi
    exact h.enterMain hr
  | merge hr =>
    rw [hr] at hi
    cases hi
    exact { h with phase := .inr ⟨rfl, hdone, hlat⟩, nodes := fun hne => absurd rfl hne }
  | buildDone hr =>
    rw [hr] at hi
    cases hi
    exact Follows.complete (u := { u with treeValid := true }) { h with treeValid := fun hne => absurd rfl hne }
  | nextLeaf hr =>
    rw [hr] at hi
    cases hi
    exact { h with phase := .inr ⟨rfl, hdone, hlat⟩, codes := fun hne => absurd rfl hne }
  | gencodeDone hr =>
    rw [hr] at hi
    cases hi
    exact Follows.complete (u := { u with codesValid := true }) { h with codesValid := fun hne => absurd rfl hne }
  | appendBit hr =>
    rw [hr] at hi
    cases hi
    exact { h with phase := .inr ⟨rfl, hdone, hlat⟩, memory := fun hne => absurd rfl hne.1 }
  | byteOverflows hr =>
    rw [hr] at hi
    cases hi
    exact Follows.raiseError (u := { u with outBits := u.outBits + 1 })
      { h with memory := fun hne => absurd rfl hne.1 } _ _
  | nextSymbol hr =>
    rw [hr] at hi
    cases hi
    exact { h with phase := .inr ⟨rfl, hdone, hlat⟩ }
  | takeBit hr =>
    rw [hr] at hi
    cases hi
    exact { h with phase := .inr ⟨rfl, hdone, hlat⟩, memory := fun hne => absurd rfl hne.2 }

/-- R122: a read changes what a command with a source buffer may change. -/
theorem Follows.read (h : Follows i s u) {a : Nat} {k : State → Byte → State} (hread : Reads u a k) (draws : Nat)
    (v : Byte) : Follows i s (k (afterRead a draws u) v) ∧ ¬ NoSource i := by
  obtain ⟨hi, hdone, hlat⟩ := h.running hread.busy
  cases hread with
  | fcount hr =>
    rw [hr] at hi
    cases hi
    have hsource : ¬ NoSource .fcount := by simp [NoSource]
    exact ⟨{ h with
      phase := .inr ⟨congrArg runningInstr hr, hdone, hlat⟩
      freq := fun hne => absurd rfl hne
      quiet := fun hq => absurd hq hsource }, hsource⟩
  | encode hr =>
    rw [hr] at hi
    cases hi
    have hsource : ¬ NoSource .encode := by simp [NoSource]
    exact ⟨{ h with phase := .inr ⟨rfl, hdone, hlat⟩, quiet := fun hq => absurd hq hsource }, hsource⟩
  | decode hr =>
    rw [hr] at hi
    cases hi
    have hsource : ¬ NoSource .decode := by simp [NoSource]
    exact ⟨{ h with
      phase := .inr ⟨rfl, hdone, hlat⟩
      memory := fun hne => absurd rfl hne.2
      quiet := fun hq => absurd hq hsource }, hsource⟩

/-- R122: only ENCODE and DECODE write, and they have a source buffer too. -/
theorem Writes.streams {t : State} {a : Nat} {v : Byte} {k : State → State} (h : Writes u t a v k)
    (hi : runningInstr u.run = some i) : i = .encode ∨ i = .decode := by
  cases h with
  | fullByte hr | lastByte hr =>
    rw [hr] at hi
    cases hi
    exact .inl rfl
  | symbol hr =>
    rw [hr] at hi
    cases hi
    exact .inr rfl

/-- What a write to data memory leaves alone in the engine. -/
theorem WriteFailed.same {t w : State} {a : Nat} {v : Byte} (h : WriteFailed t a v w) :
    w = { t with mem := w.mem, hostStale := w.hostStale, unseen := w.unseen, accesses := w.accesses, draws := w.draws } := by
  cases h <;> rfl

/-- R122: a write to memory changes what ENCODE and DECODE may change. -/
theorem Follows.store (h : Follows i s u) (hi : i = .encode ∨ i = .decode) (mem : List Host.Cell)
    (hostStale unseen : List Nat) (accesses : List Access) (draws : Nat) (count : Word) (bits : Quad) :
    Follows i s { u with
      mem := mem, hostStale := hostStale, unseen := unseen, accesses := accesses, draws := draws
      outCount := count, outBits := bits } :=
  { h with
    memory := fun hne => (hi.elim hne.1 hne.2).elim
    quiet := fun hq => by rcases hi with rfl | rfl <;> simp [NoSource] at hq }

/-- The state that makes a write is the one before the step, but for the bit that fills the byte. -/
theorem Writes.same {t : State} {a : Nat} {v : Byte} {k : State → State} (h : Writes u t a v k) :
    t = { u with outBits := t.outBits } := by
  cases h <;> rfl

theorem Follows.writeFails (h : Follows i s u) {t w : State} {a : Nat} {v : Byte} {k : State → State}
    (hwrite : Writes u t a v k) (hw : WriteFailed t a v w) (e : ErrorCode) (info : Word) :
    Follows i s (Machine.raiseError e info w) := by
  have hi := hwrite.streams (h.running hwrite.busy).1
  rw [hw.same, hwrite.same]
  exact (h.store hi _ _ _ _ _ u.outCount _).raiseError e info

theorem Follows.write (h : Follows i s u) {t w : State} {a : Nat} {v : Byte} {k : State → State}
    (hwrite : Writes u t a v k) (hw : WriteAnswered t a v w) : Follows i s (k w) := by
  obtain ⟨hi, hdone, hlat⟩ := h.running hwrite.busy
  have hstore := h.store (hwrite.streams hi) w.mem w.hostStale w.unseen w.accesses u.draws (u.outCount + 1) t.outBits
  rw [hw.same]
  cases hwrite with
  | fullByte hr =>
    rw [hr] at hi
    cases hi
    exact { hstore with phase := .inr ⟨rfl, hdone, hlat⟩ }
  | lastByte => exact hstore.complete
  | symbol hr =>
    rw [hr] at hi
    cases hi
    exact { hstore with phase := .inr ⟨rfl, hdone, hlat⟩ }

/-- R122: every step of a command keeps what the command leaves alone. -/
theorem Follows.engineStep (h : Follows i s u) {w : State} (hstep : engineStep u = some w) : Follows i s w := by
  cases steps_of_engineStep hstep with
  | advance hadv => exact h.advance hadv
  | @readFails a k hread =>
    obtain ⟨-, hsource⟩ := h.read hread u.draws 0
    exact Follows.raiseError (u := logged (.read a) u) { h with quiet := fun hq => absurd hq hsource } _ _
  | read hread draws v => exact (h.read hread draws v).1
  | writeFails hwrite hw => exact h.writeFails hwrite hw _ _
  | write hwrite hw => exact h.write hwrite hw

end

/-! ## The commands -/

theorem Follows.refl_accept (i : Instr) (s : State) :
    Follows i (accept (encode i) (.start i) s) (accept (encode i) (.start i) s) where
  host := ⟨rfl, rfl, rfl, rfl, rfl, rfl, rfl, rfl⟩
  lastcmd := rfl
  noRaces := rfl
  phase := .inr ⟨rfl, rfl, rfl⟩
  freq _ := rfl
  nodes _ := rfl
  codes _ := rfl
  treeValid _ := rfl
  codesValid _ := rfl
  memory _ := ⟨rfl, rfl, rfl, rfl⟩
  quiet _ := ⟨rfl, rfl, rfl⟩

/-- R111, R122: at whatever point the host's next action finds it, an issued command has come from its acceptance. -/
theorem follows_of_exec {i : Instr} {s t : State} (hl : s.rstLow = false) (hi : s.run = .idle)
    (h : exec i s = .next t) : Follows i (accept (encode i) (.start i) s) t := by
  rw [exec_idle i hl hi] at h
  cases h
  exact settle_keeps (fun _ _ hf hstep => hf.engineStep hstep) _ (Follows.refl_accept i s)

/-- Settles O13: the engine is done exactly when it no longer runs the command, and IE is the host's. -/
theorem interruptFollowsCompletion : Obligations.InterruptFollowsCompletion := by
  intro i s t hl hi h
  have hf := follows_of_exec hl hi h
  have hie : t.ie = s.ie := hf.host.1
  have hdone : t.done = !busy t := by
    rcases hf.phase with ⟨hidle, hdone⟩ | ⟨hrun, hdone, -⟩
    · rw [hdone, (busy_eq_false_iff t).mpr hidle]
      rfl
    · have hbusy : t.run ≠ .idle := fun hidle => by simp [hidle, runningInstr] at hrun
      rw [hdone, (busy_eq_true_iff t).mpr hbusy]
      rfl
  rw [irq, hie, hdone]

/-- Settles O39. -/
theorem tableCommandsFrame : Obligations.TableCommandsFrame := by
  intro i s t hl hi hcmd h
  have hf := follows_of_exec hl hi h
  have hdest : NoDest i := by rcases hcmd with rfl | rfl | rfl | rfl <;> simp [NoDest]
  obtain ⟨hmem, hstale, hunseen, hbits⟩ := hf.memory hdest
  refine ⟨hf.host, fun x => congrArg (memRead · x) hmem, hstale, hunseen, hbits, hf.lastcmd, fun hne => ?_, hf.nodes,
    hf.codes, fun htree => ?_, fun hnop => ?_⟩
  · have hquiet : NoSource i := by
      rcases hcmd with rfl | rfl | rfl | rfl
      · exact .inl rfl
      · exact absurd rfl hne
      · exact .inr (.inl rfl)
      · exact .inr (.inr rfl)
    exact ⟨hf.freq hne, hf.quiet hquiet⟩
  · have hkept : t.treeValid = treeAfterAccept (encode i) s.treeValid :=
      hf.treeValid (by rcases htree with rfl | rfl <;> simp)
    rw [hkept]
    rcases htree with rfl | rfl <;> simp [treeAfterAccept, encode, clearsTables]
  · subst hnop
    have hkept : t.codesValid = codesAfterAccept (encode .nop) s.treeValid s.codesValid := hf.codesValid (by simp)
    rw [hkept]
    simp [codesAfterAccept, encode, clearsTables]

end Sys2Proof.Machine
end

section
/-! PROOF. The data accesses of a command and the bytes it stores (spec/20_memory.md R67; spec/40_command.md R122): the reads
and the writes each go up from the start of their range by one, from the acceptance of the command to its end. -/

namespace Sys2Proof.Machine

/-! ## Progress -/

/-- The bits DECODE has consumed are of its input, and it walks only while a symbol is missing. -/
def Progress (s : State) : Prop :=
  match s.run with
  | .start _ => s.outCount = 0 ∧ s.outBits = 0
  | .decode walk _ =>
    s.outBits.toNat ≤ s.lat.inBits.toNat ∧ (walk ≠ none → s.outCount.toNat < s.lat.symCount.toNat)
  | _ => True

/-- How many bytes the running command has read. -/
def readsMade (s : State) : Nat :=
  match s.run with
  | .fcount => s.outCount.toNat
  | .encode k _ _ => k
  | .decode _ _ => bytesOfBits s.outBits.toNat
  | _ => 0

/-- How many bytes the running command has written. -/
def writesMade (s : State) : Nat :=
  match s.run with
  | .encode _ _ _ => s.outCount.toNat
  | .decode _ _ => s.outCount.toNat
  | _ => 0

section
variable {u w : State}

theorem bytesOfBits_step {n : Nat} (h : n % 8 ≠ 0) : bytesOfBits (n + 1) = bytesOfBits n := by
  rw [bytesOfBits_succ, bytesOfBits_of_partial h]

/-- DECODE's bit counter does not wrap, for it is below IN_BITS. -/
theorem Progress.consume {n : Nat} {cur : Byte} (h : Progress u) (hr : u.run = .decode (some n) cur)
    (hmore : u.outBits ≠ u.lat.inBits) :
    (u.outBits + 1).toNat = u.outBits.toNat + 1 ∧ ∀ v, Progress (consumeBit n u v) := by
  simp only [Progress, hr] at h
  have hlt := outBits_lt_inBits h.1 hmore
  have hnext : (u.outBits + 1).toNat = u.outBits.toNat + 1 := by bv_omega
  exact ⟨hnext, fun v => ⟨hnext.trans_le hlt, fun _ => h.2 nofun⟩⟩

/-- A step without a data access ends the command, or leaves the counts of its accesses. -/
theorem Advances.progress (h : Advances u w) (hp : Progress u) :
    Progress w ∧ (w.run = .idle ∨ (readsMade w = readsMade u ∧ writesMade w = writesMade u)) := by
  cases h with
  | checkFails | illegalWord | fcountDone | buildDone | gencodeDone | byteOverflows | padOverflows | encodeDone
  | decodeDone | truncated => exact ⟨trivial, .inl rfl⟩
  | @begins i hr =>
    simp only [Progress, hr] at hp
    obtain ⟨hcount, hbits⟩ := hp
    cases i with
    | nop => exact ⟨trivial, .inl rfl⟩
    | fcount => exact ⟨trivial, .inr (by simp [readsMade, writesMade, enterMain, hr, hcount])⟩
    | build => exact ⟨trivial, .inr (by simp [readsMade, writesMade, enterMain, hr])⟩
    | gencode => exact ⟨trivial, .inr (by simp [readsMade, writesMade, enterMain, hr])⟩
    | encode => exact ⟨trivial, .inr (by simp [readsMade, writesMade, enterMain, hr, hcount])⟩
    | decode =>
      refine ⟨⟨by simp [enterMain, hbits], nofun⟩, .inr ?_⟩
      simp [readsMade, writesMade, enterMain, hr, hcount, hbits, bytesOfBits]
  | merge hr => exact ⟨trivial, .inr (by simp [readsMade, writesMade, hr])⟩
  | nextLeaf hr => exact ⟨trivial, .inr (by simp [readsMade, writesMade, hr])⟩
  | appendBit hr => exact ⟨trivial, .inr (by simp [readsMade, writesMade, hr])⟩
  | nextSymbol hr hmore =>
    simp only [Progress, hr] at hp
    exact ⟨⟨hp.1, fun _ => hmore⟩, .inr (by simp [readsMade, writesMade, hr])⟩
  | takeBit hr hint hmore hpart =>
    obtain ⟨hnext, hkept⟩ := hp.consume hr hmore
    refine ⟨hkept _, .inr ?_⟩
    simp only [readsMade, writesMade, hr, consumeBit_run, consumeBit_outBits, consumeBit_outCount, hnext,
      bytesOfBits_step hpart, and_self]

/-- A step without a data access leaves memory, the count of output bytes and the accesses. -/
theorem Advances.memory (h : Advances u w) (hraced : u.racedDst = []) :
    w.mem = u.mem ∧ w.outCount = u.outCount ∧ w.accesses = u.accesses := by
  cases h with
  | @begins i => cases i <;> simp [enterMain, hraced, scrambled]
  | _ => simp [hraced, scrambled]

/-- R67: a read is of the next byte of the source range, and one more byte has then been read. -/
theorem Reads.progress {a : Nat} {k : State → Byte → State} (h : Reads u a k) (hp : Progress u) :
    a = u.lat.srcAddr.toNat + readsMade u ∧ ∀ draws v, Progress (k (afterRead a draws u) v) ∧
      readsMade (k (afterRead a draws u) v) = readsMade u + 1 ∧
      writesMade (k (afterRead a draws u) v) = writesMade u := by
  cases h with
  | fcount hr hmore =>
    have hnext : (u.outCount + 1).toNat = u.outCount.toNat + 1 := by bv_omega
    refine ⟨by simp [readsMade, hr], fun draws v => ?_⟩
    have hrun : (countByte (afterRead (u.lat.srcAddr.toNat + u.outCount.toNat) draws u) v).run = .fcount := hr
    simp only [Progress, readsMade, writesMade, hrun, hr]
    exact ⟨trivial, hnext, trivial⟩
  | encode hr =>
    refine ⟨by simp [readsMade, hr], fun draws v => ⟨trivial, ?_, ?_⟩⟩
    · simp [readsMade, hr]
    · simp [writesMade, hr, afterRead]
  | decode hr hint hmore hwhole =>
    obtain ⟨hnext, hkept⟩ := hp.consume hr hmore
    refine ⟨by simp [readsMade, hr, bytesOfBits_of_whole hwhole], fun draws v => ⟨hkept v, ?_, ?_⟩⟩
    · simp only [readsMade, hr, consumeBit_run, consumeBit_outBits, afterRead, hnext, bytesOfBits_succ,
        bytesOfBits_of_whole hwhole]
    · simp [writesMade, hr, afterRead]

/-- R67: a write is of the next byte of the destination range, which does not wrap; then the command ends, or one more
byte has been written. -/
theorem Writes.progress {t : State} {a : Nat} {v : Byte} {k : State → State} (h : Writes u t a v k) (hp : Progress u) :
    a = u.lat.dstAddr.toNat + u.outCount.toNat ∧ writesMade u = u.outCount.toNat ∧
    (u.outCount + 1).toNat = u.outCount.toNat + 1 ∧
    ∀ w, WriteAnswered t a v w → Progress (k w) ∧ (k w).outCount = u.outCount + 1 ∧
      ((k w).run = .idle ∨ (readsMade (k w) = readsMade u ∧ writesMade (k w) = u.outCount.toNat + 1)) := by
  cases h with
  | fullByte hr hwhole hroom =>
    have hnext : (u.outCount + 1).toNat = u.outCount.toNat + 1 := by bv_omega
    refine ⟨rfl, by simp [writesMade, hr], hnext, fun w hw => ?_⟩
    rw [hw.same]
    exact ⟨trivial, rfl, .inr ⟨by simp [readsMade, byteEmitted, hr], hnext⟩⟩
  | lastByte hr hroom =>
    have hnext : (u.outCount + 1).toNat = u.outCount.toNat + 1 := by bv_omega
    refine ⟨rfl, by simp [writesMade, hr], hnext, fun w hw => ?_⟩
    rw [hw.same]
    exact ⟨trivial, rfl, .inl rfl⟩
  | symbol hr =>
    simp only [Progress, hr] at hp
    have hroom := hp.2 nofun
    have hnext : (u.outCount + 1).toNat = u.outCount.toNat + 1 := by bv_omega
    refine ⟨rfl, by simp [writesMade, hr], hnext, fun w hw => ?_⟩
    rw [hw.same]
    exact ⟨⟨hp.1, nofun⟩, rfl, .inr ⟨by simp [readsMade, symbolDone, hr], hnext⟩⟩

theorem Progress.engineStep (hp : Progress u) (hstep : engineStep u = some w) : Progress w := by
  cases steps_of_engineStep hstep with
  | advance h => exact (h.progress hp).1
  | readFails | writeFails => trivial
  | read h draws v => exact ((h.progress hp).2 draws v).1
  | write h hw => exact ((h.progress hp).2.2.2 _ hw).1

end

/-! ## The accesses in order (R67) -/

/-- The accesses since state `s` are `m` reads and `n` writes, each going up by one from its range's start. -/
def Traced (s : State) (m n : Nat) (accesses : List Access) : Prop :=
  ∃ made, accesses = made ++ s.accesses ∧
    readAddrs made.reverse = (List.range m).map (fun k => s.params.srcAddr.toNat + k) ∧
    writeAddrs made.reverse = (List.range n).map (fun k => s.params.dstAddr.toNat + k)

section
variable {s : State} {m n : Nat} {accesses : List Access}

theorem traced_zero (s : State) : Traced s 0 0 s.accesses := ⟨[], rfl, rfl, rfl⟩

theorem Traced.read (h : Traced s m n accesses) :
    Traced s (m + 1) n (.read (s.params.srcAddr.toNat + m) :: accesses) := by
  obtain ⟨made, rfl, hr, hw⟩ := h
  refine ⟨.read (s.params.srcAddr.toNat + m) :: made, rfl, ?_, ?_⟩
  · rw [List.reverse_cons, readAddrs, List.filterMap_append, ← readAddrs, hr, List.range_succ, List.map_append]
    rfl
  · rw [List.reverse_cons, writeAddrs, List.filterMap_append, ← writeAddrs, hw]
    exact List.append_nil _

theorem Traced.write (h : Traced s m n accesses) (v : Byte) :
    Traced s m (n + 1) (.write (s.params.dstAddr.toNat + n) v :: accesses) := by
  obtain ⟨made, rfl, hr, hw⟩ := h
  refine ⟨.write (s.params.dstAddr.toNat + n) v :: made, rfl, ?_, ?_⟩
  · rw [List.reverse_cons, readAddrs, List.filterMap_append, ← readAddrs, hr]
    exact List.append_nil _
  · rw [List.reverse_cons, writeAddrs, List.filterMap_append, ← writeAddrs, hw, List.range_succ, List.map_append]
    rfl

end

/-- Command `i`, issued in state `s`, has come to `u`: its accesses so far are in order, and while it runs as many as its
progress says. -/
structure InOrder (i : Instr) (s u : State) : Prop where
  follows : Follows i (accept (encode i) (.start i) s) u
  progress : Progress u
  traced : ∃ m n, Traced s m n u.accesses ∧ (i = .fcount → n = 0) ∧
    (u.run ≠ .idle → m = readsMade u ∧ n = writesMade u)

section
variable {i : Instr} {s u w : State}

theorem InOrder.running (h : InOrder i s u) (hbusy : u.run ≠ .idle) :
    Traced s (readsMade u) (writesMade u) u.accesses ∧ (i = .fcount → writesMade u = 0) ∧ u.lat = latch s.params := by
  obtain ⟨m, n, htr, hf, hcount⟩ := h.traced
  obtain ⟨rfl, rfl⟩ := hcount hbusy
  exact ⟨htr, hf, (h.follows.running hbusy).2.2⟩

theorem WriteAnswered.accesses_eq {t : State} {a : Nat} {v : Byte} (h : WriteAnswered t a v w) :
    w.accesses = .write a v :: t.accesses := by cases h <;> rfl

theorem WriteFailed.accesses_eq {t : State} {a : Nat} {v : Byte} (h : WriteFailed t a v w) :
    w.accesses = .write a v :: t.accesses := by cases h <;> rfl

/-- R67: one more write is in order, by a command that is not FCOUNT. -/
theorem InOrder.write (h : InOrder i s u) {t : State} {a : Nat} {v : Byte} {k : State → State} (hwrite : Writes u t a v k) :
    Traced s (readsMade u) (u.outCount.toNat + 1) (.write a v :: t.accesses) ∧ i ≠ .fcount := by
  obtain ⟨htr, -, hlat⟩ := h.running hwrite.busy
  obtain ⟨ha, hcount, -⟩ := hwrite.progress h.progress
  have hcmd := hwrite.streams (h.follows.running hwrite.busy).1
  rw [hlat] at ha
  rw [ha, hwrite.same]
  rw [hcount] at htr
  exact ⟨htr.write v, by rcases hcmd with rfl | rfl <;> simp⟩

/-- R67: every step keeps the accesses in order. -/
theorem InOrder.engineStep (h : InOrder i s u) (hstep : engineStep u = some w) : InOrder i s w := by
  refine ⟨h.follows.engineStep hstep, h.progress.engineStep hstep, ?_⟩
  cases steps_of_engineStep hstep with
  | advance hadv =>
    obtain ⟨htr, hf, -⟩ := h.running hadv.busy
    refine ⟨_, _, (hadv.memory h.follows.noRaces).2.2 ▸ htr, hf, fun hbusy => ?_⟩
    obtain ⟨hr, hw⟩ := (hadv.progress h.progress).2.resolve_left hbusy
    exact ⟨hr.symm, hw.symm⟩
  | readFails hread =>
    obtain ⟨htr, hf, hlat⟩ := h.running hread.busy
    obtain ⟨ha, -⟩ := hread.progress h.progress
    rw [ha, hlat]
    exact ⟨_, _, htr.read, hf, fun hbusy => absurd rfl hbusy⟩
  | @read a k hread draws v =>
    obtain ⟨htr, hf, hlat⟩ := h.running hread.busy
    obtain ⟨ha, hnext⟩ := hread.progress h.progress
    obtain ⟨-, hr, hw⟩ := hnext draws v
    have hacc : (k (afterRead a draws u) v).accesses = .read a :: u.accesses := by cases hread <;> rfl
    rw [hacc, ha, hlat]
    rw [hlat] at ha
    subst ha
    exact ⟨_, _, htr.read, hf, fun _ => ⟨hr.symm, hw.symm⟩⟩
  | writeFails hwrite hw =>
    obtain ⟨htr, hne⟩ := h.write hwrite
    exact ⟨_, _, hw.accesses_eq ▸ htr, fun hf => absurd hf hne, fun hbusy => absurd rfl hbusy⟩
  | @write t a v k w hwrite hw =>
    obtain ⟨htr, hne⟩ := h.write hwrite
    obtain ⟨-, -, -, hnext⟩ := hwrite.progress h.progress
    obtain ⟨-, -, hcounts⟩ := hnext w hw
    have hacc : (k w).accesses = .write a v :: t.accesses := by
      rw [← hw.accesses_eq]
      cases hwrite <;> rfl
    refine ⟨_, _, hacc ▸ htr, fun hf => absurd hf hne, fun hbusy => ?_⟩
    obtain ⟨hr, hw⟩ := hcounts.resolve_left hbusy
    exact ⟨hr.symm, hw.symm⟩

end

/-- R67, R111: at whatever point the host's next action finds it, an issued command has made its accesses in order. -/
theorem inOrder_of_exec {i : Instr} {s t : State} (hl : s.rstLow = false) (hi : s.run = .idle)
    (h : exec i s = .next t) : InOrder i s t := by
  rw [exec_idle i hl hi] at h
  cases h
  refine settle_keeps (fun _ _ ho hstep => ho.engineStep hstep) _ ⟨Follows.refl_accept i s, ⟨rfl, rfl⟩, 0, 0, ?_⟩
  exact ⟨traced_zero s, fun _ => rfl, fun _ => ⟨rfl, rfl⟩⟩

/-- Settles O14. -/
theorem accessesInOrder : Obligations.AccessesInOrder := by
  intro i s t hl hi h
  have ho := inOrder_of_exec hl hi h
  obtain ⟨m, n, ⟨made, hacc, hr, hw⟩, hf, -⟩ := ho.traced
  refine ⟨made, m, n, hacc, hr, hw, fun hq => ?_, hf⟩
  have hsame : t.accesses = s.accesses := (ho.follows.quiet hq).2.1
  exact List.append_left_eq_self.mp (hacc.symm.trans hsame)

/-! ## The bytes stored (R122) -/

/-- A write changes no other byte, whether or not memory is in canonical form. -/
theorem memRead_memWrite_ne (m : List Host.Cell) {a x : Nat} (v : Byte) (hx : x ≠ a) :
    memRead (memWrite m a v) x = memRead m x := by
  induction m with
  | nil =>
    unfold memWrite
    split <;> simp [memRead, hx.symm]
  | cons c rest ih =>
    obtain ⟨b, w⟩ := c
    unfold memWrite
    split
    · simp only [memRead, ih]
    · split
      · next heq =>
        subst heq
        split <;> simp [memRead, hx.symm]
      · split <;> simp [memRead, hx.symm]

/-- Every byte outside the OUT_COUNT bytes from DST_ADDR is as in state `s`. -/
def KeptOutside (s u : State) : Prop :=
  ∀ x, inRange x s.params.dstAddr.toNat u.outCount.toNat = false → memRead u.mem x = memRead s.mem x

/-- So is every byte but the one after them where its write got an error response. -/
def KeptButFailed (s u : State) : Prop :=
  ∀ x, inRange x s.params.dstAddr.toNat u.outCount.toNat = false →
    ¬ (x = s.params.dstAddr.toNat + u.outCount.toNat ∧ u.errcode = 8 ∧ kindAt s.platform x = .writeError) →
    memRead u.mem x = memRead s.mem x

/-- Command `i`, issued in state `s`, has come to `u`, and the bytes outside those it has written are as they were, but
for one whose write got an error response. -/
structure KeepsOthers (i : Instr) (s u : State) : Prop where
  follows : Follows i (accept (encode i) (.start i) s) u
  progress : Progress u
  running : u.run ≠ .idle → KeptOutside s u
  kept : KeptButFailed s u

section
variable {i : Instr} {s u w : State}

theorem inRange_eq_false_mono {x a m n : Nat} (hmn : m ≤ n) (h : inRange x a n = false) : inRange x a m = false := by
  simp only [inRange, decide_eq_false_iff_not] at h ⊢
  omega

theorem KeptOutside.mono (h : KeptOutside s u) (hmem : w.mem = u.mem) (hcount : u.outCount.toNat ≤ w.outCount.toNat) :
    KeptOutside s w := fun x hx => by
  rw [hmem]
  exact h x (inRange_eq_false_mono hcount hx)

theorem KeepsOthers.dst_address (h : KeepsOthers i s u) {t : State} {a : Nat} {v : Byte} {k : State → State}
    (hwrite : Writes u t a v k) : a = s.params.dstAddr.toNat + u.outCount.toNat := by
  have ha := (hwrite.progress h.progress).1
  rwa [(h.follows.running hwrite.busy).2.2] at ha

theorem Writes.same_memory {t : State} {a : Nat} {v : Byte} {k : State → State} (h : Writes u t a v k) :
    t.mem = u.mem ∧ t.outCount = u.outCount ∧ t.racedDst = u.racedDst ∧ t.platform = u.platform := by
  cases h <;> exact ⟨rfl, rfl, rfl, rfl⟩

theorem Writes.continue_mem {t : State} {a : Nat} {v : Byte} {k : State → State} (h : Writes u t a v k)
    (hraced : w.racedDst = []) : (k w).mem = w.mem := by
  cases h with
  | fullByte | symbol => rfl
  | lastByte => simp [lastEmitted, hraced, scrambled]

/-- R122, R210: a write that gets an error response changes its own byte at most. -/
theorem KeepsOthers.keptButFailed (h : KeepsOthers i s u) {t : State} {a : Nat} {v : Byte} {k : State → State}
    (hwrite : Writes u t a v k) (hw : WriteFailed t a v w) :
    KeptButFailed s (raiseError .busError (BitVec.ofNat 32 a) w) := by
  have hkept := h.running hwrite.busy
  have hraced := h.follows.noRaces
  have hplatform : u.platform = s.platform := h.follows.host.2.2.2.1
  obtain ⟨hmem, hcount, hnone, hplat⟩ := hwrite.same_memory
  intro x hx hfailed
  cases hw with
  | hole =>
    simp only [raiseError_mem, raiseError_outCount, logged_mem, logged_racedDst, logged_outCount, hnone, hraced,
      scrambled, hmem, hcount] at hx ⊢
    exact hkept x hx
  | memory hk =>
    simp only [raiseError_mem, raiseError_outCount, raiseError_errcode, drawn_mem, drawn_outCount, drawn_racedDst,
      stored_mem, stored_outCount, stored_racedDst, logged_mem, logged_racedDst, logged_outCount, hnone, hraced, scrambled,
      hmem, hcount] at hx hfailed ⊢
    have hne : x ≠ a := fun heq =>
      hfailed ⟨heq.trans (h.dst_address hwrite), rfl, by rw [heq, ← hplatform, ← hplat]; exact hk⟩
    rw [memRead_memWrite_ne _ _ hne]
    exact hkept x hx

/-- R122: a write that is answered changes the byte that OUT_COUNT then counts. -/
theorem KeepsOthers.keptOutside_of_write (h : KeepsOthers i s u) {t : State} {a : Nat} {v : Byte} {k : State → State}
    (hwrite : Writes u t a v k) (hw : WriteAnswered t a v w) : KeptOutside s (k w) := by
  have hkept := h.running hwrite.busy
  have hraced := h.follows.noRaces
  have ha := h.dst_address hwrite
  obtain ⟨hmem, -, hnone, -⟩ := hwrite.same_memory
  obtain ⟨-, -, hnext, hafter⟩ := hwrite.progress h.progress
  have hcount : (k w).outCount.toNat = u.outCount.toNat + 1 := by rw [(hafter w hw).2.1, hnext]
  intro x hx
  rw [hcount] at hx
  have hbefore := hkept x (inRange_eq_false_mono (Nat.le_succ _) hx)
  cases hw with
  | device =>
    rw [hwrite.continue_mem (by simp [hnone, hraced])]
    simpa [hmem] using hbefore
  | plain =>
    have hne : x ≠ a := by
      simp only [inRange, decide_eq_false_iff_not] at hx
      omega
    rw [hwrite.continue_mem (by simp [hnone, hraced]), stored_mem, logged_mem, hmem, memRead_memWrite_ne _ _ hne]
    exact hbefore

/-- R122: every step keeps the bytes outside those the command has written. -/
theorem KeepsOthers.engineStep (h : KeepsOthers i s u) (hstep : engineStep u = some w) : KeepsOthers i s w := by
  have hfollows := h.follows.engineStep hstep
  have hprogress := h.progress.engineStep hstep
  have hraced := h.follows.noRaces
  suffices hout : KeptOutside s w ∨ (w.run = .idle ∧ KeptButFailed s w) by
    rcases hout with hout | ⟨hidle, hkept⟩
    · exact ⟨hfollows, hprogress, fun _ => hout, fun x hx _ => hout x hx⟩
    · exact ⟨hfollows, hprogress, fun hbusy => absurd hidle hbusy, hkept⟩
  cases steps_of_engineStep hstep with
  | advance hadv =>
    obtain ⟨hmem, hcount, -⟩ := hadv.memory hraced
    exact .inl ((h.running hadv.busy).mono hmem (congrArg BitVec.toNat hcount).ge)
  | readFails hread => exact .inl ((h.running hread.busy).mono (by simp [hraced, scrambled]) le_rfl)
  | read hread draws v =>
    refine .inl ((h.running hread.busy).mono ?_ ?_)
    · cases hread <;> rfl
    · cases hread with
      | fcount hr hmore =>
        have hnext : (u.outCount + 1).toNat = u.outCount.toNat + 1 := by bv_omega
        exact (Nat.le_succ _).trans_eq hnext.symm
      | encode | decode => exact le_rfl
  | writeFails hwrite hw => exact .inr ⟨rfl, h.keptButFailed hwrite hw⟩
  | write hwrite hw => exact .inl (h.keptOutside_of_write hwrite hw)

end

/-- Settles O40: acceptance keeps memory and, for these two commands, the valid flags. -/
theorem streamCommandsFrame : Obligations.StreamCommandsFrame := by
  intro i s t hl hi hcmd h
  have haccept : KeepsOthers i s (accept (encode i) (.start i) s) :=
    ⟨Follows.refl_accept i s, ⟨rfl, rfl⟩, fun _ _ _ => rfl, fun _ _ _ => rfl⟩
  have hk : KeepsOthers i s t := by
    rw [exec_idle i hl hi] at h
    cases h
    exact settle_keeps (fun _ _ hk hstep => hk.engineStep hstep) _ haccept
  have hf := hk.follows
  obtain ⟨hnf, hnb, hng⟩ : i ≠ .fcount ∧ i ≠ .build ∧ i ≠ .gencode := by rcases hcmd with rfl | rfl <;> simp
  refine ⟨hf.host, hf.freq hnf, hf.nodes hnb, hf.codes hng, (hf.treeValid hnb).trans ?_, (hf.codesValid hng).trans ?_,
    hf.lastcmd, hk.kept⟩
  · rcases hcmd with rfl | rfl <;> simp [treeAfterAccept, encode, clearsTables]
  · rcases hcmd with rfl | rfl <;> simp [codesAfterAccept, encode, clearsTables]

end Sys2Proof.Machine
end

section
/-! PROOF. Commands come to an end (spec/40_command.md R121): a count of the steps left falls with every step of the
engine, and where every access gets a response a running command always has a next step. -/

namespace Sys2Proof.Machine

/-! ## What every step keeps -/

theorem SameHostSide.refl (s : State) : SameHostSide s s := ⟨rfl, rfl, rfl, rfl, rfl, rfl, rfl, rfl⟩

/-- R113: a step of the engine keeps the host's side, and ends the command or goes on with it. -/
theorem engineStep_frame {s w : State} (hstep : engineStep s = some w) :
    SameHostSide s w ∧ (w.run = .idle ∨ (runningInstr w.run = runningInstr s.run ∧ w.lat = s.lat)) := by
  cases steps_of_engineStep hstep with
  | advance h =>
    cases h with
    | checkFails | illegalWord | fcountDone | buildDone | gencodeDone | byteOverflows | padOverflows | encodeDone
    | decodeDone | truncated => exact ⟨SameHostSide.refl s, .inl rfl⟩
    | @begins i hr =>
      rw [hr]
      cases i with
      | nop => exact ⟨SameHostSide.refl s, .inl rfl⟩
      | _ => exact ⟨SameHostSide.refl s, .inr ⟨rfl, rfl⟩⟩
    | merge hr | nextLeaf hr | appendBit hr | nextSymbol hr | takeBit hr =>
      rw [hr]
      exact ⟨SameHostSide.refl s, .inr ⟨rfl, rfl⟩⟩
  | readFails => exact ⟨SameHostSide.refl s, .inl rfl⟩
  | read h draws v =>
    cases h with
    | fcount => exact ⟨SameHostSide.refl s, .inr ⟨rfl, rfl⟩⟩
    | encode hr | decode hr =>
      rw [hr]
      exact ⟨SameHostSide.refl s, .inr ⟨rfl, rfl⟩⟩
  | writeFails h hw =>
    rw [hw.same, h.same]
    exact ⟨SameHostSide.refl s, .inl rfl⟩
  | write h hw =>
    rw [hw.same]
    cases h with
    | fullByte hr | symbol hr =>
      rw [hr]
      exact ⟨SameHostSide.refl s, .inr ⟨rfl, rfl⟩⟩
    | lastByte => exact ⟨SameHostSide.refl s, .inl rfl⟩

/-! ## The steps left -/

/-- R121: how many steps the running command has left, if every access gets a response without error. -/
def stepsLeft (s : State) : Nat :=
  match s.run with
  | .idle => 0
  | .start i => commandBound i s
  | .illegal _ => 1
  | .fcount => s.lat.srcLen.toNat - s.outCount.toNat + 1
  | .build _ k => 256 - k
  | .gencode leaf => 257 - leaf
  | .encode k _ code => (s.lat.srcLen.toNat - k) * (longestCode s + 1) + code.length + 1
  | .decode none _ => s.lat.inBits.toNat - s.outBits.toNat + 2 * (s.lat.symCount.toNat - s.outCount.toNat) + 1
  | .decode (some _) _ => s.lat.inBits.toNat - s.outBits.toNat + 2 * (s.lat.symCount.toNat - s.outCount.toNat)

/-- R121: the model's bound on the steps of a command is one. -/
theorem stepsLeft_le_stepBound (s : State) : stepsLeft s ≤ stepBound s := by
  unfold stepsLeft stepBound
  cases hr : s.run with
  | idle | start | illegal => exact le_rfl
  | fcount | build | gencode => simp only [runningInstr, commandBound]; omega
  | encode k acc code =>
    have hmul := Nat.mul_le_mul_right (longestCode s + 1) (Nat.sub_le s.lat.srcLen.toNat k)
    simp only [commandBound]
    omega
  | decode walk cur => cases walk <;> simp only [runningInstr, commandBound] <;> omega

theorem stepsLeft_pos {s : State} (hok : RunOk s) (hbusy : s.run ≠ .idle) : 0 < stepsLeft s := by
  unfold stepsLeft
  cases hr : s.run with
  | idle => exact absurd hr hbusy
  | start i => cases i <;> simp [commandBound]
  | illegal => simp
  | fcount | encode => simp
  | build | gencode => simp only [RunOk, hr] at hok; simp only; omega
  | decode walk cur =>
    cases walk with
    | none => simp
    | some n =>
      simp only [RunOk, hr] at hok
      have := (hok.2.2.2.2.2 n rfl).2
      simp only
      omega

/-- R190: a bit consumed is one step fewer. -/
theorem stepsLeft_consumeBit {s : State} {n : Nat} {cur : Byte} (hok : RunOk s) (hr : s.run = .decode (some n) cur)
    (hmore : s.outBits ≠ s.lat.inBits) (v : Byte) : stepsLeft (consumeBit n s v) < stepsLeft s := by
  simp only [RunOk, hr] at hok
  have hlt := outBits_lt_inBits hok.2.2.2.2.1 hmore
  have hnext : (s.outBits + 1).toNat = s.outBits.toNat + 1 := by bv_omega
  simp only [stepsLeft, hr, consumeBit_run, consumeBit_lat, consumeBit_outBits, consumeBit_outCount, hnext]
  omega

/-- R121: the steps of a command without a data access. -/
theorem Advances.stepsLeft_lt {s w : State} (h : Advances s w) (hok : RunOk s) : stepsLeft w < stepsLeft s := by
  have hpos := stepsLeft_pos hok h.busy
  cases h with
  | checkFails | illegalWord | fcountDone | buildDone | gencodeDone | byteOverflows | padOverflows | encodeDone
  | decodeDone | truncated => exact hpos
  | @begins i hr =>
    simp only [RunOk, hr] at hok
    obtain ⟨hcount, hbits, -⟩ := hok
    cases i with
    | nop => exact hpos
    | fcount | build | gencode =>
      simp only [stepsLeft, hr, enterMain, enterFcount, enterBuild, enterGencode, commandBound]
      omega
    | encode => simp [stepsLeft, hr, enterMain, enterEncode, commandBound, longestCode]
    | decode => simp [stepsLeft, hr, enterMain, enterDecode, commandBound, hcount, hbits]
  | merge hr hk => simp only [stepsLeft, hr]; omega
  | nextLeaf hr hleaf => simp only [stepsLeft, hr]; omega
  | appendBit hr => simp [stepsLeft, hr, longestCode]
  | nextSymbol hr hmore => simp only [stepsLeft, hr]; omega
  | takeBit hr hint hmore => exact stepsLeft_consumeBit hok hr hmore _

/-- R121: a read takes a step, and a code it begins is no longer than the longest. -/
theorem Reads.stepsLeft_lt {s : State} {a : Nat} {k : State → Byte → State} (h : Reads s a k) (hok : RunOk s)
    (draws : Nat) (v : Byte) : stepsLeft (k (afterRead a draws s) v) < stepsLeft s := by
  cases h with
  | fcount hr hmore =>
    have hnext : (s.outCount + 1).toNat = s.outCount.toNat + 1 := by bv_omega
    simp only [stepsLeft, countByte_run, countByte_lat, countByte_outCount, afterRead, hr, hnext]
    omega
  | @encode k acc hr hmore =>
    have hcode : (codeAt s (symIndex v)).length ≤ longestCode s := length_codeAt_le_longestCode s _
    obtain ⟨d, hd⟩ : ∃ d, s.lat.srcLen.toNat - k = d + 1 := ⟨s.lat.srcLen.toNat - k - 1, by omega⟩
    have hd' : s.lat.srcLen.toNat - (k + 1) = d := by omega
    have hlong : longestCode (takeSource k acc (afterRead (s.lat.srcAddr.toNat + k) draws s) v) = longestCode s := rfl
    have hsame : codeAt (afterRead (s.lat.srcAddr.toNat + k) draws s) (symIndex v) = codeAt s (symIndex v) := rfl
    simp only [stepsLeft, hr, takeSource_run, takeSource_lat, hlong, hsame, List.length_nil]
    simp only [afterRead, hd, hd', Nat.succ_mul]
    omega
  | decode hr hint hmore => exact stepsLeft_consumeBit hok hr hmore v

/-- R121: a write takes a step. -/
theorem Writes.stepsLeft_lt {s t w : State} {a : Nat} {v : Byte} {k : State → State} (h : Writes s t a v k) (hok : RunOk s)
    (hw : WriteAnswered t a v w) : stepsLeft (k w) < stepsLeft s := by
  have hpos := stepsLeft_pos hok h.busy
  rw [hw.same]
  cases h with
  | fullByte hr => simp [stepsLeft, hr, byteEmitted, longestCode]
  | lastByte => exact hpos
  | @symbol n cur hr =>
    simp only [RunOk, hr] at hok
    have hroom := (hok.2.2.2.2.2 n rfl).2
    have hnext : (s.outCount + 1).toNat = s.outCount.toNat + 1 := by bv_omega
    simp only [stepsLeft, hr, symbolDone, hnext]
    omega

/-- R121: every step of the engine is one of those left. -/
theorem Inv.stepsLeft_lt {s w : State} (hinv : Inv s) (hstep : Machine.engineStep s = some w) :
    stepsLeft w < stepsLeft s := by
  have hok := hinv.running
  cases steps_of_engineStep hstep with
  | advance h => exact h.stepsLeft_lt hok
  | readFails h => exact stepsLeft_pos hok h.busy
  | read h draws v => exact h.stepsLeft_lt hok draws v
  | writeFails h => exact stepsLeft_pos hok h.busy
  | write h hw => exact h.stepsLeft_lt hok hw

/-! ## The end -/

/-- R121: every byte of the running command's ranges answers. -/
def Answering (s : State) : Prop := ∀ a, inSource s a = true ∨ inDest s a = true → kindAt s.platform a ≠ .silent

theorem Answering.engineStep {s w : State} (h : Answering s) (hstep : Machine.engineStep s = some w) : Answering w := by
  obtain ⟨hsame, hend⟩ := engineStep_frame hstep
  have hplatform : w.platform = s.platform := hsame.2.2.2.1
  intro a ha
  rcases hend with hidle | ⟨hcmd, hlat⟩
  · simp [not_inRanges_idle hidle a] at ha
  · rw [hplatform]
    refine h a ?_
    simpa only [inSource, inDest, hcmd, hlat] using ha

theorem respondRead_isSome {t : State} {a : Nat} (k : State → Byte → State) (h : kindAt t.platform a ≠ .silent) :
    respondRead t a k ≠ none := by
  unfold respondRead
  cases hk : kindAt t.platform a with
  | silent => exact absurd hk h
  | readError | hole | device => simp
  | memory | writeError => simp only; split <;> simp

theorem respondWrite_isSome {t : State} {a : Nat} (v : Byte) (k : State → State) (h : kindAt t.platform a ≠ .silent) :
    respondWrite t a v k ≠ none := by
  unfold respondWrite
  cases hk : kindAt t.platform a with
  | silent => exact absurd hk h
  | memory | readError | writeError | hole | device => simp

/-- R43, R141: a running command whose bytes answer always has a next step. -/
theorem Inv.idle_of_no_step {s : State} (hinv : Inv s) (hans : Answering s) (hnone : Machine.engineStep s = none) :
    s.run = .idle := by
  have hof := move_of s
  have hok := hinv.running
  unfold Machine.engineStep at hnone
  cases hm : move s with
  | rest =>
    rw [hm] at hof
    cases (hof : Rests s) with
    | idle hr => exact hr
    | @noMerge active k hr hk hmerge =>
      simp only [RunOk, hr] at hok
      obtain ⟨-, -, -, -, -, old, hafter⟩ := hok
      have hlen := length_active_treeAfter hk.le hafter
      obtain ⟨_, _, hsome, -⟩ := mergeOnce_isSome k s.nodes active (by omega)
      simp [hsome] at hmerge
    | noCode hr hleaf hcode =>
      simp only [RunOk, hr] at hok
      obtain ⟨_, hsome, -⟩ := leafCode_isSome (hinv.treeOfFreq hok.1) _ hleaf
      simp [hsome] at hcode
  | advance t => simp [hm] at hnone
  | read t a k =>
    rw [hm] at hof hnone
    obtain ⟨rfl, hread⟩ := (hof : t = s ∧ Reads s a k)
    exact absurd hnone (respondRead_isSome k (hans a (.inl (hread.inSource hinv).1)))
  | write t a v k =>
    rw [hm] at hof hnone
    have hwrite : Writes s t a v k := hof
    have hkind : kindAt t.platform a ≠ .silent := by
      rw [hwrite.same_memory.2.2.2]
      exact hans a (.inr (hwrite.inDest hinv).1)
    exact absurd hnone (respondWrite_isSome v k hkind)

/-- R121: a command whose bytes answer has ended within its bound. -/
theorem Inv.runEngine_ends {s : State} (hinv : Inv s) (hans : Answering s) :
    (runEngine (stepBound s) s).run = .idle := by
  have hkeep : ∀ u w, (Inv u ∧ Answering u) → Machine.engineStep u = some w → (Inv w ∧ Answering w) :=
    fun u w h hs => ⟨h.1.engineStep hs, h.2.engineStep hs⟩
  obtain ⟨hinv', hans'⟩ := runEngine_keeps hkeep (stepBound s) s ⟨hinv, hans⟩
  exact hinv'.idle_of_no_step hans' (runEngine_exhausts (μ := stepsLeft)
    (fun u w h hs => ⟨hkeep u w h hs, h.1.stepsLeft_lt hs⟩) _ s ⟨hinv, hans⟩ (stepsLeft_le_stepBound s))

/-- Settles O11: the steps left run out, and a command that has ended is done. -/
theorem commandsTerminate : Obligations.CommandsTerminate := by
  intro i s hinv hready hans
  obtain ⟨hl, hi, hu⟩ := hready
  have hacc : Inv (accept (encode i) (.start i) s) :=
    (hinv.sound.accept hl _ _).inv (FirstPhase.runOk (.start rfl) hinv.codesNeedTree)
  have hends := hacc.runEngine_ends fun a _ => hans a
  have hexec := exec_idle i hl hi
  have hf := follows_of_exec hl hi hexec
  have hidle : (settle (accept (encode i) (.start i) s)).run = .idle := by
    rw [settle_undisturbed (s := accept ..) hu]
    exact hends
  refine ⟨_, hexec, hidle, ?_⟩
  rcases hf.phase with ⟨-, hdone⟩ | ⟨hrun, -⟩
  · exact hdone
  · rw [hidle] at hrun
    cases hrun

/-- R71, R121: a store to the source range that is not due while the command runs finds it ended, for its bytes answer. -/
theorem settle_ends {s : State} {due : Due} {n a : Nat} {v : Byte} {rest : List Input} (hinv : Inv s)
    (hin : s.inputs = { due := due, act := .store a v } :: rest) (hdue : due = .after n ∨ due = .during n)
    (hsrc : inSource s a = true) (hahead : duringAhead s s.inputs = false) : (settle s).run = .idle := by
  rcases hdue with rfl | rfl
  · have hstall : mayStall s = false := by
      rw [hin] at hahead
      simp only [duringAhead, mayArriveBusy, comesDuring, storesToSource, hsrc, Bool.true_and, Bool.or_eq_false_iff] at hahead
      exact hahead.1
    have hwindow : engineWindow s = stepBound s := by
      rw [hin] at hahead
      simp [engineWindow, hin, storesToSource, hsrc, hahead]
    have hans : Answering s := fun b hb hk => by simp [mayStall_of_silent hb hk] at hstall
    have hrun : settle s = runEngine (stepBound s) s := by simp [settle, hahead, hwindow]
    rw [hrun]
    exact hinv.runEngine_ends hans
  · simp [hin, duringAhead, mayArriveBusy, comesDuring] at hahead

/-- Settles O59: a store is foreseen exactly where the command cannot end before it. -/
theorem racesAreForeseen : Obligations.RacesAreForeseen := by
  intro s due n a v rest hinv hbusy hdue hin hsrc hkind
  refine ⟨fun hb k => ?_, fun hb hraced hclean k => ?_⟩
  · have hahead : duringAhead s s.inputs = true := by
      by_contra hnot
      have hends := settle_ends hinv hin hdue hsrc (Bool.eq_false_iff.mpr hnot)
      exact (busy_eq_true_iff _).mp hb hends
    have hcloud : clouded s a = true := by
      rw [hin] at hahead
      simp [clouded, hin, storeAhead_of_head hahead]
    simp [respondRead, hkind, hcloud, drawn, logged]
  · have hahead : duringAhead s s.inputs = false := by
      by_contra hnot
      have hstill := settle_busy_of_duringAhead (Bool.eq_true_of_not_eq_false hnot) hbusy
      simp [hb] at hstill
    exact respondRead_plain k (.inl hkind) hraced (storeAhead_of_not_duringAhead hahead a) hclean

/-- R121: an access without a response is no step. -/
theorem runEngine_of_no_step {s : State} (h : engineStep s = none) (n : Nat) : runEngine n s = s := by
  cases n <;> simp [runEngine, h]

/-- Settles O12. -/
theorem noResponseLeavesBusy : Obligations.NoResponseLeavesBusy := by
  refine ⟨fun s t a k hm hk n => ?_, fun s t a v k hm hk n => ?_⟩
  · have hnone : engineStep s = none := by simp [engineStep, hm, respondRead, hk]
    exact ⟨runEngine_of_no_step hnone n, (busy_eq_true_iff s).mpr (reads_of_move hm).2.busy⟩
  · have hnone : engineStep s = none := by simp [engineStep, hm, respondWrite, hk]
    exact ⟨runEngine_of_no_step hnone n, (busy_eq_true_iff s).mpr (writes_of_move hm).busy⟩

end Sys2Proof.Machine
end

section
/-! PROOF. Command words and the issue of a command (spec/30_encoding.md R90 to R93; spec/40_command.md R111 to R120): which
words decode, what the step at a CMD write is, what acceptance, the checks, NOP and an error write. -/

namespace Sys2Proof.Machine

/-! ## Command words -/

/-- Settles O1: each is the command's word. -/
theorem commandWordsDecode : Obligations.CommandWordsDecode :=
  have hword (i : Instr) : decode (encode i) = .ok i := decode_eq_ok_iff_eq_encode.mpr rfl
  ⟨hword .nop, hword .fcount, hword .build, hword .gencode, hword .encode, hword .decode⟩

/-- R93: the opcodes from `0x06` on are no command's. -/
theorem opcodeMap_eq_none {op : BitVec 8} (h : 6 ≤ op.toNat) : opcodeMap op = none := by
  rw [Option.eq_none_iff_forall_ne_some]
  intro i hi
  rw [opcodeMap_eq_some_iff] at hi
  subst hi
  revert h
  cases i <;> decide

/-- Settles O3: the reserved bits are looked at first, then the opcode. -/
theorem reservedWordsAreIllegal : Obligations.ReservedWordsAreIllegal := by
  intro w
  refine ⟨fun h => if_neg h, fun h hop => ?_⟩
  have hnone : opcodeMap (opField w) = none := opcodeMap_eq_none hop
  have hrsvd : rsvdField w = 0#24 := h
  simp [decode, hrsvd, hnone]

/-! ## The step at a CMD write -/

/-- R31, R78: the step at a CMD write that has come and carries a command is that command's meaning. -/
theorem step_command {s : State} {due : Due} {lanes : List Byte} {rest : List Input} {i : Instr}
    (hin : s.inputs = { due := due, act := .write (cmdAddr s.platform) lanes } :: rest) (hcome : hasCome due s = true)
    (hdec : decodeLanes lanes = .ok i) :
    step s = exec i { awaited due s with inputs := rest, response := .written } := by
  have hlen : lanes.length = 4 := by
    obtain ⟨w, rfl⟩ := eq_lanesOfWord_of_decodeLanes hdec
    rfl
  unfold step
  rw [nextEvent_cmdWrite hin hcome hlen]
  simp only [hdec]

/-- Settles O4: the write has come, and the port passes the word on. -/
theorem stepIssuesDecodedCommand : Obligations.StepIssuesDecodedCommand := fun _ _ _ _ _ => step_command

/-- R111, R116: the first phase of the command of a word. -/
def firstPhase (w : Word) : Run :=
  match decode w with
  | .ok i => .start i
  | .error _ => .illegal w

/-- R31, R111, R116: the step at the write of any word to CMD issues that word. -/
theorem step_cmdWrite {s : State} {w : Word} {due : Due} {rest : List Input}
    (hin : s.inputs = { due := due, act := .write (cmdAddr s.platform) (lanesOfWord w) } :: rest)
    (hcome : hasCome due s = true) :
    step s = .next (issue w (firstPhase w) { awaited due s with inputs := rest, response := .written }) := by
  unfold firstPhase
  cases hdec : decode w with
  | ok i =>
    rw [step_command hin hcome ((decodeLanes_lanesOfWord w).trans hdec), exec_eq_issue,
      ← decode_eq_ok_iff_eq_encode.mp hdec]
  | error e => exact step_illegalWord hin hcome hdec

theorem firstPhase_cases (w : Word) :
    (∃ i, decode w = .ok i ∧ firstPhase w = .start i) ∨ (∃ e, decode w = .error e ∧ firstPhase w = .illegal w) := by
  unfold firstPhase
  cases decode w with
  | ok i => exact .inl ⟨i, rfl, rfl⟩
  | error e => exact .inr ⟨e, rfl, rfl⟩

/-- Settles O5: the engine takes no step after the acceptance, and acceptance writes these fields. -/
theorem acceptanceWritesAndLatches : Obligations.AcceptanceWritesAndLatches := by
  intro s w rest hin hl hi hnow
  have hissue : issue w (firstPhase w) { awaited (.after 0) s with inputs := rest, response := .written } =
      accept w (firstPhase w) { s with inputs := rest, response := .written } :=
    (issue_idle (s := { s with inputs := rest, response := .written }) hl hi).trans (settle_arrivesNow hnow)
  have hphase := firstPhase_cases w
  have hbusy : firstPhase w ≠ .idle := by rcases hphase with ⟨i, -, h⟩ | ⟨e, -, h⟩ <;> simp [h]
  refine ⟨_, (step_cmdWrite hin rfl).trans (congrArg _ hissue), (busy_eq_true_iff _).mpr hbusy, by simp [irq], ?_, hphase⟩
  have htree : treeAfterAccept w s.treeValid = if w = 1#32 ∨ w = 2#32 then false else s.treeValid := by
    by_cases h1 : w = 1#32 <;> by_cases h2 : w = 2#32 <;> simp [treeAfterAccept, clearsTables, h1, h2]
  have hcodes : codesAfterAccept w s.treeValid s.codesValid =
      if w = 1#32 ∨ w = 2#32 then false else if w = 3#32 ∧ s.treeValid = true then false else s.codesValid := by
    by_cases h1 : w = 1#32 <;> by_cases h2 : w = 2#32 <;> by_cases h3 : w = 3#32 <;> cases s.treeValid <;>
      simp [codesAfterAccept, clearsTables, h1, h2, h3]
  simp only [accept, htree, hcodes, latch]

/-- R115: a word that comes while a command runs is dropped. -/
theorem issue_busy {c : Word} {r : Run} {s : State} (hl : s.rstLow = false) (hb : busy s = true) :
    issue c r s = settle (dropCommand s) := by
  unfold issue
  rw [hl, hb]
  rfl

/-- Settles O6: BUSY drops the command. -/
theorem commandWhileBusyIsDropped : Obligations.CommandWhileBusyIsDropped := by
  intro s w due rest hin hcome hl hbusy
  exact (step_cmdWrite hin hcome).trans
    (congrArg _ (issue_busy (s := { awaited due s with inputs := rest, response := .written }) hl hbusy))

/-! ## NOP and the checks -/

/-- Settles O8: acceptance, then the one step that completes. -/
theorem nopCompletesAndChangesNothingElse : Obligations.NopCompletesAndChangesNothingElse := by
  intro s hready
  obtain ⟨hl, hi, hu⟩ := hready
  have hpass : firstFailure .nop (accept (encode .nop) (.start .nop) s) = none := by
    simp [firstFailure, checkState, capacityOK, sourceLen, destLen, overlap, rangeOK_empty]
  have hstep : engineStep (accept (encode .nop) (.start .nop) s) =
      some (complete (accept (encode .nop) (.start .nop) s)) := by
    rw [engineStep_start rfl, hpass]
    rfl
  have hbound : stepBound (accept (encode .nop) (.start .nop) s) = 0 + 1 := rfl
  rw [exec_idle .nop hl hi, settle_undisturbed (s := accept ..) hu, hbound, runEngine_succ_of_step 0 hstep, runEngine]
  simp [complete, endCommand, accept, encode, treeAfterAccept, codesAfterAccept, clearsTables, scrambled, hi]

section
variable {i : Instr} {s : State}

/-! R119: each check is the one that fails where those before it pass. -/

theorem firstFailure_of_state {e : ErrorCode} (h : checkState i s = some e) : firstFailure i s = some (e, 0) := by
  simp [firstFailure, h]

theorem firstFailure_of_source (hstate : checkState i s = none)
    (h : 2 ^ 32 < s.lat.srcAddr.toNat + sourceLen i s.lat) : firstFailure i s = some (.addrRange, 0) := by
  have hrange : rangeOK s.lat.srcAddr.toNat (sourceLen i s.lat) = false := decide_eq_false (Nat.not_le.mpr h)
  simp [firstFailure, hstate, hrange]

theorem firstFailure_of_dest (hstate : checkState i s = none)
    (hsrc : s.lat.srcAddr.toNat + sourceLen i s.lat ≤ 2 ^ 32)
    (h : 2 ^ 32 < s.lat.dstAddr.toNat + destLen i s.lat) : firstFailure i s = some (.addrRange, 1) := by
  have hsrc' : rangeOK s.lat.srcAddr.toNat (sourceLen i s.lat) = true := decide_eq_true hsrc
  have hrange : rangeOK s.lat.dstAddr.toNat (destLen i s.lat) = false := decide_eq_false (Nat.not_le.mpr h)
  simp [firstFailure, hstate, hsrc', hrange]

/-- R117 to R119: past the range checks, the ranges and then the capacity decide. -/
theorem firstFailure_of_ranges (hstate : checkState i s = none)
    (hsrc : s.lat.srcAddr.toNat + sourceLen i s.lat ≤ 2 ^ 32) (hdst : s.lat.dstAddr.toNat + destLen i s.lat ≤ 2 ^ 32) :
    firstFailure i s =
      if overlap s.lat.srcAddr.toNat (sourceLen i s.lat) s.lat.dstAddr.toNat (destLen i s.lat) then some (.overlap, 0)
      else if !capacityOK i s.lat then some (.dstOverflow, s.lat.dstCap)
      else none := by
  have hsrc' : rangeOK s.lat.srcAddr.toNat (sourceLen i s.lat) = true := decide_eq_true hsrc
  have hdst' : rangeOK s.lat.dstAddr.toNat (destLen i s.lat) = true := decide_eq_true hdst
  simp [firstFailure, hstate, hsrc', hdst']

theorem firstFailure_of_overlap (hstate : checkState i s = none)
    (hsrc : s.lat.srcAddr.toNat + sourceLen i s.lat ≤ 2 ^ 32) (hdst : s.lat.dstAddr.toNat + destLen i s.lat ≤ 2 ^ 32)
    (h : overlap s.lat.srcAddr.toNat (sourceLen i s.lat) s.lat.dstAddr.toNat (destLen i s.lat) = true) :
    firstFailure i s = some (.overlap, 0) := by
  rw [firstFailure_of_ranges hstate hsrc hdst, if_pos h]

theorem firstFailure_of_capacity (hstate : checkState i s = none)
    (hsrc : s.lat.srcAddr.toNat + sourceLen i s.lat ≤ 2 ^ 32) (hdst : s.lat.dstAddr.toNat + destLen i s.lat ≤ 2 ^ 32)
    (hapart : overlap s.lat.srcAddr.toNat (sourceLen i s.lat) s.lat.dstAddr.toNat (destLen i s.lat) = false)
    (h : capacityOK i s.lat = false) : firstFailure i s = some (.dstOverflow, s.lat.dstCap) := by
  rw [firstFailure_of_ranges hstate hsrc hdst, hapart, h]
  rfl

/-- R111, R214: what acceptance and then the error leave. -/
theorem raiseError_accept (hi : s.run = .idle) (e : ErrorCode) (info : Word) :
    raiseError e info (accept (encode i) (.start i) s) = failedCheck i (errorNumber e) info s := by
  have htree : treeAfterAccept (encode i) s.treeValid = (s.treeValid && decide (i ≠ .fcount ∧ i ≠ .build)) := by
    cases i <;> simp [encode, treeAfterAccept, clearsTables]
  have hcodes : codesAfterAccept (encode i) s.treeValid s.codesValid =
      (s.codesValid && decide (i ≠ .fcount ∧ i ≠ .build) && !(decide (i = .gencode) && s.treeValid)) := by
    cases i <;> simp [encode, codesAfterAccept, clearsTables]
  simp [raiseError, endCommand, accept, failedCheck, htree, hcodes, scrambled, hi]

/-- R111, R119: no acceptance makes its own command's state precondition fail. -/
theorem checkState_accept (i : Instr) (s : State) : checkState i (accept (encode i) (.start i) s) = checkState i s := by
  cases i <;> simp [checkState, encode, treeAfterAccept, codesAfterAccept, clearsTables]

/-- R119, R214: a command that fails a check leaves what acceptance and the error write. -/
theorem exec_failedCheck (hready : Ready s) {e : ErrorCode} {info : Word}
    (h : firstFailure i (accept (encode i) (.start i) s) = some (e, info)) :
    exec i s = .next (failedCheck i (errorNumber e) info s) := by
  rw [exec_of_firstFailure hready h, raiseError_accept hready.2.1]

end

/-- Settles O9: the first failing check, in the order of R119, for each command. -/
theorem checksFailInOrder : Obligations.ChecksFailInOrder := by
  intro s hready src len dst cap inBytes
  have hencodeOk : s.codesValid = true → checkState .encode (accept (encode .encode) (.start .encode) s) = none :=
    fun hv => (checkState_accept .encode s).trans (if_pos hv)
  have hdecodeOk : s.treeValid = true → checkState .decode (accept (encode .decode) (.start .decode) s) = none :=
    fun hv => (checkState_accept .decode s).trans (if_pos hv)
  have hshare : ∀ {a la b lb : Nat}, 0 < la → 0 < lb → a < b + lb → b < a + la → overlap a la b lb = true :=
    fun h1 h2 h3 h4 => decide_eq_true ⟨h1, h2, h3, h4⟩
  refine ⟨fun h => ?_, fun h => ?_, fun h => ?_, fun hv h => ?_, fun hv hs h => ?_, fun hv hs hd h1 h2 h3 h4 => ?_,
    fun h => ?_, fun hv h => ?_, fun hv hs h => ?_, fun hv hs hd h1 h2 h3 h4 => ?_, fun hv hs hd hapart h => ?_⟩
  · exact exec_failedCheck hready (firstFailure_of_source (i := .fcount) rfl h)
  · exact exec_failedCheck hready (firstFailure_of_state
      ((checkState_accept .gencode s).trans (if_neg (ne_true_of_eq_false h))))
  · exact exec_failedCheck hready (firstFailure_of_state
      ((checkState_accept .encode s).trans (if_neg (ne_true_of_eq_false h))))
  · exact exec_failedCheck hready (firstFailure_of_source (hencodeOk hv) h)
  · exact exec_failedCheck hready (firstFailure_of_dest (hencodeOk hv) hs h)
  · exact exec_failedCheck hready (firstFailure_of_overlap (hencodeOk hv) hs hd (hshare h1 h2 h3 h4))
  · exact exec_failedCheck hready (firstFailure_of_state
      ((checkState_accept .decode s).trans (if_neg (ne_true_of_eq_false h))))
  · exact exec_failedCheck hready (firstFailure_of_source (hdecodeOk hv) h)
  · exact exec_failedCheck hready (firstFailure_of_dest (hdecodeOk hv) hs h)
  · exact exec_failedCheck hready (firstFailure_of_overlap (hdecodeOk hv) hs hd (hshare h1 h2 h3 h4))
  · exact exec_failedCheck hready (firstFailure_of_capacity (hdecodeOk hv) hs hd (decide_eq_false hapart)
      (decide_eq_false (Nat.not_le.mpr h)))

/-- Settles O10: with no byte that races, the end of the command leaves memory. -/
theorem raiseRecordsError : Obligations.RaiseRecordsError := by
  refine ⟨fun e info s hraced => ⟨?_, by simp [irq]⟩, rfl, rfl, rfl, rfl, rfl, rfl, rfl, rfl⟩
  simp [raiseError, endCommand, hraced, scrambled]

/-- Settles O15: a quiet event, a command and an illegal word each answer a next state. -/
theorem stepAlwaysGoesOn : Obligations.StepAlwaysGoesOn := by
  intro s
  unfold step
  cases nextEvent s with
  | quiet t => exact ⟨t, rfl⟩
  | command lanes t =>
    cases hdec : decodeLanes lanes with
    | ok i =>
      simp only [hdec]
      exact ⟨_, exec_eq_issue i t⟩
    | error e =>
      simp only [hdec]
      exact ⟨_, rfl⟩

end Sys2Proof.Machine
end

section
/-! PROOF. The register port and the host that waits (spec/20_memory.md R60 to R63; spec/30_encoding.md R97): the parameter
registers, the accesses the port takes and refuses, the waits, and the reset pin (spec/70_reset_and_hazards.md R240). -/

namespace Sys2Proof.Machine

/-! ## The parameter registers (R30) -/

/-- R30, R39: the offsets of the parameter registers. -/
def paramOffsets : List Nat := [0x010, 0x014, 0x018, 0x01C, 0x020, 0x024, 0x028]

/-- The parameter register at an offset. -/
def paramAt (p : Params) (off : Nat) : Word :=
  if off = offSRC_ADDR then p.srcAddr
  else if off = offSRC_LEN then p.srcLen
  else if off = offDST_ADDR then p.dstAddr
  else if off = offDST_CAP then p.dstCap
  else if off = offSYM_COUNT then p.symCount
  else if off = offIN_BITS_LO then p.inBitsLo
  else p.inBitsHi

/-- The parameter registers after a write at an offset. -/
def setParam (p : Params) (off : Nat) (v : Word) : Params :=
  if off = offSRC_ADDR then { p with srcAddr := v }
  else if off = offSRC_LEN then { p with srcLen := v }
  else if off = offDST_ADDR then { p with dstAddr := v }
  else if off = offDST_CAP then { p with dstCap := v }
  else if off = offSYM_COUNT then { p with symCount := v }
  else if off = offIN_BITS_LO then { p with inBitsLo := v }
  else { p with inBitsHi := v }

theorem paramOffsets_cases {off : Nat} (h : off ∈ paramOffsets) :
    off = 0x010 ∨ off = 0x014 ∨ off = 0x018 ∨ off = 0x01C ∨ off = 0x020 ∨ off = 0x024 ∨ off = 0x028 := by
  simpa [paramOffsets] using h

theorem registerWord_param {off : Nat} (h : off ∈ paramOffsets) (s : State) : registerWord s off = paramAt s.params off := by
  rcases paramOffsets_cases h with rfl | rfl | rfl | rfl | rfl | rfl | rfl <;> rfl

theorem writeRegister_param {off : Nat} (h : off ∈ paramOffsets) {s : State} (hl : s.rstLow = false) (v : Word) :
    writeRegister off v s = { s with params := setParam s.params off v } := by
  unfold writeRegister
  rw [if_neg (ne_true_of_eq_false hl)]
  rcases paramOffsets_cases h with rfl | rfl | rfl | rfl | rfl | rfl | rfl <;> rfl

theorem paramAt_setParam {off other : Nat} (h : off ∈ paramOffsets) (h' : other ∈ paramOffsets) (p : Params) (v : Word) :
    paramAt (setParam p off v) other = if other = off then v else paramAt p other := by
  rcases paramOffsets_cases h with rfl | rfl | rfl | rfl | rfl | rfl | rfl <;>
    rcases paramOffsets_cases h' with rfl | rfl | rfl | rfl | rfl | rfl | rfl <;> rfl

/-- Settles O43: each of the seven registers stands alone. -/
theorem parameterRegistersReadBack : Obligations.ParameterRegistersReadBack := by
  intro s v off hl hoff
  have hlow : off < 0x02C := by
    rcases paramOffsets_cases hoff with rfl | rfl | rfl | rfl | rfl | rfl | rfl <;> decide
  rw [writeRegister_param hoff hl]
  refine ⟨?_, rfl, fun other hother hne => ?_⟩
  · rw [readRegister_of_not_result (s := { s with params := setParam s.params off v }) hl (resultOffset_eq_false (.inl hlow)),
      registerWord_param hoff, paramAt_setParam hoff hoff, if_pos rfl]
  · rw [registerWord_param hother, registerWord_param hother, paramAt_setParam hoff hother, if_neg hne]

/-! ## The port -/

theorem claimed_iff (p : Platform) (addr : Nat) :
    claimed p addr = true ↔ p.hufeBase ≤ addr ∧ addr < p.hufeBase + 0x8000 := by
  simp [claimed, inRange, Config.blockSize]

theorem portAccepts_eq_false {off width : Nat} (h : width ≠ 4 ∨ off % 4 ≠ 0) : portAccepts off width = false := by
  rcases h with h | h <;> simp [portAccepts, h]

/-- R61: the port's error response is the only effect. -/
theorem portRead_refused {s : State} {addr width : Nat} (hin : claimed s.platform addr = true)
    (h : portAccepts (addr - s.platform.hufeBase) width = false) :
    portRead addr width s = { s with response := .busError } := by
  simp [portRead, hin, h]

theorem portWrite_refused {s : State} {addr : Nat} {lanes : List Byte} (hin : claimed s.platform addr = true)
    (h : portAccepts (addr - s.platform.hufeBase) lanes.length = false) :
    portWrite addr lanes s = .quiet (settle { s with response := .busError }) := by
  simp [portWrite, hin, h]

/-- The step at a host action that has come and issues no command. -/
theorem step_of_deliver {s t : State} {due : Due} {act : HostAct} {rest : List Input}
    (hin : s.inputs = { due := due, act := act } :: rest) (hcome : hasCome due s = true)
    (h : ∀ r, deliver act { awaited due s with inputs := rest, response := r } = .quiet t) : step s = .next t := by
  obtain ⟨r, hev⟩ := nextEvent_of_hasCome hin hcome
  simp only [step, hev, h]

/-- Settles O47: the refused access reaches no register. -/
theorem portRefusesOtherAccesses : Obligations.PortRefusesOtherAccesses := by
  intro s addr width lanes due rest _ hlow hhigh hcome
  have hclaimed : claimed s.platform addr = true := (claimed_iff _ _).mpr ⟨hlow, hhigh⟩
  refine ⟨fun h hin => step_of_deliver hin hcome fun r => ?_, fun h hin => step_of_deliver hin hcome fun r => ?_⟩
  · exact congrArg (fun t => Event.quiet (settle t))
      (portRead_refused (s := { awaited due s with inputs := rest, response := r }) hclaimed (portAccepts_eq_false h))
  · exact portWrite_refused (s := { awaited due s with inputs := rest, response := r }) hclaimed (portAccepts_eq_false h)

/-- R63: a register read does not look at the host's last answer, and what it returns not at what the host has read. -/
theorem portRead_answer (s : State) (off : Nat) (r : Response) (unseen : List Nat) :
    { noteRead off (readRegister { s with response := r, unseen := unseen } off).2 with
      response := .word (readRegister { s with response := r, unseen := unseen } off).1 } =
    { noteRead off (readRegister { s with unseen := unseen } off).2 with
      response := .word (readRegister s off).1 } := by
  unfold noteRead
  cases hu : readUnspecified s off with
  | true =>
    rw [readRegister_free (s := { s with response := r, unseen := unseen }) hu,
      readRegister_free (s := { s with unseen := unseen }) hu, readRegister_free hu]
    split <;> rfl
  | false =>
    rw [readRegister_exact (s := { s with response := r, unseen := unseen }) hu,
      readRegister_exact (s := { s with unseen := unseen }) hu, readRegister_exact hu]
    split <;> rfl

/-- Settles O57: the port passes an aligned word on to the register. -/
theorem registerPortTransfersWords : Obligations.RegisterPortTransfersWords := by
  intro s off due rest hoff halign hcome
  refine ⟨fun b0 b1 b2 b3 hcmd hin => step_of_deliver hin hcome fun r => ?_,
    fun hin => step_of_deliver hin hcome fun r => ?_⟩
  · exact portWrite_word (s := { awaited due s with inputs := rest, response := r }) hoff halign hcmd rfl
  · refine congrArg (fun t => Event.quiet (settle t))
      ((portRead_word (s := { awaited due s with inputs := rest, response := r }) hoff halign).trans ?_)
    exact portRead_answer { s with inputs := rest } off r (awaited due s).unseen

/-! ## Waits and the reset pin -/

theorem pollStatus_of_done {s : State} (hl : s.rstLow = false) (hd : s.done = true) :
    pollStatus s = { s with unseen := [], response := .word (statusWord s) } := by
  rw [pollStatus_high hl, noteStatus_of_done hl hd]

/-- Settles O52: one STATUS read a step, or the end of the host's program. -/
theorem hostWaitsForDone : Obligations.HostWaitsForDone := by
  intro s act rest hl
  obtain ⟨hdone, herr⟩ := statusWord_done_err s
  refine ⟨fun due hdue hin hnot => ?_, fun hin hd he => ?_⟩
  · have hpoll : pollStatus s = { s with response := .word (statusWord s) } := by
      rw [pollStatus_high hl, noteStatus_of_not_done hnot]
    have hinputs : (settle { s with response := .word (statusWord s) }).inputs = s.inputs :=
      settle_keeps (P := fun u => u.inputs = s.inputs)
        (fun u w h hs => (engineStep_frame hs).1.2.2.2.2.2.1.trans h) _ rfl
    have hnext : nextEvent s = .quiet (settle (pollStatus s)) := by
      rcases hdue with rfl | rfl <;>
        simp only [nextEvent, hin, readRegister_status hl, hdone, hnot, Bool.false_eq_true, if_false]
    exact ⟨_, by simp only [step, hnext, hpoll], rfl, hinputs⟩
  · simp only [step, nextEvent, hin, readRegister_status hl, hdone, herr, hd, he, pollStatus_of_done hl hd, if_true]

/-- Settles O51: no arm acts with `rst_n` low, and the invariant holds the reset state there. -/
theorem hardResetHoldsEngine : Obligations.HardResetHoldsEngine := by
  intro s off v i hl
  refine ⟨?_, ?_, readRegister_free (by simp [readUnspecified, hl]), fun hinv => ?_⟩
  · unfold writeRegister
    exact if_pos hl
  · rw [exec_eq_issue]
    exact congrArg _ (if_pos hl)
  · have hreset := hinv.lowIsReset hl
    exact ⟨hreset, hreset.irq_eq, hreset.busy_eq⟩

theorem resetEngine_inputs (s : State) : (resetEngine s).inputs = s.inputs := by
  rw [resetEngine, resetRegisters_inputs]
  rcases flightLanded_cases s with h | h | ⟨t, a, v, k, -, h⟩ <;> rw [h] <;> rfl

/-- R97, R240: with `rst_n` low no wait is known to end. -/
theorem due_of_hasCome_low {s : State} {due : Due} (hl : s.rstLow = true) (hcome : hasCome due s = true) :
    ∃ n, due = .after n ∨ due = .during n := by
  cases due with
  | after n => exact ⟨n, .inl rfl⟩
  | during n => exact ⟨n, .inr rfl⟩
  | wait | waitOk => simp [hasCome, hl] at hcome

/-- Settles O58: the reset state, whatever ran; the release starts no command. -/
theorem resetPinHoldsAndReleases : Obligations.ResetPinHoldsAndReleases := by
  intro s due rest hcome
  refine ⟨fun hin => ?_, fun hinv hl hin => ?_⟩
  · obtain ⟨r, hev⟩ := nextEvent_of_hasCome hin hcome
    have hreset := resetRegisters_engineReset (flightLanded { awaited due s with inputs := rest, response := r })
    have hstep : step s = .next
        { resetEngine { awaited due s with inputs := rest, response := r } with rstLow := true } := by
      unfold step
      rw [hev]
      rfl
    exact ⟨_, hstep, hreset, hreset.irq_eq, rfl, resetEngine_inputs _⟩
  · have hreset : EngineReset { s with inputs := rest, rstLow := false } := hinv.lowIsReset hl
    have hnext : nextEvent s = .quiet (settle { s with inputs := rest, rstLow := false }) := by
      obtain ⟨n, rfl | rfl⟩ := due_of_hasCome_low hl hcome <;> simp only [nextEvent, hin, deliver]
    refine ⟨?_, hreset⟩
    simp only [step, hnext]
    exact congrArg _ (settle_idle hreset.1)

end Sys2Proof.Machine
end

section
/-! PROOF. What the host and a command may count on of memory they share (spec/20_memory.md section 4;
spec/70_reset_and_hazards.md sections 1 and 3): races, the order at issue and at completion, and what a reset leaves. -/

namespace Sys2Proof.Machine

theorem scrambled_sorted (as : List Nat) (m : List Host.Cell) (n : Nat) (hm : m.Pairwise (fun c d => c.1 < d.1)) :
    (scrambled as m n).Pairwise (fun c d => c.1 < d.1) := by
  induction as generalizing m n with
  | nil => exact hm
  | cons a as ih => exact ih _ _ (memWrite_sorted m a _ hm)

/-! ## A reset (R242) -/

theorem flightLanded_idle {s : State} (h : s.run = .idle) : flightLanded s = s := by
  simp [flightLanded, move, h]

theorem flightLanded_racedDst (s : State) : (flightLanded s).racedDst = s.racedDst := by
  rcases flightLanded_cases s with h | h | ⟨t, a, v, k, -, h⟩ <;> rw [h] <;> rfl

theorem flightLanded_sorted {s : State} (hs : memWf s.mem) : (flightLanded s).mem.Pairwise (fun c d => c.1 < d.1) := by
  rcases flightLanded_cases s with h | h | ⟨t, a, v, k, -, h⟩ <;> rw [h]
  · exact hs.1
  · exact hs.1
  · exact memWrite_sorted s.mem a v hs.1

/-- The write in flight lands or not. -/
theorem memRead_flightLanded {s : State} (hs : memWf s.mem) (x : Nat) :
    memRead (flightLanded s).mem x = memRead s.mem x ∨
      ∃ t v k, move s = .write t x v k ∧ memRead (flightLanded s).mem x = v := by
  rcases flightLanded_cases s with h | h | ⟨t, a, v, k, hmove, h⟩ <;> rw [h]
  · exact .inl rfl
  · exact .inl rfl
  · by_cases hx : x = a
    · subst hx
      exact .inr ⟨t, v, k, hmove, memRead_memWrite_same s.mem x v hs.1⟩
    · exact .inl (memRead_memWrite_other s.mem a x v hx hs.1)

/-- Settles O50: only the write in flight and the bytes that race can change. -/
theorem resetEndsRunningCommand : Obligations.ResetEndsRunningCommand := by
  intro s hs
  have hreset : EngineReset (resetEngine s) := resetRegisters_engineReset _
  have hmem : (resetEngine s).mem = scrambled s.racedDst (flightLanded s).mem (flightLanded s).draws := by
    rw [resetEngine, resetRegisters_mem, flightLanded_racedDst]
  refine ⟨hreset, hreset.irq_eq, rfl, fun n => runEngine_idle n rfl, fun x hx => ?_, fun x hx => ?_, fun hi hd => ?_⟩
  · rw [hmem, memRead_scrambled_other _ _ _ _ hx (flightLanded_sorted hs)]
    exact memRead_flightLanded hs x
  · rw [hmem]
    exact memRead_scrambled_mem _ _ _ _ hx (flightLanded_sorted hs)
  · rw [hmem, hd, flightLanded_idle hi]
    rfl

/-! ## The engine's reads and the host's -/

theorem clouded_of_racedSrc {s : State} {a : Nat} (h : a ∈ s.racedSrc) : clouded s a = true := by
  simp [clouded, h]

theorem clouded_of_unclean {s : State} {a : Nat} (hc : s.platform.coherent = false) (h : a ∈ s.unclean) :
    clouded s a = true := by
  simp [clouded, hc, h]

theorem clouded_eq_false {s : State} {a : Nat} (hraced : a ∉ s.racedSrc) (hahead : storeAhead s s.inputs a = false)
    (hclean : s.platform.coherent = true ∨ a ∉ s.unclean) : clouded s a = false := by
  rcases hclean with hc | hc <;> simp [clouded, hraced, hahead, hc]

theorem respondRead_clouded {t : State} {a : Nat} (k : State → Byte → State) (hk : kindAt t.platform a = .memory)
    (hc : clouded t a = true) :
    respondRead t a k = some (k { t with accesses := .read a :: t.accesses, draws := t.draws + 1 }
      (Config.freeByte t.draws)) := by
  unfold respondRead
  rw [hk]
  exact if_pos hc

theorem loadClouded_of_unseen {s : State} {a : Nat} (h : a ∈ s.unseen) : loadClouded s a = true := by
  simp [loadClouded, h]

theorem loadClouded_of_stale {s : State} {a : Nat} (hc : s.platform.coherent = false) (h : a ∈ s.hostStale) :
    loadClouded s a = true := by
  simp [loadClouded, hc, h]

theorem loadClouded_eq_false {s : State} {a : Nat} (hk : kindAt s.platform a = .memory) (hdst : inDest s a = false)
    (hseen : a ∉ s.unseen) (hfresh : s.platform.coherent = true ∨ a ∉ s.hostStale) : loadClouded s a = false := by
  rcases hfresh with hf | hf <;> simp [loadClouded, hk, hdst, hseen, hf, holdsByte]

theorem hostLoad_clouded {s : State} {a : Nat} (ha : a < Config.dataSpace) (hc : loadClouded s a = true) :
    hostLoad a s = { s with response := .byte (Config.freeByte s.draws), draws := s.draws + 1 } := by
  unfold hostLoad
  rw [if_neg (Nat.not_le.mpr ha), if_pos hc]
  rfl

theorem hostLoad_plain {s : State} {a : Nat} {v : Byte} (ha : a < Config.dataSpace) (hc : loadClouded s a = false)
    (hv : memRead s.mem a = v) : hostLoad a s = { s with response := .byte v } := by
  unfold hostLoad
  rw [if_neg (Nat.not_le.mpr ha), if_neg (ne_true_of_eq_false hc), hv]

/-! ## Races (R74) -/

/-- Settles O53: the host's store puts the byte into the set of bytes that race. -/
theorem racedBytesAreFree : Obligations.RacedBytesAreFree := by
  intro s a v hs _ ha hk
  have hstore := hostStore_eq (s := s) v ha (by rw [hk]; rfl)
  refine ⟨fun hsrc k => ?_, fun hdst => ?_⟩
  · have hraced : a ∈ (hostStore a v s).racedSrc := by simp [hstore, hsrc, mem_addAddr]
    have hread := respondRead_clouded k (by simpa [hstore] using hk) (clouded_of_racedSrc hraced)
    rw [hread]
    simp only [hstore]
  · have hraced : a ∈ (hostStore a v s).racedDst := by simp [hstore, hdst, mem_addAddr]
    have hsorted : (hostStore a v s).mem.Pairwise (fun c d => c.1 < d.1) := by
      rw [hstore]
      exact memWrite_sorted s.mem a v hs.1
    exact ⟨memRead_scrambled_mem _ _ _ _ hraced hsorted, fun e info => memRead_scrambled_mem _ _ _ _ hraced hsorted,
      hostLoad_clouded ha (by simp [loadClouded, hdst])⟩

/-! ## The order at completion (R72, R77) -/

theorem mem_hostInvalidate_hostStale {s : State} {a : Nat} :
    a ∈ (hostInvalidate a 1 s).hostStale ↔ a ∈ s.hostStale ∧ a ∈ s.unseen := by
  simp [hostInvalidate, inRange]

/-- R77: an invalidate of a byte the engine has written since the host last held it does not lose the engine's byte. -/
theorem memRead_hostInvalidate {s : State} {a len : Nat} (hs : s.mem.Pairwise (fun c d => c.1 < d.1))
    (hstale : a ∈ s.hostStale) : memRead (hostInvalidate a len s).mem a = memRead s.mem a :=
  memRead_scrambled_other _ _ _ _ (by simp [hstale]) hs

/-- R77: after an invalidate of a byte of which the host has read DONE = 1, the host reads memory's byte. -/
theorem hostLoad_hostInvalidate {s : State} {a : Nat} {v : Byte} (ha : a < Config.dataSpace)
    (hk : kindAt s.platform a = .memory) (hdst : inDest s a = false) (hs : s.mem.Pairwise (fun c d => c.1 < d.1)) (hseen : s.unseen = [])
    (hstale : a ∈ s.hostStale) (hv : memRead s.mem a = v) :
    hostLoad a (hostInvalidate a 1 s) = { hostInvalidate a 1 s with response := .byte v } := by
  have hfresh : a ∉ (hostInvalidate a 1 s).hostStale := by simp [mem_hostInvalidate_hostStale, hseen]
  have hplain : loadClouded (hostInvalidate a 1 s) a = false :=
    loadClouded_eq_false hk hdst (by simp [hostInvalidate, hseen]) (.inr hfresh)
  exact hostLoad_plain ha hplain ((memRead_hostInvalidate hs hstale).trans hv)

/-- Settles O54: the completion leaves the byte unseen, the STATUS read clears that, and an invalidate
after it the stale copy. -/
theorem cacheMaintenanceRestoresOrder : Obligations.CacheMaintenanceRestoresOrder := by
  intro s a v c r ha hk hl hraced hs ended seen next
  have hsorted : ended.mem.Pairwise (fun c d => c.1 < d.1) := scrambled_sorted _ _ _ (memWrite_sorted s.mem a v hs.1)
  have hread : memRead ended.mem a = v :=
    (memRead_scrambled_other _ _ _ _ hraced (memWrite_sorted s.mem a v hs.1)).trans (memRead_memWrite_same s.mem a v hs.1)
  have hunseen : a ∈ ended.unseen := mem_addAddr.mpr (.inl rfl)
  have hseen : seen = { ended with unseen := [], response := .word (statusWord ended) } :=
    pollStatus_of_done (s := ended) hl rfl
  clear_value seen
  subst hseen
  refine ⟨loadClouded_of_unseen hunseen, fun hc => ?_, fun hc => ?_⟩
  · exact hostLoad_plain ha (loadClouded_eq_false hk rfl List.not_mem_nil (.inl hc)) hread
  · have hstale : a ∈ ended.hostStale := by simp [ended, hc, mem_addAddr]
    have hkept : loadClouded (pollStatus (hostInvalidate a 1 ended)) a = true := by
      rw [pollStatus_of_done (s := hostInvalidate a 1 ended) hl rfl]
      exact loadClouded_of_stale hc (mem_hostInvalidate_hostStale.mpr ⟨hstale, hunseen⟩)
    exact ⟨loadClouded_of_stale hc hstale, hkept, hostLoad_hostInvalidate ha hk rfl hsorted rfl hstale hread,
      fun hnext => hostLoad_hostInvalidate (s := next) ha hk hnext hsorted rfl hstale hread⟩

/-! ## The order at issue (R71, R77) -/

theorem not_mem_hostClean_hostDirty {s : State} {a : Nat} : a ∉ (hostClean a 1 s).hostDirty := by
  simp [hostClean, inRange]

/-- R77: a clean of a byte of which the host holds the last write keeps that byte. -/
theorem memRead_hostClean {s : State} {a len : Nat} (hs : s.mem.Pairwise (fun c d => c.1 < d.1)) (h : a ∉ s.hostStale) :
    memRead (hostClean a len s).mem a = memRead s.mem a :=
  memRead_scrambled_other _ _ _ _ (by simp [h]) hs

/-- What comes during a command depends on what the host holds ready, the parameters and the platform alone. -/
theorem duringAhead_accept_congr {s u : State} {c : Word} {r : Run} (hp : u.platform = s.platform)
    (hparams : u.params = s.params) (hin : u.inputs = s.inputs) (h : duringAhead (accept c r s) s.inputs = false) :
    duringAhead (accept c r u) u.inputs = false := by
  rw [hin, duringAhead_congr (s := accept c r s) (t := accept c r u) hp rfl (congrArg latch hparams), h]

/-- R71: at the acceptance no byte is raced for; with no host action due during the command only what is not clean is
not promised. -/
theorem clouded_accept {s : State} {a : Nat} {c : Word} {r : Run} (hquiet : duringAhead (accept c r s) s.inputs = false)
    (hclean : s.platform.coherent = true ∨ a ∉ s.hostDirty) : clouded (accept c r s) a = false :=
  clouded_eq_false List.not_mem_nil (storeAhead_of_not_duringAhead hquiet a) hclean

/-- Settles O60: acceptance takes what is not clean, and a clean keeps the byte of which the host has the last write. -/
theorem cleaningRestoresIssueOrder : Obligations.CleaningRestoresIssueOrder := by
  intro s a v c r _ ha hk hquiet hs
  have hstore := hostStore_eq (s := s) v ha (by rw [hk]; rfl)
  have hsorted : (hostStore a v s).mem.Pairwise (fun c d => c.1 < d.1) := by
    rw [hstore]
    exact memWrite_sorted s.mem a v hs.1
  have hread : memRead (hostStore a v s).mem a = v := by
    rw [hstore]
    exact memRead_memWrite_same s.mem a v hs.1
  have hquiet' : duringAhead (accept c r (hostStore a v s)) (hostStore a v s).inputs = false := by
    rw [hstore]
    exact duringAhead_accept_congr (s := s) rfl rfl rfl hquiet
  have hcoherent : (hostStore a v s).platform.coherent = s.platform.coherent := by rw [hstore]
  refine ⟨hread, fun hc => clouded_accept hquiet' (.inl (hcoherent.trans hc)), fun hc => ⟨?_, ?_, ?_⟩⟩
  · have hdirty : a ∈ (hostStore a v s).hostDirty := by simp [hstore, hc, mem_addAddr]
    exact clouded_of_unclean (s := accept c r (hostStore a v s)) (hcoherent.trans hc) hdirty
  · exact clouded_accept (duringAhead_accept_congr (s := hostStore a v s) rfl rfl rfl hquiet')
      (.inr not_mem_hostClean_hostDirty)
  · have hfresh : a ∉ (hostStore a v s).hostStale := by simp [hstore]
    exact (memRead_hostClean hsorted hfresh).trans hread

end Sys2Proof.Machine
end
